-- ==== Sys2Proof/Word.lean ====
section
/-! DEFINITION. The word types of the block: bytes of data memory and 32-bit register values (R11, R14). -/

namespace Sys2Proof

/-- A byte of data memory or of a lookup table (R14). -/
abbrev Byte := BitVec 8

/-- A 32-bit register value, bit 0 least significant (R11, R55). -/
abbrev Word := BitVec 32

end Sys2Proof
end

