-- ==== Sys2Proof/Config.lean ====
section
/-! DEFINITION. The platform parameters of 00_scope.md R5 to R7 as plain data, and the free values: opaque constants
that nothing can evaluate (R15's `any8()` and every other "any value" of 93_implementation_defined.md). -/

namespace Sys2Proof

/-- The parameters of the platform. State holds them (log 1), no step changes them, so that a claim about every state
covers every admissible parameter, as R163 asks.
N_INST (R8) is the number of instances State holds; REG_BASE (R9) stands with each instance. -/
structure Config where
  /-- ADDR_W (R5). -/
  addrW : Nat
  /-- SAFE_STD_T: bit b is 1 exactly when byte b is in SAFE_STD (R6, R160). -/
  safeStd : BitVec 256
  /-- SAFE_MIN_T: bit b is 1 exactly when byte b is in SAFE_MIN (R6, R160). -/
  safeMin : BitVec 256
  /-- BusErr (R7) as ranges (first address, number of bytes): the predicate is true exactly on their bytes. -/
  busErr : List (Nat × Nat)
  /-- The ranges of the data space that are not ordinary memory (R59, U12; log 11). -/
  device : List (Nat × Nat)
  deriving DecidableEq, Repr

/-- `any8()` of R15 for the draw of that number at a data address. FREE VALUE (log 6). -/
opaque Config.freeByte : Nat → Nat → Byte

/-- RESULT where R68 leaves it any value. FREE VALUE (log 6). -/
opaque Config.freeResult : Nat → Word

/-- ERR_INFO where R103 or R68 leaves it any value. FREE VALUE (log 6). -/
opaque Config.freeErrInfo : Nat → Word

/-- ERRCODE where R68 leaves it any value. FREE VALUE (log 6, log 9). -/
opaque Config.freeErrCode : Nat → BitVec 4

/-- Whether the engine meets the bus error before it stops at an invalid character: the draw of R103 (U8).
FREE VALUE (log 6). -/
opaque Config.freeBusFirst : Nat → Bool

end Sys2Proof
end

