-- ==== Sys2Proof/Syntax.lean ====
section
/-! DEFINITION. The nine commands of the opcode map (30_encoding.md R78), the one command word format CMDW (R75) and the
names of the encodings that start no command (R76, R81). -/

namespace Sys2Proof

/-- The nine commands of R78. No command has an operand field (R80): the operands are registers latched at GO (R79). -/
inductive Instr
  /-- B64_ENC, R121. -/
  | b64Enc
  /-- B64_DEC, R141. -/
  | b64Dec
  /-- B64_ENC_LEN, R123. -/
  | b64EncLen
  /-- B64_DEC_LEN, R144. -/
  | b64DecLen
  /-- PCT_ENC_STD, R166. -/
  | pctEncStd
  /-- PCT_ENC_MIN, R167. -/
  | pctEncMin
  /-- PCT_STRLEN_STD, R168. -/
  | pctStrlenStd
  /-- PCT_STRLEN_MIN, R169. -/
  | pctStrlenMin
  /-- PCT_DEC, R187. -/
  | pctDec
  deriving DecidableEq, Repr

/-- The fields of CMDW (R75): GO = bit 31, RSV = bits [30:4], OP = bits [3:0]. -/
structure CmdWord where
  go : Bool
  rsv : BitVec 27
  op : BitVec 4
  deriving DecidableEq, Repr

/-- Why bytes start none of the nine commands. The first two are no command word with GO = 1;
the last two are the illegal encodings of R81, which complete with BADCMD (R99, R207). -/
inductive Reject
  /-- Not one 32-bit word: no command has another length, prefix or extension word (R75, R83). -/
  | notOneWord
  /-- GO = 0: the write only stores OP (R76). -/
  | goClear
  /-- RSV is not 0 (R77). -/
  | reservedBits
  /-- OP is 0x0 or 0xA to 0xF (R81). -/
  | reservedOpcode
  deriving DecidableEq, Repr

end Sys2Proof
end

