-- ==== Sys2Proof/WellFormed.lean ====
section
/-! DEFINITION. Well-formedness checks: of a command word (R77, R78, R81), of an instruction (every one is: R80) and of the
platform parameters (R5, R6). -/

namespace Sys2Proof

/-- OP selects one of the nine commands (R78, R81). -/
def CmdWord.opAssigned (c : CmdWord) : Bool := decide (1 ≤ c.op.toNat ∧ c.op.toNat ≤ 9)

/-- A command word that starts a defined command (R82): GO = 1, RSV = 0, OP assigned. -/
def CmdWord.wf (c : CmdWord) : Bool := c.go && (c.rsv == 0#27) && c.opAssigned

/-- An instruction has no operand field (R80), so every one is well formed. -/
def Instr.wf : Instr → Bool
  | .b64Enc => true
  | .b64Dec => true
  | .b64EncLen => true
  | .b64DecLen => true
  | .pctEncStd => true
  | .pctEncMin => true
  | .pctStrlenStd => true
  | .pctStrlenMin => true
  | .pctDec => true

/-- R5: 1 <= ADDR_W <= 32. -/
def Config.addrWOk (c : Config) : Bool := decide (1 ≤ c.addrW ∧ c.addrW ≤ 32)

/-- R6(a): SAFE_MIN is a proper subset of SAFE_STD. -/
def Config.minInStd (c : Config) : Bool := (c.safeMin &&& c.safeStd == c.safeMin) && (c.safeMin != c.safeStd)

/-- R6(b): `*` is in SAFE_STD and not in SAFE_MIN. -/
def Config.starSplits (c : Config) : Bool := c.safeStd.getLsbD 0x2A && !c.safeMin.getLsbD 0x2A

/-- R6(c), (d), (e): space, `%`, `+` and 0x00 are in neither set. -/
def Config.neverSafe (c : Config) : Bool :=
  [0x20, 0x25, 0x2B, 0x00].all fun b => !c.safeStd.getLsbD b && !c.safeMin.getLsbD b

/-- The constraints the spec puts on the parameters (R5, R6). -/
def Config.wf (c : Config) : Bool := c.addrWOk && c.minInStd && c.starSplits && c.neverSafe

end Sys2Proof
end

