-- ==== Sys2Proof/Decode.lean ====
section
/-! DEFINITION. The decoder of CMDW, total on every word and every byte sequence (R82), rejecting by name, and the encoder,
both written from the format of R75 and the opcode map of R78. -/

namespace Sys2Proof

/-- The fields of a 32-bit CMDW (R75). -/
def CmdWord.ofWord (w : Word) : CmdWord :=
  { go := w.getLsbD 31, rsv := w.extractLsb' 4 27, op := w.extractLsb' 0 4 }

/-- The 32-bit CMDW with these fields (R75). -/
def CmdWord.toWord (c : CmdWord) : Word := BitVec.ofBool c.go ++ c.rsv ++ c.op

/-- The opcode map of R78; none for the reserved opcodes (R81). -/
def opcodeInstr (op : BitVec 4) : Option Instr :=
  if op = 0x1#4 then some .b64Enc
  else if op = 0x2#4 then some .b64Dec
  else if op = 0x3#4 then some .b64EncLen
  else if op = 0x4#4 then some .b64DecLen
  else if op = 0x5#4 then some .pctEncStd
  else if op = 0x6#4 then some .pctEncMin
  else if op = 0x7#4 then some .pctStrlenStd
  else if op = 0x8#4 then some .pctStrlenMin
  else if op = 0x9#4 then some .pctDec
  else none

/-- Check 1 of R99 on RSV and OP: the command they select, or why they are illegal (R81).
RSV is looked at first: with RSV not 0 the word is illegal whatever OP is (R77). -/
def decodeFields (rsv : BitVec 27) (op : BitVec 4) : Except Reject Instr :=
  if rsv ≠ 0#27 then .error .reservedBits
  else match opcodeInstr op with
    | some i => .ok i
    | none => .error .reservedOpcode

/-- The decoder of a 32-bit CMDW (R82). -/
def decodeCmdw (w : Word) : Except Reject Instr :=
  let c := CmdWord.ofWord w
  if c.go then decodeFields c.rsv c.op else .error .goClear

/-- The 32-bit value on four byte lanes: lane k carries bits [8k+7:8k] (R55). -/
def wordOfLanes (b0 b1 b2 b3 : Byte) : Word := b3 ++ b2 ++ b1 ++ b0

/-- The byte lanes of a 32-bit value, lane 0 first (R55). -/
def lanesOfWord (w : Word) : List Byte :=
  [w.extractLsb' 0 8, w.extractLsb' 8 8, w.extractLsb' 16 8, w.extractLsb' 24 8]

/-- The decoder on bytes, lane 0 first: a command is exactly one 32-bit word (R75, R83). -/
def decode : List Byte → Except Reject Instr
  | [b0, b1, b2, b3] => decodeCmdw (wordOfLanes b0 b1 b2 b3)
  | _ => .error .notOneWord

/-- OP of each command (R78). -/
def opcodeOf : Instr → BitVec 4
  | .b64Enc => 0x1#4
  | .b64Dec => 0x2#4
  | .b64EncLen => 0x3#4
  | .b64DecLen => 0x4#4
  | .pctEncStd => 0x5#4
  | .pctEncMin => 0x6#4
  | .pctStrlenStd => 0x7#4
  | .pctStrlenMin => 0x8#4
  | .pctDec => 0x9#4

/-- The CMDW that starts a command: GO = 1, RSV = 0, OP of R78. -/
def encode (i : Instr) : Word := CmdWord.toWord { go := true, rsv := 0#27, op := opcodeOf i }

/-- The bytes of a command word as the byte lanes carry it (R55). -/
def encodeBytes (i : Instr) : List Byte := lanesOfWord (encode i)

/-- The instruction the decoder reads from a table row's bits: the word is laid out on its byte lanes (R55) and decoded. -/
def decodeTableWord (nbits w : Nat) : Option Instr :=
  let v := w % 2 ^ nbits
  if v < 2 ^ 32 then
    match decode (lanesOfWord (BitVec.ofNat 32 v)) with
    | .ok i => some i
    | .error _ => none
  else none

end Sys2Proof
end

