-- ==== Sys2Proof/Machine/Params.lean ====
section
/-! DEFINITION. The default platform parameters: ADDR_W = 32 (R5), the default safe sets (R163), BusErr false everywhere
(R7), and all of the data space ordinary memory (R59, log 11). -/

namespace Sys2Proof.Machine

/-- The bytes lo, lo + 1, …, of which there are n. -/
def byteRun (lo n : Nat) : List Nat := (List.range n).map (lo + ·)

/-- The 256-entry one-bit table of a set of byte values (R160). -/
def tableOf (bytes : List Nat) : BitVec 256 := bytes.foldl (fun t b => t ||| (1#256 <<< b)) 0#256

/-- Default SAFE_MIN (R163): `A`–`Z`, `a`–`z`, `0`–`9`, `-`, `.`, `_`, `~`. -/
def safeMinBytes : List Nat :=
  byteRun 0x41 26 ++ byteRun 0x61 26 ++ byteRun 0x30 10 ++ [0x2D, 0x2E, 0x5F, 0x7E]

/-- Default SAFE_STD (R163): SAFE_MIN and `!`, `'`, `(`, `)`, `*`. -/
def safeStdBytes : List Nat := safeMinBytes ++ [0x21, 0x27, 0x28, 0x29, 0x2A]

/-- The default parameters. -/
def defaultConfig : Config :=
  { addrW := 32, safeStd := tableOf safeStdBytes, safeMin := tableOf safeMinBytes, busErr := [], device := [] }

end Sys2Proof.Machine
end

