-- ==== Sys2Proof/Machine/State.lean ====
section
/-! DEFINITION. The state of the machine as plain data: one codec block instance with its registers and engine, the other
instances, data memory, the platform parameters, and the pending steps of the agents; the outcomes other than a next
state; the state after reset (10_state.md R43). -/

namespace Sys2Proof.Machine

/-- Data memory as (address, byte) pairs in canonical form: addresses strictly rising, no entry equal to what an unlisted
address reads as (`memBackground`). -/
abbrev Memory := List Host.Cell

/-- What an unlisted address reads as. The spec gives data memory no contents at power-up (R40, R43): DESIGN CHOICE 0x00,
unsafe (log 4). -/
abbrev memBackground : Byte := 0x00#8

/-- `eng.state` (R36). -/
inductive EngState
  | idle
  | run
  deriving DecidableEq, Repr

/-- The engine's internal latched state (R36, R97), and what R68 and R70 say of the running command. -/
structure Engine where
  /-- eng.state (R36). -/
  state : EngState
  /-- eng.CMDW (R97). -/
  cmdw : Word
  /-- eng.OP (R36, R97). -/
  op : BitVec 4
  /-- eng.SRC (R36, R79). -/
  src : Word
  /-- eng.DST (R36, R79). -/
  dst : Word
  /-- eng.LEN (R36, R79). -/
  len : Word
  /-- MODEL'S OWN (log 14): data memory at the command's start, the `mem` of R102 and R63; nothing between commands (R67). -/
  startMem : Memory
  /-- MODEL'S OWN (log 9, log 10): R68 or R70 leaves RESULT, ERRCODE and ERR_INFO of the running command unspecified. -/
  hazard : Bool
  /-- MODEL'S OWN (log 9, log 10): R68 or R70 leaves every byte of the running command's write window unspecified. -/
  windowHazard : Bool
  /-- MODEL'S OWN (log 10): ranges (first address, number of bytes) that R70 leaves unspecified at completion. -/
  foul : List (Nat × Nat)
  deriving DecidableEq, Repr

/-- One codec block instance: its registers (10_state.md section 1), its engine, and where the host sees it. -/
structure Block where
  /-- REG_BASE of this instance (R9, R223). -/
  regBase : Nat
  /-- CTRL.IE (R24). -/
  ie : Bool
  /-- CMD.OP (R25). -/
  cmdOp : BitVec 4
  /-- STATUS.BUSY (R27). -/
  busy : Bool
  /-- STATUS.DONE (R28). -/
  done : Bool
  /-- STATUS.ERR (R29). -/
  err : Bool
  /-- STATUS.OVR (R30). -/
  ovr : Bool
  /-- STATUS.ERRCODE (R29, R205). -/
  errCode : BitVec 4
  /-- SRC_ADDR (R31). -/
  srcAddr : Word
  /-- DST_ADDR (R32). -/
  dstAddr : Word
  /-- SRC_LEN (R33). -/
  srcLen : Word
  /-- RESULT (R34). -/
  result : Word
  /-- ERR_INFO (R35). -/
  errInfo : Word
  eng : Engine
  deriving DecidableEq, Repr

/-- One step of an agent, waiting in the schedule (R18, R95; log 2). Addresses of register accesses are the host's, so an
instance is reached through its REG_BASE (R9, R223). -/
inductive Event
  /-- The engine of the instance at this REG_BASE takes its *complete* step, if it is enabled (R95). -/
  | complete (regBase : Nat)
  /-- The host writes v to a register address with an access of this many bytes. -/
  | regWrite (addr width : Nat) (v : Word)
  /-- The host reads a register address with an access of this many bytes. -/
  | regRead (addr width : Nat)
  /-- The host writes a byte of data memory. -/
  | memWrite (addr : Nat) (v : Byte)
  /-- The host reads a byte of data memory. -/
  | memRead (addr : Nat)
  /-- The reset input is asserted (R230). -/
  | reset
  deriving DecidableEq, Repr

/-- The machine. -/
structure State where
  /-- The platform parameters (R5 to R7), which no step changes (log 1). -/
  cfg : Config
  /-- Data memory, shared by all instances and the host (R40, R223). -/
  mem : Memory
  /-- The instance that acts now. -/
  blk : Block
  /-- The other instances, N_INST - 1 of them (R8, R223). -/
  peers : List Block
  /-- MODEL'S OWN: the pending steps of the agents, oldest first (log 2). -/
  sched : List Event
  /-- MODEL'S OWN: what the host's last register read returned (log 13). -/
  regData : Word
  /-- MODEL'S OWN: what the host's last data-memory read returned (log 13). -/
  memData : Byte
  /-- MODEL'S OWN: the number of the next free value (log 6). -/
  draw : Nat
  deriving DecidableEq, Repr

/-- Why the machine stops. -/
inductive Fault
  /-- The host reads or writes a data address that does not exist (R50: the data space ends at 2^ADDR_W - 1).
  Raised by the two host data accesses, never by a command. Safe (log 12). -/
  | noSuchAddress (addr : Nat)
  deriving DecidableEq, Repr

/-- Why a step has no meaning. -/
inductive Refusal
  /-- An instruction that has no meaning in the model. Safe. -/
  | notModelled (mnemonic : String)
  /-- A window of a command that passed its checks, or a host data access, meets a region that is not ordinary memory: R59
  calls it a host-duty violation "with effects this spec does not define", and U12 gives the treatment `refuse`.
  Raised by the commands that access data memory and by the host data accesses. Safe (log 11). -/
  | notOrdinaryMemory
  deriving DecidableEq, Repr

/-- The engine after reset: IDLE (R43). The latches are unspecified and unobservable while IDLE: DESIGN CHOICE 0 (log 5). -/
def Engine.reset : Engine :=
  { state := .idle, cmdw := 0#32, op := 0#4, src := 0#32, dst := 0#32, len := 0#32, startMem := [], hazard := false,
    windowHazard := false, foul := [] }

/-- An instance after reset: every register 0 (R43, R230). REG_BASE is a strap that reset leaves. -/
def Block.reset (regBase : Nat) : Block :=
  { regBase := regBase, ie := false, cmdOp := 0#4, busy := false, done := false, err := false, ovr := false,
    errCode := 0#4, srcAddr := 0#32, dstAddr := 0#32, srcLen := 0#32, result := 0#32, errInfo := 0#32,
    eng := Engine.reset }

/-- The machine right after reset: the default parameters, one instance, nothing listed in memory, no pending step. -/
def State.reset : State :=
  { cfg := defaultConfig, mem := [], blk := Block.reset 0, peers := [], sched := [], regData := 0#32, memData := 0#8,
    draw := 0 }

end Sys2Proof.Machine
end

