-- ==== Sys2Proof/Machine/Ops.lean ====
section
/-! DEFINITION. The named operations over data memory (R14, R52) and over the registers of an instance: error recording, the
analogue of taking an exception (R104, R215), acknowledgement, the analogue of returning from one (R26, R216), and the
latching of a command (R97). -/

namespace Sys2Proof.Machine

/-! ## Data memory -/

/-- The canonical form: addresses at least lo and strictly rising, no entry equal to the background. -/
def cellsWf (lo : Nat) : List Host.Cell → Bool
  | [] => true
  | (a, v) :: rest => decide (lo ≤ a) && (v != memBackground) && cellsWf (a + 1) rest

/-- The canonical form of data memory. -/
def Memory.wf (m : Memory) : Bool := cellsWf 0 m

/-- Every listed address is in a data space of this many bytes (R50). -/
def memInSpace (m : Memory) (size : Nat) : Bool := m.all fun c => decide (c.1 < size)

/-- `MemRead(a, 1)` (R14). -/
def memRead : Memory → Nat → Byte
  | [], _ => memBackground
  | (b, v) :: rest, a => if a = b then v else memRead rest a

/-- The cell of v at a in front of the cells of greater addresses: nothing is listed where v is the background. -/
def consCell (a : Nat) (v : Byte) (rest : List Host.Cell) : List Host.Cell :=
  if v = memBackground then rest else (a, v) :: rest

/-- `MemWrite(a, 1, v)` (R14), keeping the canonical form. -/
def memWrite : Memory → Nat → Byte → Memory
  | [], a, v => consCell a v []
  | (b, w) :: rest, a, v =>
    if a < b then consCell a v ((b, w) :: rest)
    else if a = b then consCell a v rest
    else (b, w) :: memWrite rest a v

/-- The n bytes from address a on, in increasing address order (R53). -/
def memReadBytes (m : Memory) (a : Nat) : Nat → List Byte
  | 0 => []
  | n + 1 => memRead m a :: memReadBytes m (a + 1) n

/-- Store the bytes from address a on, in increasing address order (R53). -/
def memWriteBytes (m : Memory) (a : Nat) : List Byte → Memory
  | [] => m
  | v :: vs => memWriteBytes (memWrite m a v) (a + 1) vs

/-- Each of the n bytes from address a on becomes `any8()` (R15, R106) under the given draw number.
A free byte may equal the byte before, so "its value before the command or `any8()`" is covered (log 7). -/
def memScramble (d : Nat) (m : Memory) (a : Nat) : Nat → Memory
  | 0 => m
  | n + 1 => memScramble d (memWrite m a (Config.freeByte d a)) (a + 1) n

/-- `memScramble` on the part of the range that lies in the data space (log 9): no byte beyond it exists (R50). -/
def memScrambleIn (size d : Nat) (m : Memory) (r : Nat × Nat) : Memory :=
  memScramble d m r.1 (min r.2 (size - r.1))

/-! ## Registers of an instance -/

/-- The codes of R205 that a command can raise; code 0 (NONE) is success. -/
inductive ErrCode
  | invalidInput
  | badCmd
  | range
  | overlap
  | bus
  deriving DecidableEq, Repr

/-- The numbers of R205. -/
def errCodeBits : ErrCode → BitVec 4
  | .invalidInput => 1#4
  | .badCmd => 2#4
  | .range => 3#4
  | .overlap => 4#4
  | .bus => 5#4

/-- The register part of completion, one indivisible step (R104): RESULT, ERR_INFO and ERRCODE are written, ERR says whether
ERRCODE is not 0, BUSY falls, DONE rises, the engine is IDLE and keeps no copy of data memory (R67). -/
def closeCommand (result info : Word) (code : BitVec 4) (b : Block) : Block :=
  { b with
    result := result, errInfo := info, errCode := code, err := decide (code ≠ 0#4), busy := false, done := true,
    eng := { b.eng with state := .idle, startMem := [], hazard := false, windowHazard := false, foul := [] } }

/-- Completion of `finish(result)` (R104). -/
def recordFinish (result : Nat) (b : Block) : Block := closeCommand (BitVec.ofNat 32 result) 0#32 0#4 b

/-- Completion of `Error(code, info)` (R104): error recording, the analogue of trap entry (R215).
RESULT reads 0xFFFF_FFFF; no mode, mask or stack changes, and no control moves, because the block has none. -/
def recordError (code : ErrCode) (info : Word) (b : Block) : Block :=
  closeCommand 0xFFFFFFFF#32 info (errCodeBits code) b

/-- A write to STATUS: bit 1 clears DONE, bit 3 clears OVR, every other bit is ignored (R26). With bit 1 it is the
acknowledgement of R216, the analogue of trap return. -/
def writeStatus (v : Word) (b : Block) : Block :=
  { b with done := b.done && !v.getLsbD 1, ovr := b.ovr && !v.getLsbD 3 }

/-- The bits of a value that an address register implements: bits [ADDR_W-1:0] (R31, R79). -/
def addrBits (addrW : Nat) (v : Word) : Word := BitVec.ofNat 32 (v.toNat % 2 ^ addrW)

/-- `start(v)` on the instance itself (R97): latch the command and the operands (R79), clear the previous completion
status, set BUSY. RESULT, ERR_INFO and OVR keep their values. mem is data memory now, which the command reads (R63, R102). -/
def latchCommand (addrW : Nat) (mem : Memory) (v : Word) (b : Block) : Block :=
  { b with
    done := false, err := false, errCode := 0#4, busy := true,
    eng :=
      { state := .run, cmdw := v, op := v.extractLsb' 0 4, src := addrBits addrW b.srcAddr,
        dst := addrBits addrW b.dstAddr, len := b.srcLen, startMem := mem, hazard := false, windowHazard := false,
        foul := [] } }

/-! ## Which instance acts -/

/-- The first block that satisfies p, and the others. -/
def takeBlock (p : Block → Bool) : List Block → Option (Block × List Block)
  | [] => none
  | b :: bs => if p b then some (b, bs) else (takeBlock p bs).map fun r => (r.1, b :: r.2)

/-- The state in which an instance that satisfies p is the one that acts; none if there is no such instance. -/
def focusOn (p : Block → Bool) (s : State) : Option State :=
  if p s.blk then some s
  else (takeBlock p s.peers).map fun r => { s with blk := r.1, peers := s.blk :: r.2 }

end Sys2Proof.Machine
end

