-- ==== Sys2Proof/Machine/Operands.lean ====
section
/-! DEFINITION. The operands and windows of a command (R79, R98), the checks made on them before any data access (R100, R101),
the tests of a window against the platform's ranges (R7, R59), and what a running command suffers from accesses to its
windows by others (R68, R70). -/

namespace Sys2Proof.Machine

/-- `ceil_div(a, b)` (R12). -/
def ceilDiv (a b : Nat) : Nat := (a + b - 1) / b

/-- Whether a command reads its source window (R79, R100): every command but the two length commands. -/
def readsSource : Instr → Bool
  | .b64EncLen => false
  | .b64DecLen => false
  | .b64Enc => true
  | .b64Dec => true
  | .pctEncStd => true
  | .pctEncMin => true
  | .pctStrlenStd => true
  | .pctStrlenMin => true
  | .pctDec => true

/-- The number of source bytes a command may read: S of R100. -/
def sourceSize (i : Instr) (n : Nat) : Nat := if readsSource i then n else 0

/-- `MaxWrite(op, n)` for the nine commands (R98). -/
def maxWrite : Instr → Nat → Nat
  | .b64Enc, n => 4 * ceilDiv n 3 + 1
  | .b64Dec, n => 3 * n / 4 + 1
  | .pctEncStd, n => 3 * n + 1
  | .pctEncMin, n => 3 * n + 1
  | .pctDec, n => n + 1
  | .b64EncLen, _ => 0
  | .b64DecLen, _ => 0
  | .pctStrlenStd, _ => 0
  | .pctStrlenMin, _ => 0

/-- The number of bytes in the data space (R5, R50). -/
def spaceSize (c : Config) : Nat := 2 ^ c.addrW

/-- Two ranges (first address, number of bytes) have a byte in common. -/
def rangesMeet (r t : Nat × Nat) : Bool :=
  decide (0 < r.2 ∧ 0 < t.2 ∧ r.1 < t.1 + t.2 ∧ t.1 < r.1 + r.2)

/-- The bytes two ranges that meet have in common. -/
def rangesMeetIn (r t : Nat × Nat) : Nat × Nat :=
  (max r.1 t.1, min (r.1 + r.2) (t.1 + t.2) - max r.1 t.1)

/-- The address lies in the range. -/
def inRange (a : Nat) (r : Nat × Nat) : Bool := decide (r.1 ≤ a ∧ a < r.1 + r.2)

/-- The source window [eng.SRC, eng.SRC + S) of a command (R17, R51). -/
def sourceWindow (i : Instr) (e : Engine) : Nat × Nat := (e.src.toNat, sourceSize i e.len.toNat)

/-- The write window [eng.DST, eng.DST + MaxWrite) of a command (R98). -/
def writeWindow (i : Instr) (e : Engine) : Nat × Nat := (e.dst.toNat, maxWrite i e.len.toNat)

/-- The window passes the top of the data space (R61, R100): sums do not wrap, and an empty window never does. -/
def pastTop (c : Config) (r : Nat × Nat) : Bool := decide (0 < r.2 ∧ spaceSize c < r.1 + r.2)

/-- Check 2 (R100). -/
def rangeFails (i : Instr) (c : Config) (e : Engine) : Bool :=
  pastTop c (sourceWindow i e) || pastTop c (writeWindow i e)

/-- Check 3 (R101): for a command that both reads a source and writes a destination, the windows meet.
A window of another command is empty, and meets nothing. -/
def overlapFails (i : Instr) (e : Engine) : Bool := rangesMeet (sourceWindow i e) (writeWindow i e)

/-- Checks 2 and 3 in the order of R212: the error they raise, if any. -/
def checkWindows (i : Instr) (c : Config) (e : Engine) : Option ErrCode :=
  if rangeFails i c e then some .range
  else if overlapFails i e then some .overlap
  else none

/-- Some byte of the range is in one of the ranges. -/
def meetsAny (ranges : List (Nat × Nat)) (r : Nat × Nat) : Bool := ranges.any fun t => rangesMeet r t

/-- `BusErr(a)` (R7). -/
def busErrAt (c : Config) (a : Nat) : Bool := c.busErr.any fun r => inRange a r

/-- A window of the command is not ordinary memory (R59, U12; log 11). -/
def touchesDevice (i : Instr) (c : Config) (e : Engine) : Bool :=
  meetsAny c.device (sourceWindow i e) || meetsAny c.device (writeWindow i e)

/-- The source bytes of the command, from data memory as it stood at the command's start (R53, R63, R102). -/
def sourceBytes (i : Instr) (s : State) : List Byte :=
  memReadBytes s.blk.eng.startMem s.blk.eng.src.toNat (sourceSize i s.blk.eng.len.toNat)

/-! ## What others do to a running command -/

/-- The command the engine has latched, if its word is legal (R99): RSV and OP decide, as they are latched. -/
def latchedInstr (e : Engine) : Option Instr :=
  match decodeFields (e.cmdw.extractLsb' 4 27) e.op with
  | .ok i => some i
  | .error _ => none

/-- The source window of the command an instance runs; an illegal command reads nothing (R99). -/
def blockSource (b : Block) : Nat × Nat :=
  match latchedInstr b.eng with
  | some i => sourceWindow i b.eng
  | none => (b.eng.src.toNat, 0)

/-- The write window of the command an instance runs; an illegal command's is empty (R98; log 15). -/
def blockWindow (b : Block) : Nat × Nat :=
  match latchedInstr b.eng with
  | some i => writeWindow i b.eng
  | none => (b.eng.dst.toNat, 0)

/-- The command an instance runs is legal and passes checks 2 and 3 (R99 to R101): only then does it read (R107). -/
def passesChecks (c : Config) (e : Engine) : Bool :=
  match latchedInstr e with
  | some i => (checkWindows i c e).isNone
  | none => false

/-- The host writes data address a (R68): of a running command one of whose windows holds the address the results are
unspecified from then on, and where its write window holds it every byte of that window too (log 9). -/
def hostWrote (a : Nat) (b : Block) : Block :=
  if b.busy then
    { b with
      eng :=
        { b.eng with
          hazard := b.eng.hazard || inRange a (blockSource b) || inRange a (blockWindow b),
          windowHazard := b.eng.windowHazard || inRange a (blockWindow b) } }
  else b

/-- The host may not rely on what it reads at a (R68): it lies in the write window of a running command. -/
def inBusyWindow (a : Nat) (b : Block) : Bool := b.busy && inRange a (blockWindow b)

/-- The bytes two ranges have in common, as a list of at most one range. -/
def commonRange (r t : Nat × Nat) : List (Nat × Nat) := if rangesMeet r t then [rangesMeetIn r t] else []

/-- The command of b reads bytes of other's write window (R70): their windows meet, and it passes its checks (R107). -/
def readsClash (c : Config) (other b : Block) : Bool :=
  passesChecks c b.eng && rangesMeet (blockWindow other) (blockSource b)

/-- What running beside `other` does to the running command of `b` (R70): where b reads bytes of other's write window, its
results and the bytes it writes are unspecified; and so are the bytes that b's write window has in common with other's write
or source window (log 10). -/
def clashWith (c : Config) (other b : Block) : Block :=
  { b with
    eng :=
      { b.eng with
        hazard := b.eng.hazard || readsClash c other b,
        windowHazard := b.eng.windowHazard || readsClash c other b,
        foul := b.eng.foul ++ commonRange (blockWindow b) (blockWindow other)
          ++ commonRange (blockWindow b) (blockSource other) } }

/-- R70 at a start: the instance that starts and every other running instance are held against each other. -/
def clashAtStart (c : Config) (started : Block) (peers : List Block) : Block × List Block :=
  (peers.foldl (fun b p => if p.eng.state = .run then clashWith c p b else b) started,
   peers.map fun p => if p.eng.state = .run then clashWith c started p else p)

end Sys2Proof.Machine
end

