-- ==== Sys2Proof/Machine/Flags.lean ====
section
/-! DEFINITION. STATUS as the host reads it (R26) and the interrupt output (R41, R213). The flags of a completion are set in
closeCommand, cleared in latchCommand and writeStatus (Machine/Ops.lean); no command reads a flag (R38). -/

namespace Sys2Proof.Machine

/-- STATUS as read (R26): ERRCODE in bits [7:4], OVR bit 3, ERR bit 2, DONE bit 1, BUSY bit 0, the rest 0. -/
def statusWord (b : Block) : Word :=
  0#24 ++ b.errCode ++ BitVec.ofBool b.ovr ++ BitVec.ofBool b.err ++ BitVec.ofBool b.done ++ BitVec.ofBool b.busy

/-- The interrupt output of an instance, `irq = STATUS.DONE & CTRL.IE`, level-sensitive (R41, R213). -/
def irq (b : Block) : Bool := b.done && b.ie

end Sys2Proof.Machine
end

