-- ==== Sys2Proof/Machine/Engine.lean ====
section
/-! DEFINITION. What every command does around its transform (40_engine.md): the outcome of a command, bus errors (R103), the
completion step (R104 to R106), and the shared operation that every meaning calls. -/

namespace Sys2Proof.Machine

/-- An outcome of a command (R102): `finish(result)` with the destination bytes written from eng.DST on, or
`Error(code, info)`. -/
inductive CmdOutcome
  | finish (result : Nat) (written : List Byte)
  | error (code : ErrCode) (info : Word)
  deriving DecidableEq, Repr

/-- The outcome of a command that writes a destination (R105): the output, then the terminator 0x00, and RESULT is the
output's length. -/
def finishWith (out : List Byte) : CmdOutcome := .finish out.length (out ++ [0x00#8])

/-- The destination addresses the outcome would write, as a range (R103).
Of a decode that fails with INVALID_INPUT it is the whole write window, which R106 lets it write (log 16). -/
def outcomeRange (i : Instr) (e : Engine) : CmdOutcome → Nat × Nat
  | .finish _ written => (e.dst.toNat, written.length)
  | .error .invalidInput _ => writeWindow i e
  | .error _ _ => (e.dst.toNat, 0)

/-- An address of ReadSet or WriteSet answers with an error (R103). -/
def busHit (i : Instr) (c : Config) (e : Engine) (o : CmdOutcome) : Bool :=
  meetsAny c.busErr (sourceWindow i e) || meetsAny c.busErr (outcomeRange i e o)

/-- R103 on a bus error: `Error(BUS, any value)` replaces the outcome; against INVALID_INPUT it is a draw. -/
def busReplace (d : Nat) : CmdOutcome → CmdOutcome
  | .error .invalidInput k =>
    if Config.freeBusFirst d then .error .bus (Config.freeErrInfo d) else .error .invalidInput k
  | _ => .error .bus (Config.freeErrInfo d)

/-- The outcome with bus errors (R103). -/
def withBusErrors (i : Instr) (s : State) (o : CmdOutcome) : CmdOutcome :=
  if busHit i s.cfg s.blk.eng o then busReplace s.draw o else o

/-- Data memory after the outcome's writes: exactly the written bytes of a success (R105); each byte of the write window
any value after INVALID_INPUT or BUS, and no byte after BADCMD, RANGE or OVERLAP (R106). -/
def outcomeMem (window : Nat × Nat) (s : State) : CmdOutcome → Memory
  | .finish _ written => memWriteBytes s.mem s.blk.eng.dst.toNat written
  | .error .invalidInput _ => memScrambleIn (spaceSize s.cfg) s.draw s.mem window
  | .error .bus _ => memScrambleIn (spaceSize s.cfg) s.draw s.mem window
  | .error .badCmd _ => s.mem
  | .error .range _ => s.mem
  | .error .overlap _ => s.mem

/-- The registers after the outcome (R104). -/
def outcomeBlock (b : Block) : CmdOutcome → Block
  | .finish result _ => recordFinish result b
  | .error code info => recordError code info b

/-- The registers after a command whose results R68 or R70 leaves unspecified: RESULT, ERRCODE and ERR_INFO any value, the
rest as R104 says (log 9). -/
def hazardBlock (d : Nat) (b : Block) : Block :=
  closeCommand (Config.freeResult d) (Config.freeErrInfo d) (Config.freeErrCode d) b

/-- The engine's *complete* step with the outcome of its command and its write window (R95, R104): the data writes, then the
registers. What R68 and R70 leave unspecified is free: the results, every byte of the write window (log 9), the bytes two
running commands share (log 10). -/
def complete (window : Nat × Nat) (o : CmdOutcome) (s : State) : State :=
  let mem :=
    if s.blk.eng.windowHazard then memScrambleIn (spaceSize s.cfg) s.draw s.mem window else outcomeMem window s o
  { s with
    mem := s.blk.eng.foul.foldl (memScrambleIn (spaceSize s.cfg) s.draw) mem
    blk := if s.blk.eng.hazard then hazardBlock s.draw s.blk else outcomeBlock s.blk o
    draw := s.draw + 1 }

/-- The outcome of a legal command: the error of check 2 or 3 (R100, R101), else the family rule f on LEN and the source
bytes (R102), with bus errors (R103). Priority as R212 gives it. -/
def commandOutcome (i : Instr) (f : Nat → List Byte → CmdOutcome) (s : State) : CmdOutcome :=
  match checkWindows i s.cfg s.blk.eng with
  | some code => .error code 0#32
  | none => withBusErrors i s (f s.blk.eng.len.toNat (sourceBytes i s))

/-- The command passes its checks and points a window at memory that is not ordinary (R59, U12; log 11). -/
def windowsRefused (i : Instr) (s : State) : Bool :=
  (checkWindows i s.cfg s.blk.eng).isNone && touchesDevice i s.cfg s.blk.eng

/-- A legal command with the family rule f runs to completion. -/
def runCommand (i : Instr) (f : Nat → List Byte → CmdOutcome) (s : State) : Host.Outcome State Fault Refusal :=
  if windowsRefused i s then .refused .notOrdinaryMemory
  else .next (complete (writeWindow i s.blk.eng) (commandOutcome i f s) s)

/-- Completion of an illegal command: `Error(BADCMD, 0)`, no data access (R99, R207). Its write window is empty. -/
def completeBadCmd (s : State) : State := complete (blockWindow s.blk) (.error .badCmd 0#32) s

end Sys2Proof.Machine
end

