-- ==== Sys2Proof/Machine/B64Encode.lean ====
section
/-! DEFINITION. 41_b64_encoder.md: the alphabet table, the 6-to-8 regroup, B64_ENC and B64_ENC_LEN. -/

namespace Sys2Proof.Machine

/-- ALPHABET in the closed form of R115. -/
def alphabet (v : BitVec 6) : Byte :=
  if v.toNat ≤ 25 then BitVec.ofNat 8 (0x41 + v.toNat)
  else if v.toNat ≤ 51 then BitVec.ofNat 8 (0x61 + (v.toNat - 26))
  else if v.toNat ≤ 61 then BitVec.ofNat 8 (0x30 + (v.toNat - 52))
  else if v.toNat = 62 then 0x2D#8
  else 0x5F#8

/-- PAD, `.` (R117). -/
def padByte : Byte := 0x2E#8

/-- The 24-bit group value of three bytes, the first most significant (R54, R118). -/
def groupOfBytes (b0 b1 b2 : Byte) : BitVec 24 := b0 ++ b1 ++ b2

/-- The character of the k-th 6-bit value of a group, the first from bits [23:18] (R118). -/
def groupChar (w : BitVec 24) (k : Nat) : Byte := alphabet (w.extractLsb' (18 - 6 * k) 6)

/-- ENC_GROUP (R118). -/
def encGroup (b0 b1 b2 : Byte) : List Byte :=
  let w := groupOfBytes b0 b1 b2
  [groupChar w 0, groupChar w 1, groupChar w 2, groupChar w 3]

/-- ENC_TAIL1 (R119). -/
def encTail1 (b0 : Byte) : List Byte :=
  let w := groupOfBytes b0 0x00#8 0x00#8
  [groupChar w 0, groupChar w 1, padByte, padByte]

/-- ENC_TAIL2 (R120). -/
def encTail2 (b0 b1 : Byte) : List Byte :=
  let w := groupOfBytes b0 b1 0x00#8
  [groupChar w 0, groupChar w 1, groupChar w 2, padByte]

/-- The output of B64_ENC on the source bytes: whole groups, then the leftover (R121). -/
def b64Encode : List Byte → List Byte
  | [] => []
  | [b0] => encTail1 b0
  | [b0, b1] => encTail2 b0 b1
  | b0 :: b1 :: b2 :: rest => encGroup b0 b1 b2 ++ b64Encode rest

/-- The document's `encode_len(n)` (R122, R123). -/
def b64EncodeLen (n : Nat) : Nat := 4 * ceilDiv n 3 + 1

/-- A length that must fit RESULT: RANGE if it does not (R123, R168). Nothing is written. -/
def finishLength (v : Nat) : CmdOutcome := if v > 2 ^ 32 - 1 then .error .range 0#32 else .finish v []

/-- B64_ENC (R121). -/
def execB64Enc (s : State) : Host.Outcome State Fault Refusal :=
  runCommand .b64Enc (fun _ src => finishWith (b64Encode src)) s

/-- B64_ENC_LEN (R123). -/
def execB64EncLen (s : State) : Host.Outcome State Fault Refusal :=
  runCommand .b64EncLen (fun n _ => finishLength (b64EncodeLen n)) s

end Sys2Proof.Machine
end

