-- ==== Sys2Proof/Machine/B64Decode.lean ====
section
/-! DEFINITION. 42_b64_decoder.md: the reverse lookup table, the 8-to-6 regroup, padding, validation, B64_DEC and
B64_DEC_LEN. -/

namespace Sys2Proof.Machine

/-- REV (R135); none is the sentinel INV. -/
def rev (c : Byte) : Option (BitVec 6) :=
  let n := c.toNat
  if 0x41 ≤ n ∧ n ≤ 0x5A then some (BitVec.ofNat 6 (n - 0x41))
  else if 0x61 ≤ n ∧ n ≤ 0x7A then some (BitVec.ofNat 6 (n - 0x61 + 26))
  else if 0x30 ≤ n ∧ n ≤ 0x39 then some (BitVec.ofNat 6 (n - 0x30 + 52))
  else if n = 0x2D then some 62#6
  else if n = 0x5F then some 63#6
  else none

/-- The 24-bit value of four 6-bit values, the first most significant (R137). -/
def groupOfValues (v0 v1 v2 v3 : BitVec 6) : BitVec 24 := v0 ++ v1 ++ v2 ++ v3

/-- The k-th byte of a group, the first from bits [23:16] (R137). -/
def groupByte (v : BitVec 24) (k : Nat) : Byte := v.extractLsb' (16 - 8 * k) 8

/-- DEC_GROUP on the values of its characters (R137). -/
def decGroup (v0 v1 v2 v3 : BitVec 6) : List Byte :=
  let v := groupOfValues v0 v1 v2 v3
  [groupByte v 0, groupByte v 1, groupByte v 2]

/-- DEC_TAIL2 (R138): the low 4 bits of the second value are discarded, unchecked (R143). -/
def decTail2 (v0 v1 : BitVec 6) : List Byte := [groupByte (groupOfValues v0 v1 0#6 0#6) 0]

/-- DEC_TAIL3 (R138): the low 2 bits of the third value are discarded, unchecked (R143). -/
def decTail3 (v0 v1 v2 : BitVec 6) : List Byte :=
  let v := groupOfValues v0 v1 v2 0#6
  [groupByte v 0, groupByte v 1]

/-- The bytes of a sequence of 6-bit values: whole groups, then the short one (R141).
A lone leftover decodes to nothing; R140 rejects it before. -/
def decodeValues : List (BitVec 6) → List Byte
  | [] => []
  | [_] => []
  | [v0, v1] => decTail2 v0 v1
  | [v0, v1, v2] => decTail3 v0 v1 v2
  | v0 :: v1 :: v2 :: v3 :: rest => decGroup v0 v1 v2 v3 ++ decodeValues rest

/-- The number p of pad characters (R139): only the last one or two bytes of a source whose length is a multiple of 4. -/
def padCount (src : List Byte) : Nat :=
  let n := src.length
  if 0 < n ∧ n % 4 = 0 ∧ src[n - 1]? = some padByte then
    if src[n - 2]? = some padByte then 2 else 1
  else 0

/-- The data part of a source: its first L = n - p bytes (R139). -/
def dataPart (src : List Byte) : List Byte := src.take (src.length - padCount src)

/-- The least index of a byte with REV = INV (R140). -/
def firstInvalid : List Byte → Option Nat
  | [] => none
  | c :: cs => if rev c = none then some 0 else (firstInvalid cs).map (· + 1)

/-- Validation of the data part (R140): the offset of the failure, if there is one. -/
def invalidAt (data : List Byte) : Option Nat :=
  match firstInvalid data with
  | some k => some k
  | none => if data.length % 4 = 1 then some (data.length - 1) else none

/-- The outcome of B64_DEC on its source bytes (R141). -/
def b64DecodeOutcome (src : List Byte) : CmdOutcome :=
  match invalidAt (dataPart src) with
  | some k => .error .invalidInput (BitVec.ofNat 32 k)
  | none => finishWith (decodeValues ((dataPart src).filterMap rev))

/-- `decode_len(n)` as R144 gives it (90_conflicts.md C1). -/
def b64DecodeLen (n : Nat) : Nat := 3 * n / 4 + 2

/-- B64_DEC (R141). -/
def execB64Dec (s : State) : Host.Outcome State Fault Refusal :=
  runCommand .b64Dec (fun _ src => b64DecodeOutcome src) s

/-- B64_DEC_LEN (R144): no exception; the value always fits RESULT. -/
def execB64DecLen (s : State) : Host.Outcome State Fault Refusal :=
  runCommand .b64DecLen (fun n _ => .finish (b64DecodeLen n) []) s

end Sys2Proof.Machine
end

