-- ==== Sys2Proof/Machine/PctDecode.lean ====
section
/-! DEFINITION. 44_pct_decoder.md: the hex decode table, the dual-nibble combine with range-check rejection, PCT_DEC. -/

namespace Sys2Proof.Machine

/-- HEXDEC, 9-bit entries, 0x100 the sentinel (R185). -/
def hexDec (c : Byte) : BitVec 9 :=
  let n := c.toNat
  if 0x30 ≤ n ∧ n ≤ 0x39 then BitVec.ofNat 9 (n - 0x30)
  else if 0x41 ≤ n ∧ n ≤ 0x46 then BitVec.ofNat 9 (n - 0x41 + 10)
  else if 0x61 ≤ n ∧ n ≤ 0x66 then BitVec.ofNat 9 (n - 0x61 + 10)
  else 0x100#9

/-- The 13-bit combine of HEXPAIR (R186). -/
def hexCombine (h l : Byte) : BitVec 13 := ((hexDec h).setWidth 13 <<< 4) ||| (hexDec l).setWidth 13

/-- HEXPAIR (R186); none is REJECT. -/
def hexPair (h l : Byte) : Option Byte :=
  if (hexCombine h l).toNat < 256 then some ((hexCombine h l).setWidth 8) else none

/-- The output of PCT_DEC (R187): `+` is a space; a `%` with two bytes after it whose HEXPAIR is not rejected is the byte of
its pair; every other byte, a rejected `%` and a `%` in the tail (R188) are literal. -/
def pctDecode : List Byte → List Byte
  | [] => []
  | b :: h :: l :: rest =>
    if b = 0x2B#8 then 0x20#8 :: pctDecode (h :: l :: rest)
    else if b = 0x25#8 then
      match hexPair h l with
      | some r => r :: pctDecode rest
      | none => 0x25#8 :: pctDecode (h :: l :: rest)
    else b :: pctDecode (h :: l :: rest)
  | b :: tail => (if b = 0x2B#8 then 0x20#8 else b) :: pctDecode tail

/-- PCT_DEC (R187). -/
def execPctDec (s : State) : Host.Outcome State Fault Refusal :=
  runCommand .pctDec (fun _ src => finishWith (pctDecode src)) s

end Sys2Proof.Machine
end

