-- ==== Sys2Proof/Machine/PctEncode.lean ====
section
/-! DEFINITION. 43_pct_encoder.md: classification, the hex encode tables, the percent encoders and the exact-length scans. -/

namespace Sys2Proof.Machine

/-- The entry of a safe-character classification table (R160). -/
def isSafe (table : BitVec 256) (b : Byte) : Bool := table.getLsbD b.toNat

/-- HEXU, the uppercase hex digit of a nibble (R164). -/
def hexDigit (v : BitVec 4) : Byte :=
  if v.toNat ≤ 9 then BitVec.ofNat 8 (0x30 + v.toNat) else BitVec.ofNat 8 (0x41 + (v.toNat - 10))

/-- HEX_HI (R165). -/
def hexHi (b : Byte) : Byte := hexDigit (b.extractLsb' 4 4)

/-- HEX_LO (R165). -/
def hexLo (b : Byte) : Byte := hexDigit (b.extractLsb' 0 4)

/-- What one source byte becomes: itself where it is safe (R162), else `%` and its two hex digits (R166). -/
def pctEncodeByte (table : BitVec 256) (b : Byte) : List Byte :=
  if isSafe table b then [b] else [0x25#8, hexHi b, hexLo b]

/-- The output of a percent encoder (R166, R167). -/
def pctEncode (table : BitVec 256) : List Byte → List Byte
  | [] => []
  | b :: rest => pctEncodeByte table b ++ pctEncode table rest

/-- The count c of R168. -/
def pctStrlen (table : BitVec 256) : List Byte → Nat
  | [] => 0
  | b :: rest => (if isSafe table b then 1 else 3) + pctStrlen table rest

/-- PCT_ENC_STD (R166). -/
def execPctEncStd (s : State) : Host.Outcome State Fault Refusal :=
  runCommand .pctEncStd (fun _ src => finishWith (pctEncode s.cfg.safeStd src)) s

/-- PCT_ENC_MIN (R167). -/
def execPctEncMin (s : State) : Host.Outcome State Fault Refusal :=
  runCommand .pctEncMin (fun _ src => finishWith (pctEncode s.cfg.safeMin src)) s

/-- PCT_STRLEN_STD (R168). -/
def execPctStrlenStd (s : State) : Host.Outcome State Fault Refusal :=
  runCommand .pctStrlenStd (fun _ src => finishLength (pctStrlen s.cfg.safeStd src)) s

/-- PCT_STRLEN_MIN (R169). -/
def execPctStrlenMin (s : State) : Host.Outcome State Fault Refusal :=
  runCommand .pctStrlenMin (fun _ src => finishLength (pctStrlen s.cfg.safeMin src)) s

end Sys2Proof.Machine
end

