-- ==== Sys2Proof/Machine/Dispatch.lean ====
section
/-! DEFINITION. The engine's *complete* step for a legal command: one meaning per row of the opcode map (R78, R102). -/

namespace Sys2Proof.Machine

def exec (i : Instr) (s : State) : Host.Outcome State Fault Refusal :=
  match i with
  | .b64Enc => Sys2Proof.Machine.execB64Enc s
  | .b64Dec => Sys2Proof.Machine.execB64Dec s
  | .b64EncLen => Sys2Proof.Machine.execB64EncLen s
  | .b64DecLen => Sys2Proof.Machine.execB64DecLen s
  | .pctEncStd => Sys2Proof.Machine.execPctEncStd s
  | .pctEncMin => Sys2Proof.Machine.execPctEncMin s
  | .pctStrlenStd => Sys2Proof.Machine.execPctStrlenStd s
  | .pctStrlenMin => Sys2Proof.Machine.execPctStrlenMin s
  | .pctDec => Sys2Proof.Machine.execPctDec s

end Sys2Proof.Machine
end

