-- ==== Sys2Proof/Machine/HostPort.lean ====
section
/-! DEFINITION. The host's side of the block: register reads and writes (10_state.md, R56, R96), data-memory reads and writes
(R50, R68), the reset input (R230, R231). -/

namespace Sys2Proof.Machine

/-! ## Registers -/

/-- The constant of ID (R23). -/
def idValue : Word := 0x53450001#32

/-- An access that reaches the registers: 32 bits wide, at an offset that is a multiple of 4 (R56). -/
def isRegAccess (offset width : Nat) : Bool := decide (width = 4 ∧ offset % 4 = 0)

/-- The value of the register at an offset (R22); reserved offsets read 0 (R37). -/
def regValue (b : Block) (offset : Nat) : Word :=
  if offset = 0x00 then idValue
  else if offset = 0x04 then (BitVec.ofBool b.ie).setWidth 32
  else if offset = 0x08 then b.cmdOp.setWidth 32
  else if offset = 0x0C then statusWord b
  else if offset = 0x10 then b.srcAddr
  else if offset = 0x14 then b.dstAddr
  else if offset = 0x18 then b.srcLen
  else if offset = 0x1C then b.result
  else if offset = 0x20 then b.errInfo
  else 0#32

/-- A register read (R56): any access but an aligned 32-bit one reads 0. -/
def readReg (b : Block) (offset width : Nat) : Word :=
  if isRegAccess offset width then regValue b offset else 0#32

/-- `start(v)` (R97) of the instance that acts, held against the other running instances (R70). -/
def startCommand (v : Word) (s : State) : State :=
  let r := clashAtStart s.cfg (latchCommand s.cfg.addrW s.mem v s.blk) s.peers
  { s with blk := r.1, peers := r.2 }

/-- A GO write that is accepted: OP is stored and the command starts (R25, R96). -/
def acceptCommand (v : Word) (s : State) : State :=
  startCommand v { s with blk := { s.blk with cmdOp := v.extractLsb' 0 4 } }

/-- A write to CMD: with GO = 1 it starts a command, or sets OVR while one runs (R96); with GO = 0 it stores OP, or is
ignored while a command runs (R25, R76). -/
def writeCmd (v : Word) (s : State) : State :=
  if v.getLsbD 31 then
    if s.blk.busy then { s with blk := { s.blk with ovr := true } } else acceptCommand v s
  else if s.blk.busy then s
  else { s with blk := { s.blk with cmdOp := v.extractLsb' 0 4 } }

/-- A register write (R22 to R37, R56): read-only and reserved offsets ignore it, and so does any access but an aligned
32-bit one. -/
def writeReg (offset width : Nat) (v : Word) (s : State) : State :=
  if !isRegAccess offset width then s
  else if offset = 0x04 then { s with blk := { s.blk with ie := v.getLsbD 0 } }
  else if offset = 0x08 then writeCmd v s
  else if offset = 0x0C then { s with blk := writeStatus v s.blk }
  else if offset = 0x10 then { s with blk := { s.blk with srcAddr := addrBits s.cfg.addrW v } }
  else if offset = 0x14 then { s with blk := { s.blk with dstAddr := addrBits s.cfg.addrW v } }
  else if offset = 0x18 then { s with blk := { s.blk with srcLen := v } }
  else s

/-- The instance's register window holds the host's address: 0x40 bytes at REG_BASE (R9, R22). -/
def windowHolds (addr : Nat) (b : Block) : Bool := inRange addr (b.regBase, 0x40)

/-- The host writes a register address: the instance whose window holds it (R223); no window, no effect (log 13). -/
def hostRegWrite (addr width : Nat) (v : Word) (s : State) : State :=
  match focusOn (windowHolds addr) s with
  | some t => writeReg (addr - t.blk.regBase) width v t
  | none => s

/-- The host reads a register address; a read changes no register (R214). -/
def hostRegRead (addr width : Nat) (s : State) : State :=
  match focusOn (windowHolds addr) s with
  | some t => { t with regData := readReg t.blk (addr - t.blk.regBase) width }
  | none => s

/-! ## Data memory -/

/-- The instances of the platform, the acting one first. -/
def allBlocks (s : State) : List Block := s.blk :: s.peers

/-- What a host access to a data address meets first: an address that does not exist (R50; log 12), or memory that is not
ordinary (R59; log 11). -/
def guardData (addr : Nat) (s : State) (t : State) : Host.Outcome State Fault Refusal :=
  if spaceSize s.cfg ≤ addr then .fault (.noSuchAddress addr)
  else if s.cfg.device.any (inRange addr) then .refused .notOrdinaryMemory
  else .next t

/-- The host writes a data byte. In a window of a running command it breaks the duty of R68. -/
def hostMemWrite (addr : Nat) (v : Byte) (s : State) : Host.Outcome State Fault Refusal :=
  guardData addr s
    { s with mem := memWrite s.mem addr v, blk := hostWrote addr s.blk, peers := s.peers.map (hostWrote addr) }

/-- The host reads a data byte; in the write window of a running command it reads `any8()` (R68). -/
def hostMemRead (addr : Nat) (s : State) : Host.Outcome State Fault Refusal :=
  guardData addr s
    (if (allBlocks s).any (inBusyWindow addr) then
      { s with memData := Config.freeByte s.draw addr, draw := s.draw + 1 }
    else { s with memData := memRead s.mem addr })

/-! ## Reset -/

/-- What an instance leaves unspecified in data memory when reset is asserted: nothing while BUSY = 0; else its write window
(R231), unless its command fails a check, since it then makes no data access (R99 to R101, R61; log 22), and the bytes R70
leaves unspecified (log 10). The window of a command that passes check 3 does not meet its source window, which is therefore
not changed (R231). -/
def abortedRanges (c : Config) (b : Block) : List (Nat × Nat) :=
  if b.busy then (if passesChecks c b.eng then [blockWindow b] else []) ++ b.eng.foul else []

/-- Data memory after a reset, which aborts every running command (R231). -/
def resetMem (s : State) : Memory :=
  ((allBlocks s).flatMap (abortedRanges s.cfg)).foldl (memScrambleIn (spaceSize s.cfg) s.draw) s.mem

/-- The reset input (R230, R231): every register and all engine state of every instance at its reset value (R223), data
memory kept but for aborted write windows, no completion recorded. -/
def resetBlocks (s : State) : State :=
  { s with
    mem := resetMem s
    blk := Block.reset s.blk.regBase
    peers := s.peers.map fun b => Block.reset b.regBase
    draw := s.draw + 1 }

end Sys2Proof.Machine
end

