-- ==== Sys2Proof/Machine/Turn.lean ====
section
/-! DEFINITION. What one step of each agent is (R95): the engine's *complete* step of the acting instance, the host's
accesses, the reset input; and what happens when the schedule is empty. -/

namespace Sys2Proof.Machine

/-- The instance is in RUN, where *complete* is enabled (R95). -/
def isRunning (b : Block) : Bool := decide (b.eng.state = .run)

/-- The *complete* step of the acting instance: check 1 on the latched word (R99), then the command (R102).
It is enabled exactly in RUN (R95); in IDLE nothing happens (R233). -/
def engineTurn (s : State) : Host.Outcome State Fault Refusal :=
  if isRunning s.blk then
    match latchedInstr s.blk.eng with
    | some i => exec i s
    | none => .next (completeBadCmd s)
  else .next s

/-- The engine's turn on the instance that satisfies p, if there is one. -/
def engineTurnOf (p : Block → Bool) (s : State) : Host.Outcome State Fault Refusal :=
  match focusOn p s with
  | some t => engineTurn t
  | none => .next s

/-- One scheduled step (R18, R95). -/
def runEvent (e : Event) (s : State) : Host.Outcome State Fault Refusal :=
  match e with
  | .complete regBase => engineTurnOf (fun b => b.regBase == regBase) s
  | .regWrite addr width v => .next (hostRegWrite addr width v s)
  | .regRead addr width => .next (hostRegRead addr width s)
  | .memWrite addr v => hostMemWrite addr v s
  | .memRead addr => hostMemRead addr s
  | .reset => .next (resetBlocks s)

/-- The step of the machine: the oldest pending step; with none pending, a running engine completes (R110), and an idle
block waits (R233). -/
def nextTurn (s : State) : Host.Outcome State Fault Refusal :=
  match s.sched with
  | [] => engineTurnOf isRunning s
  | e :: rest => runEvent e { s with sched := rest }

/-- The GO write of a command word has just been accepted by the acting instance (R96, R97), and its engine moves next.
DESIGN CHOICE (log 3): the word is latched and started without a look at its bit 31 or at BUSY. A word with GO = 0, which a
CMD write never starts (R76), is placed as if its bit 31 were 1; no host write reaches that state. -/
def placeCommand (v : Word) (s : State) : State :=
  let t := acceptCommand v s
  { t with sched := .complete t.blk.regBase :: t.sched }

end Sys2Proof.Machine
end

