-- ==== Sys2Proof/Machine/Step.lean ====
section
/-! DEFINITION. The step of the machine, and the state in which the very next step runs a given command word. -/

namespace Sys2Proof.Machine

/-- One step of the machine (R95). -/
def step : State → Host.Outcome State Fault Refusal := nextTurn

/-- The block fetches no instruction (R21): a command word comes to run by a GO write, which latches it (R97).
This is the state right after that write, with the engine's step next. DESIGN CHOICE (log 3), for a word with GO = 0 too. -/
def State.withFetchWord (s : State) (nbits w : Nat) : State := placeCommand (BitVec.ofNat 32 (w % 2 ^ nbits)) s

end Sys2Proof.Machine
end

