-- ==== Sys2Proof/Safety.lean ====
section
/-! DEFINITION. What a safe run is, in the terms the statements use: the invariant of the machine, the duty the spec puts on
the host (R68, R236), and a command that nobody disturbs. -/

namespace Sys2Proof.Machine

/-- What always holds of one instance's registers: BUSY = 1 exactly in RUN (R36), BUSY and DONE never both 1 (R28), ERR = 1
exactly when ERRCODE is not 0 (R29), ERRCODE = 0 while BUSY (R109), address bits above ADDR_W read 0 (R31, R32), and a
running command is a GO word whose OP stands in eng.OP and in CMD.OP (R25, R97), no copy of data memory is kept between
commands (R67), and the write window is unspecified only where the results are (R68). -/
def blockInv (c : Config) (b : Block) : Bool :=
  (b.busy == decide (b.eng.state = .run)) && !(b.busy && b.done) && (b.err == decide (b.errCode ≠ 0#4))
    && (!b.busy || decide (b.errCode = 0#4))
    && decide (b.srcAddr.toNat < spaceSize c) && decide (b.dstAddr.toNat < spaceSize c)
    && decide (b.eng.src.toNat < spaceSize c) && decide (b.eng.dst.toNat < spaceSize c)
    && (!b.busy || (b.eng.cmdw.getLsbD 31 && decide (b.eng.op = b.eng.cmdw.extractLsb' 0 4) && decide (b.cmdOp = b.eng.op)))
    && (b.busy || decide (b.eng.startMem = [])) && (!b.eng.windowHazard || b.eng.hazard)

/-- The invariant of the machine: admissible parameters (R5, R6), memory in canonical form and within the data space (R50),
and every instance's invariant. -/
def stateInv (s : State) : Bool :=
  s.cfg.wf && Memory.wf s.mem && memInSpace s.mem (spaceSize s.cfg) && (allBlocks s).all (blockInv s.cfg)

/-- The pending step keeps the host's duty (R68, R236): it writes no byte of a running command's windows and reads no byte
of a running command's write window. -/
def dutyKept (s : State) : Event → Bool
  | .memWrite a _ => (allBlocks s).all fun b => !(b.busy && (inRange a (blockSource b) || inRange a (blockWindow b)))
  | .memRead a => (allBlocks s).all fun b => !inBusyWindow a b
  | _ => true

/-! ## Terms of the statements -/

/-- Neither R68 nor R70 leaves anything of the instance's command unspecified. -/
def undisturbed (b : Block) : Bool := !b.eng.hazard && !b.eng.windowHazard && b.eng.foul.isEmpty

/-- The n bytes from a on are inside the data space, which does not wrap (R61). -/
def Fits (c : Config) (a n : Nat) : Prop := n = 0 ∨ a + n ≤ 2 ^ c.addrW

/-- The n bytes from a on and the m bytes from b on have no byte in common. -/
def Apart (a n b m : Nat) : Prop := n = 0 ∨ m = 0 ∨ a + n ≤ b ∨ b + m ≤ a

/-- The n bytes from a on are ordinary memory (R59). -/
def OrdinaryMem (c : Config) (a n : Nat) : Prop := ∀ k, k < n → c.device.any (inRange (a + k)) = false

/-- BusErr (R7) is false on the n bytes from a on. -/
def NoBusErr (c : Config) (a n : Nat) : Prop := ∀ k, k < n → busErrAt c (a + k) = false

/-- Source element k of the latched command, `src[k]`, as data memory held it at the command's start (R14, R53, R63). -/
def srcByte (s : State) (k : Nat) : Byte := memRead s.blk.eng.startMem (s.blk.eng.src.toNat + k)

/-- Output element k of the command latched in s, as the state t holds it, `dst[k]` (R14, R53). -/
def dstByte (s t : State) (k : Nat) : Byte := memRead t.mem (s.blk.eng.dst.toNat + k)

/-- Every byte but the n bytes from eng.DST on is as before. -/
def OnlyWrote (s t : State) (n : Nat) : Prop :=
  ∀ a, a < s.blk.eng.dst.toNat ∨ s.blk.eng.dst.toNat + n ≤ a → memRead t.mem a = memRead s.mem a

/-- A command with S source bytes and a write window of M bytes passes checks 2 and 3 (R100, R101) in a data space of an
admissible width (R5), its windows are ordinary memory (R59), and nobody disturbs it (R68, R70). -/
def Admitted (s : State) (S M : Nat) : Prop :=
  s.cfg.addrW ≤ 32 ∧ undisturbed s.blk = true ∧ Fits s.cfg s.blk.eng.src.toNat S ∧ Fits s.cfg s.blk.eng.dst.toNat M
    ∧ Apart s.blk.eng.src.toNat S s.blk.eng.dst.toNat M
    ∧ OrdinaryMem s.cfg s.blk.eng.src.toNat S ∧ OrdinaryMem s.cfg s.blk.eng.dst.toNat M

/-- No bus error on the S source bytes and the first W destination bytes (R103). -/
def BusQuiet (s : State) (S W : Nat) : Prop :=
  NoBusErr s.cfg s.blk.eng.src.toNat S ∧ NoBusErr s.cfg s.blk.eng.dst.toNat W

/-- From s to t the command of the acting instance completed with these values of RESULT, ERR_INFO and ERRCODE (R104), and
nothing changed but those, ERR, BUSY, DONE, eng.state, data memory and the number of the next free value; the engine keeps no
copy of data memory (R67) and no mark of the command. -/
def CompletedWith (s t : State) (result info : Word) (code : BitVec 4) : Prop :=
  t = { s with
    mem := t.mem, draw := t.draw
    blk := { s.blk with
      result := result, errInfo := info, errCode := code, err := decide (code ≠ 0#4), busy := false, done := true
      eng := { s.blk.eng with state := .idle, startMem := [], hazard := false, windowHazard := false, foul := [] } } }

/-- `finish(result)` (R15, R104). -/
def Finished (s t : State) (result : Nat) : Prop :=
  result < 2 ^ 32 ∧ CompletedWith s t (BitVec.ofNat 32 result) 0#32 0#4

/-- `raise Error(code, info)` (R15, R104, R205). -/
def Failed (s t : State) (code : BitVec 4) (info : Word) : Prop := CompletedWith s t 0xFFFFFFFF#32 info code

end Sys2Proof.Machine
end

