-- ==== Sys2Proof/Certificates/Slice0/Obligations.lean ====
section
/-! DEFINITION. The statements for the provers. -/

open Sys2Proof Sys2Proof.Machine

/-! ## Encoding -/

/-- R78: the nine command words, each 0x8000_0000 | OP, written out, and the command each one starts; the other opcodes of the
map are reserved. -/
def Obligations.OpcodeMapWords : Prop :=
  decodeCmdw 0x80000001#32 = .ok .b64Enc ∧ decodeCmdw 0x80000002#32 = .ok .b64Dec ∧
  decodeCmdw 0x80000003#32 = .ok .b64EncLen ∧ decodeCmdw 0x80000004#32 = .ok .b64DecLen ∧
  decodeCmdw 0x80000005#32 = .ok .pctEncStd ∧ decodeCmdw 0x80000006#32 = .ok .pctEncMin ∧
  decodeCmdw 0x80000007#32 = .ok .pctStrlenStd ∧ decodeCmdw 0x80000008#32 = .ok .pctStrlenMin ∧
  decodeCmdw 0x80000009#32 = .ok .pctDec ∧
  ∀ op : BitVec 4, op = 0x0#4 ∨ 0xA#4 ≤ op → decodeCmdw (0x8000000#28 ++ op) = .error .reservedOpcode

/-- R82, R83 (an inference the spec marks): bytes decode to a command exactly when they are the byte lanes of its word, and a
word decodes to a command exactly when it is that command's word. -/
def Obligations.DecodeIffEncode : Prop :=
  (∀ (bs : List Byte) (i : Instr), decode bs = .ok i ↔ bs = encodeBytes i) ∧
  (∀ (w : Word) (i : Instr), decodeCmdw w = .ok i ↔ w = encode i)

/-- R76, R77, R81, R82: every word that starts no command is rejected under the one name that applies. -/
def Obligations.RejectionNames : Prop :=
  ∀ w : Word,
    (decodeCmdw w = .error .goClear ↔ w.getLsbD 31 = false) ∧
    (decodeCmdw w = .error .reservedBits ↔ w.getLsbD 31 = true ∧ w.extractLsb' 4 27 ≠ 0#27) ∧
    (decodeCmdw w = .error .reservedOpcode ↔
      w.getLsbD 31 = true ∧ w.extractLsb' 4 27 = 0#27 ∧ (w.toNat % 16 = 0 ∨ 10 ≤ w.toNat % 16))

/-! ## The step and the decoded command -/

/-- R95, R102: where the engine of the acting instance is in RUN and moves next, because the schedule says so or because it
is empty, and the word latched in eng.CMDW decodes to i, the step is exec of i with that schedule entry consumed.
The premise on eng.OP is what R97 makes of a latched word (the invariant of StepKeepsInvariant has it). -/
def Obligations.StepRunsDecodedCommand : Prop :=
  ∀ (s : State) (i : Instr), s.blk.eng.state = .run → decodeCmdw s.blk.eng.cmdw = .ok i →
    s.blk.eng.op = s.blk.eng.cmdw.extractLsb' 0 4 →
    (s.sched = [] → step s = exec i s) ∧
    (∀ rest, s.sched = .complete s.blk.regBase :: rest → step s = exec i { s with sched := rest })

/-- R96, R97 (log 3): placing a command word is its accepted GO write, and the very next step runs the command it decodes to. -/
def Obligations.PlacedWordRunsNext : Prop :=
  ∀ (s : State) (w : Word) (i : Instr), decodeCmdw w = .ok i →
    step (s.withFetchWord 32 w.toNat) = exec i (acceptCommand w s)

/-! ## Results of the commands -/

/-- R118 to R122: B64_ENC on any admitted command completes with RESULT = 4 * ceil_div(n, 3); group k is ENC_GROUP of source
bytes 3k to 3k + 2, one or two leftover bytes give ENC_TAIL1 or ENC_TAIL2, then the terminator; no other byte changes. -/
def Obligations.B64EncRegroupsSource : Prop :=
  ∀ s : State, Memory.wf s.mem = true →
    let n := s.blk.eng.len.toNat
    let out := 4 * ((n + 2) / 3)
    let grp := fun (b0 b1 b2 : Byte) => (b0 ++ b1 ++ b2 : BitVec 24)
    Admitted s n (out + 1) → BusQuiet s n (out + 1) →
    ∃ t, exec .b64Enc s = .next t ∧ Finished s t out ∧ OnlyWrote s t (out + 1) ∧ dstByte s t out = 0x00#8 ∧
      (∀ k, k < n / 3 →
        let w := grp (srcByte s (3 * k)) (srcByte s (3 * k + 1)) (srcByte s (3 * k + 2))
        dstByte s t (4 * k) = alphabet (w.extractLsb' 18 6) ∧
        dstByte s t (4 * k + 1) = alphabet (w.extractLsb' 12 6) ∧
        dstByte s t (4 * k + 2) = alphabet (w.extractLsb' 6 6) ∧
        dstByte s t (4 * k + 3) = alphabet (w.extractLsb' 0 6)) ∧
      (n % 3 = 1 →
        let w := grp (srcByte s (3 * (n / 3))) 0x00#8 0x00#8
        dstByte s t (4 * (n / 3)) = alphabet (w.extractLsb' 18 6) ∧
        dstByte s t (4 * (n / 3) + 1) = alphabet (w.extractLsb' 12 6) ∧
        dstByte s t (4 * (n / 3) + 2) = 0x2E#8 ∧ dstByte s t (4 * (n / 3) + 3) = 0x2E#8) ∧
      (n % 3 = 2 →
        let w := grp (srcByte s (3 * (n / 3))) (srcByte s (3 * (n / 3) + 1)) 0x00#8
        dstByte s t (4 * (n / 3)) = alphabet (w.extractLsb' 18 6) ∧
        dstByte s t (4 * (n / 3) + 1) = alphabet (w.extractLsb' 12 6) ∧
        dstByte s t (4 * (n / 3) + 2) = alphabet (w.extractLsb' 6 6) ∧
        dstByte s t (4 * (n / 3) + 3) = 0x2E#8)

/-- R123: B64_ENC_LEN, CMDW 0x8000_0003, completes with 4 * ceil_div(n, 3) + 1, or with RANGE exactly for n >= 3_221_225_470 (a threshold
the spec marks as an inference); data memory is untouched, whatever SRC and DST are. -/
def Obligations.B64EncLenValue : Prop :=
  encode .b64EncLen = 0x80000003#32 ∧
  ∀ s : State, undisturbed s.blk = true →
    let n := s.blk.eng.len.toNat
    ∃ t, exec .b64EncLen s = .next t ∧ t.mem = s.mem ∧
      (n < 3221225470 → Finished s t (4 * ((n + 2) / 3) + 1)) ∧
      (3221225470 ≤ n → Failed s t 3#4 0#32)

/-- R144 (90_conflicts.md C1): B64_DEC_LEN, CMDW 0x8000_0004, completes with (3 n) div 4 + 2 for every n, which
fits 32 bits (an inference the spec marks); data memory is untouched. -/
def Obligations.B64DecLenValue : Prop :=
  encode .b64DecLen = 0x80000004#32 ∧
  ∀ s : State, undisturbed s.blk = true →
    ∃ t, exec .b64DecLen s = .next t ∧ t.mem = s.mem ∧ Finished s t (3 * s.blk.eng.len.toNat / 4 + 2)

/-- The number p of pad characters of R139, on the source elements. -/
def Sys2Proof.Machine.padOf (src : Nat → Byte) (n : Nat) : Nat :=
  if 0 < n ∧ n % 4 = 0 ∧ src (n - 1) = 0x2E#8 then (if src (n - 2) = 0x2E#8 then 2 else 1) else 0

/-- R137 to R142: B64_DEC on a source whose data part is valid and leaves no lone character: RESULT, every output byte, the
terminator, and no other byte. -/
def Obligations.B64DecRegroupsSource : Prop :=
  ∀ s : State, Memory.wf s.mem = true →
    let n := s.blk.eng.len.toNat
    let L := n - padOf (srcByte s) n
    let out := 3 * (L / 4) + (L % 4 - 1)
    let val := fun k => (rev (srcByte s k)).getD 0#6
    Admitted s n (3 * n / 4 + 1) → BusQuiet s n (out + 1) →
    (∀ k, k < L → rev (srcByte s k) ≠ none) → L % 4 ≠ 1 →
    ∃ t, exec .b64Dec s = .next t ∧ Finished s t out ∧ OnlyWrote s t (out + 1) ∧ dstByte s t out = 0x00#8 ∧
      (∀ m, m < L / 4 →
        let v := (val (4 * m) ++ val (4 * m + 1) ++ val (4 * m + 2) ++ val (4 * m + 3) : BitVec 24)
        dstByte s t (3 * m) = v.extractLsb' 16 8 ∧ dstByte s t (3 * m + 1) = v.extractLsb' 8 8 ∧
        dstByte s t (3 * m + 2) = v.extractLsb' 0 8) ∧
      (L % 4 = 2 →
        let v := (val (4 * (L / 4)) ++ val (4 * (L / 4) + 1) ++ 0#12 : BitVec 24)
        dstByte s t (3 * (L / 4)) = v.extractLsb' 16 8) ∧
      (L % 4 = 3 →
        let v := (val (4 * (L / 4)) ++ val (4 * (L / 4) + 1) ++ val (4 * (L / 4) + 2) ++ 0#6 : BitVec 24)
        dstByte s t (3 * (L / 4)) = v.extractLsb' 16 8 ∧ dstByte s t (3 * (L / 4) + 1) = v.extractLsb' 8 8)

/-- R140, R206, R106: B64_DEC on a source with an invalid byte in its data part reports the least offset of one, and on a
valid data part with a lone leftover its offset L - 1; only bytes of the write window may change.
The write window is free of bus errors here: log 16. -/
def Obligations.B64DecReportsInvalidInput : Prop :=
  ∀ (s : State) (k : Nat), Memory.wf s.mem = true →
    let n := s.blk.eng.len.toNat
    let L := n - padOf (srcByte s) n
    Admitted s n (3 * n / 4 + 1) → BusQuiet s n (3 * n / 4 + 1) →
    ((k < L ∧ rev (srcByte s k) = none ∧ ∀ i, i < k → rev (srcByte s i) ≠ none) ∨
      ((∀ i, i < L → rev (srcByte s i) ≠ none) ∧ L % 4 = 1 ∧ k = L - 1)) →
    ∃ t, exec .b64Dec s = .next t ∧ Failed s t 1#4 (BitVec.ofNat 32 k) ∧ OnlyWrote s t (3 * n / 4 + 1)

/-- HEXU of R164 in numbers: `0` to `9`, then the uppercase `A` to `F`. -/
def Sys2Proof.Machine.hexuCode (v : Nat) : Nat := if v ≤ 9 then 0x30 + v else 0x41 + (v - 10)

/-- The destination cursor of the percent encoders after k source bytes (R166), and the count c of R168. -/
def Sys2Proof.Machine.pctCursor (table : BitVec 256) (src : Nat → Byte) : Nat → Nat
  | 0 => 0
  | k + 1 => pctCursor table src k + if table.getLsbD (src k).toNat then 1 else 3

/-- R166, R167, R161: PCT_ENC_STD with SAFE_STD_T and PCT_ENC_MIN with SAFE_MIN_T, for every table: a safe byte passes
through, any other becomes `%` and the uppercase hex digits of its high and its low nibble (R164, R165), then the
terminator; no other byte changes. -/
def Obligations.PctEncEscapesUnsafeBytes : Prop :=
  ∀ (s : State) (i : Instr) (T : BitVec 256), Memory.wf s.mem = true →
    (i = .pctEncStd ∧ T = s.cfg.safeStd ∨ i = .pctEncMin ∧ T = s.cfg.safeMin) →
    let n := s.blk.eng.len.toNat
    let pos := pctCursor T (srcByte s)
    Admitted s n (3 * n + 1) → BusQuiet s n (pos n + 1) →
    ∃ t, exec i s = .next t ∧ Finished s t (pos n) ∧ OnlyWrote s t (pos n + 1) ∧ dstByte s t (pos n) = 0x00#8 ∧
      ∀ k, k < n →
        (T.getLsbD (srcByte s k).toNat = true → dstByte s t (pos k) = srcByte s k) ∧
        (T.getLsbD (srcByte s k).toNat = false →
          dstByte s t (pos k) = 0x25#8 ∧
          (dstByte s t (pos k + 1)).toNat = hexuCode ((srcByte s k).toNat / 16) ∧
          (dstByte s t (pos k + 2)).toNat = hexuCode ((srcByte s k).toNat % 16))

/-- R168, R169, R161: PCT_STRLEN_STD and PCT_STRLEN_MIN, for every table: RESULT is the count, or RANGE where it does not fit
32 bits; no data byte changes, and DST and the write window play no part. -/
def Obligations.PctStrlenCounts : Prop :=
  ∀ (s : State) (i : Instr) (T : BitVec 256),
    (i = .pctStrlenStd ∧ T = s.cfg.safeStd ∨ i = .pctStrlenMin ∧ T = s.cfg.safeMin) →
    let n := s.blk.eng.len.toNat
    let count := pctCursor T (srcByte s) n
    undisturbed s.blk = true → Fits s.cfg s.blk.eng.src.toNat n → OrdinaryMem s.cfg s.blk.eng.src.toNat n →
    NoBusErr s.cfg s.blk.eng.src.toNat n →
    ∃ t, exec i s = .next t ∧ t.mem = s.mem ∧
      (count ≤ 2 ^ 32 - 1 → Finished s t count) ∧ (2 ^ 32 - 1 < count → Failed s t 3#4 0#32)

/-- One iteration of R187 at source offset i: the byte emitted and the offset after it. -/
def Sys2Proof.Machine.pctDecIter (src : Nat → Byte) (n i : Nat) : Byte × Nat :=
  if src i = 0x2B#8 then (0x20#8, i + 1)
  else if src i = 0x25#8 ∧ i + 2 < n then
    match hexPair (src (i + 1)) (src (i + 2)) with
    | some r => (r, i + 3)
    | none => (0x25#8, i + 1)
  else (src i, i + 1)

/-- The source offset after j iterations of R187. -/
def Sys2Proof.Machine.pctDecCursor (src : Nat → Byte) (n : Nat) : Nat → Nat
  | 0 => 0
  | j + 1 => (pctDecIter src n (pctDecCursor src n j)).2

/-- R187 to R190: PCT_DEC on any admitted command: its loop ends after some number out <= n of iterations (R190's bound, an
inference the spec marks), output byte j is what iteration j emits, then the terminator; RESULT = out; no other byte
changes; it never fails because of its input. -/
def Obligations.PctDecRunsItsLoop : Prop :=
  ∀ s : State, Memory.wf s.mem = true →
    let n := s.blk.eng.len.toNat
    let cur := pctDecCursor (srcByte s) n
    Admitted s n (n + 1) →
    ∃ out, out ≤ n ∧ cur out = n ∧ (∀ j, j < out → cur j < n) ∧
      (BusQuiet s n (out + 1) →
        ∃ t, exec .pctDec s = .next t ∧ Finished s t out ∧ OnlyWrote s t (out + 1) ∧ dstByte s t out = 0x00#8 ∧
          ∀ j, j < out → dstByte s t j = (pctDecIter (srcByte s) n (cur j)).1)

/-! ## Errors -/

/-- R98: the table of MaxWrite, and the write window it gives a started command; and which commands read a source (R79, R100):
what the error statements mean. That every illegal word, one with RSV not 0 and an assigned OP among them, has an empty
write window is the model's reading (log 15). -/
def Obligations.WindowSizes : Prop :=
  ∀ n : Nat,
    maxWrite .b64Enc n = 4 * ((n + 2) / 3) + 1 ∧ maxWrite .b64Dec n = 3 * n / 4 + 1 ∧
    maxWrite .pctEncStd n = 3 * n + 1 ∧ maxWrite .pctEncMin n = 3 * n + 1 ∧ maxWrite .pctDec n = n + 1 ∧
    maxWrite .b64EncLen n = 0 ∧ maxWrite .b64DecLen n = 0 ∧ maxWrite .pctStrlenStd n = 0 ∧ maxWrite .pctStrlenMin n = 0 ∧
    sourceSize .b64EncLen n = 0 ∧ sourceSize .b64DecLen n = 0 ∧
    (∀ i : Instr, i ≠ .b64EncLen → i ≠ .b64DecLen → sourceSize i n = n) ∧
    (∀ b : Block, latchedInstr b.eng = none → (blockWindow b).2 = 0) ∧
    (∀ (b : Block) (i : Instr), latchedInstr b.eng = some i →
      blockWindow b = (b.eng.dst.toNat, maxWrite i b.eng.len.toNat))

/-- R100, R61, R208, R106: a source or write window past the top of the data space fails the command with RANGE, whatever else
is wrong with it, unless the host broke its duty against it (R68); no byte changes, but those that R70 leaves unspecified
(log 10). -/
def Obligations.RangeCheckFails : Prop :=
  ∀ (i : Instr) (s : State), s.blk.eng.hazard = false → s.blk.eng.windowHazard = false →
    let S := sourceSize i s.blk.eng.len.toNat
    let M := maxWrite i s.blk.eng.len.toNat
    (0 < S ∧ 2 ^ s.cfg.addrW < s.blk.eng.src.toNat + S ∨ 0 < M ∧ 2 ^ s.cfg.addrW < s.blk.eng.dst.toNat + M) →
    ∃ t, exec i s = .next t ∧ Failed s t 3#4 0#32 ∧ (s.blk.eng.foul = [] → t.mem = s.mem) ∧
      (Memory.wf s.mem = true → ∀ a, s.blk.eng.foul.any (inRange a) = false → memRead t.mem a = memRead s.mem a)

/-- R101, R209, R106: a command that passes check 2, both reads a source and writes a destination, and whose windows meet,
fails with OVERLAP, unless the host broke its duty against it (R68); no byte changes, but those that R70 leaves unspecified
(log 10). -/
def Obligations.OverlapCheckFails : Prop :=
  ∀ (i : Instr) (s : State), s.blk.eng.hazard = false → s.blk.eng.windowHazard = false →
    let e := s.blk.eng
    let S := sourceSize i e.len.toNat
    let M := maxWrite i e.len.toNat
    Fits s.cfg e.src.toNat S → Fits s.cfg e.dst.toNat M →
    0 < S → 0 < M → e.src.toNat < e.dst.toNat + M → e.dst.toNat < e.src.toNat + S →
    ∃ t, exec i s = .next t ∧ Failed s t 4#4 0#32 ∧ (s.blk.eng.foul = [] → t.mem = s.mem) ∧
      (Memory.wf s.mem = true → ∀ a, s.blk.eng.foul.any (inRange a) = false → memRead t.mem a = memRead s.mem a)

/-- R103, R210, R212: a bus error on a source byte of an admitted command replaces the outcome of the transform by BUS for
every command but B64_DEC, and for B64_DEC too where its data part is valid; ERR_INFO is any value, no byte outside the write
window changes. -/
def Obligations.BusErrorReplacesOutcome : Prop :=
  ∀ (i : Instr) (s : State) (k : Nat), Memory.wf s.mem = true →
    let n := s.blk.eng.len.toNat
    let L := n - padOf (srcByte s) n
    Admitted s (sourceSize i n) (maxWrite i n) →
    k < sourceSize i n → busErrAt s.cfg (s.blk.eng.src.toNat + k) = true →
    (i = .b64Dec → (∀ j, j < L → rev (srcByte s j) ≠ none) ∧ L % 4 ≠ 1) →
    ∃ t info, exec i s = .next t ∧ Failed s t 5#4 info ∧ OnlyWrote s t (maxWrite i n)

/-- R103, R210: where the same command without bus errors succeeds, a bus error on a destination byte it would write, the
terminator included, replaces the success by BUS. -/
def Obligations.BusErrorOnDestinationReplacesOutcome : Prop :=
  ∀ (i : Instr) (s t₀ : State) (k : Nat), Memory.wf s.mem = true → s.cfg.addrW ≤ 32 → undisturbed s.blk = true →
    0 < maxWrite i 0 → exec i { s with cfg := { s.cfg with busErr := [] } } = .next t₀ → t₀.blk.err = false →
    k ≤ t₀.blk.result.toNat → busErrAt s.cfg (s.blk.eng.dst.toNat + k) = true →
    ∃ t info, exec i s = .next t ∧ Failed s t 5#4 info ∧ OnlyWrote s t (maxWrite i s.blk.eng.len.toNat)

/-- R103, U8: on B64_DEC an INVALID_INPUT outcome, of an invalid byte or of a lone leftover character, against a bus error is a
draw between BUS and INVALID_INPUT with the offset of R140. The bus error is on a source byte, or on a byte of the write
window (the latter is the model's reading, log 16). -/
def Obligations.BusAgainstInvalidIsADraw : Prop :=
  ∀ (s : State) (k j : Nat), Memory.wf s.mem = true →
    let n := s.blk.eng.len.toNat
    let L := n - padOf (srcByte s) n
    Admitted s n (3 * n / 4 + 1) →
    (k < n ∧ busErrAt s.cfg (s.blk.eng.src.toNat + k) = true ∨
      k < 3 * n / 4 + 1 ∧ busErrAt s.cfg (s.blk.eng.dst.toNat + k) = true) →
    ((j < L ∧ rev (srcByte s j) = none ∧ ∀ i, i < j → rev (srcByte s i) ≠ none) ∨
      ((∀ i, i < L → rev (srcByte s i) ≠ none) ∧ L % 4 = 1 ∧ j = L - 1)) →
    ∃ t, exec .b64Dec s = .next t ∧ OnlyWrote s t (3 * n / 4 + 1) ∧
      (Failed s t 1#4 (BitVec.ofNat 32 j) ∨ ∃ info, Failed s t 5#4 info)

/-- R99, R207, R81: where the engine moves next and the word it latched is illegal (RSV not 0, or OP none of 0x1 to 0x9), the step
records BADCMD with ERR_INFO 0, whatever the windows are; no data byte changes, and CMD keeps its OP. -/
def Obligations.IllegalWordCompletesWithBadCmd : Prop :=
  ∀ s : State, s.blk.eng.state = .run → undisturbed s.blk = true →
    (s.blk.eng.cmdw.extractLsb' 4 27 ≠ 0#27 ∨ s.blk.eng.op.toNat = 0 ∨ 10 ≤ s.blk.eng.op.toNat) →
    (s.sched = [] ∨ ∃ rest, s.sched = .complete s.blk.regBase :: rest) →
    ∃ t, step s = .next t ∧ Failed { s with sched := t.sched } t 2#4 0#32 ∧ t.mem = s.mem

/-- R205, R206, R35: of a command nobody disturbs: INVALID_INPUT only from B64_DEC; RANGE only where one of its own windows
passes the top of the data space, or from B64_ENC_LEN and the STRLEN commands with a length whose value can pass 32 bits
(so never from B64_DEC_LEN); OVERLAP only from a command that reads and writes, whose windows meet; BUS only where an
address of its own source or write window answers with an error (so never from the two length commands), no other code but
success; ERR_INFO is 0 but after INVALID_INPUT and BUS; RESULT is 0xFFFF_FFFF after any of them.
The lengths of RANGE are inferences the spec marks. -/
def Obligations.ErrorCodesAndRaisers : Prop :=
  ∀ (i : Instr) (s t : State), undisturbed s.blk = true → exec i s = .next t →
    let e := s.blk.eng
    let S := sourceSize i e.len.toNat
    let M := maxWrite i e.len.toNat
    (t.blk.errCode = 0#4 ∨
      t.blk.errCode = 1#4 ∧ i = .b64Dec ∨
      t.blk.errCode = 3#4 ∧
        (0 < S ∧ 2 ^ s.cfg.addrW < e.src.toNat + S ∨ 0 < M ∧ 2 ^ s.cfg.addrW < e.dst.toNat + M ∨
          i = .b64EncLen ∧ 3221225470 ≤ e.len.toNat ∨
          (i = .pctStrlenStd ∨ i = .pctStrlenMin) ∧ 1431655765 < e.len.toNat) ∨
      t.blk.errCode = 4#4 ∧ 0 < S ∧ 0 < M ∧ e.src.toNat < e.dst.toNat + M ∧ e.dst.toNat < e.src.toNat + S ∨
      t.blk.errCode = 5#4 ∧
        ∃ k, k < S ∧ busErrAt s.cfg (e.src.toNat + k) = true ∨ k < M ∧ busErrAt s.cfg (e.dst.toNat + k) = true) ∧
    (t.blk.errCode ≠ 1#4 → t.blk.errCode ≠ 5#4 → t.blk.errInfo = 0#32) ∧
    (t.blk.err = true ↔ t.blk.errCode ≠ 0#4) ∧ (t.blk.err = true → t.blk.result = 0xFFFFFFFF#32)

/-- R59, U12 (log 11 makes the regions a parameter): a command that passes its checks and has a window byte on memory that is
not ordinary has no meaning, and is refused by name. -/
def Obligations.DeviceWindowRefused : Prop :=
  ∀ (i : Instr) (s : State) (k : Nat),
    let e := s.blk.eng
    let S := sourceSize i e.len.toNat
    let M := maxWrite i e.len.toNat
    Fits s.cfg e.src.toNat S → Fits s.cfg e.dst.toNat M → Apart e.src.toNat S e.dst.toNat M →
    (k < S ∧ s.cfg.device.any (inRange (e.src.toNat + k)) = true ∨
      k < M ∧ s.cfg.device.any (inRange (e.dst.toNat + k)) = true) →
    exec i s = .refused .notOrdinaryMemory

/-! ## Frames -/

/-- R51, R104, R106, R223: what every one of the nine commands leaves unchanged, however it ends: CTRL, CMD, OVR, the operand
registers, the latched operands, REG_BASE, every other instance, the parameters, the schedule, and every byte outside the
write window, whose address is eng.DST and whose size is MaxWrite of R98 (and outside the ranges that R70 leaves
unspecified). The write window of the length and STRLEN commands is empty. -/
def Obligations.CommandFrame : Prop :=
  ∀ (i : Instr) (s t : State), Memory.wf s.mem = true → exec i s = .next t →
    t.blk.ie = s.blk.ie ∧ t.blk.cmdOp = s.blk.cmdOp ∧ t.blk.ovr = s.blk.ovr ∧ t.blk.srcAddr = s.blk.srcAddr ∧
    t.blk.dstAddr = s.blk.dstAddr ∧ t.blk.srcLen = s.blk.srcLen ∧ t.blk.regBase = s.blk.regBase ∧
    t.blk.eng.cmdw = s.blk.eng.cmdw ∧ t.blk.eng.op = s.blk.eng.op ∧ t.blk.eng.src = s.blk.eng.src ∧
    t.blk.eng.dst = s.blk.eng.dst ∧ t.blk.eng.len = s.blk.eng.len ∧
    t.peers = s.peers ∧ t.cfg = s.cfg ∧ t.sched = s.sched ∧ t.regData = s.regData ∧ t.memData = s.memData ∧
    (∀ a, (a < s.blk.eng.dst.toNat ∨ s.blk.eng.dst.toNat + maxWrite i s.blk.eng.len.toNat ≤ a) →
      (∀ r ∈ s.blk.eng.foul, inRange a r = false) → memRead t.mem a = memRead s.mem a)

/-- R105 (its bound an inference the spec marks): a writing command that nobody disturbs and that succeeds writes exactly the
bytes eng.DST to eng.DST + RESULT, the last of them 0x00, within its write window. -/
def Obligations.SuccessWritesOutputAndTerminator : Prop :=
  ∀ (i : Instr) (s t : State), Memory.wf s.mem = true → s.cfg.addrW ≤ 32 → undisturbed s.blk = true →
    0 < maxWrite i 0 → exec i s = .next t → t.blk.err = false →
    t.blk.result.toNat + 1 ≤ maxWrite i s.blk.eng.len.toNat ∧ OnlyWrote s t (t.blk.result.toNat + 1) ∧
    dstByte s t t.blk.result.toNat = 0x00#8

/-- R67, R102 (an inference the spec marks): two commands with the same operands, source bytes and parameters end alike, whatever
the registers, the rest of memory and the history: same RESULT, ERRCODE and ERR_INFO, same destination bytes. The number of
the next free value is the same in both, so the draws are. -/
def Obligations.OutcomeDependsOnOperandsOnly : Prop :=
  ∀ (i : Instr) (s u t : State), Memory.wf s.mem = true → Memory.wf u.mem = true →
    undisturbed s.blk = true → undisturbed u.blk = true → s.cfg = u.cfg → s.draw = u.draw →
    s.blk.eng.src = u.blk.eng.src → s.blk.eng.dst = u.blk.eng.dst → s.blk.eng.len = u.blk.eng.len →
    (∀ k, k < sourceSize i s.blk.eng.len.toNat → srcByte s k = srcByte u k) →
    exec i s = .next t →
    ∃ v, exec i u = .next v ∧ v.blk.result = t.blk.result ∧ v.blk.errCode = t.blk.errCode ∧
      v.blk.errInfo = t.blk.errInfo ∧
      (t.blk.err = false → 0 < maxWrite i 0 → ∀ k, k ≤ t.blk.result.toNat → dstByte u v k = dstByte s t k)

/-! ## Round trips and lengths -/

/-- R146 (an inference the spec marks): B64_DEC of what B64_ENC wrote gives the source bytes back, with RESULT = the source
length: u is any state whose command started on B64_ENC's memory and in which B64_DEC of that output is admitted. -/
def Obligations.B64RoundTrip : Prop :=
  ∀ s t u : State, Memory.wf s.mem = true →
    let n := s.blk.eng.len.toNat
    let out := 4 * ((n + 2) / 3)
    Admitted s n (out + 1) → BusQuiet s n (out + 1) → exec .b64Enc s = .next t →
    Memory.wf u.mem = true → u.blk.eng.startMem = t.mem → u.blk.eng.src = s.blk.eng.dst → u.blk.eng.len = BitVec.ofNat 32 out →
    Admitted u out (3 * out / 4 + 1) → BusQuiet u out (n + 1) →
    ∃ v, exec .b64Dec u = .next v ∧ Finished u v n ∧ ∀ k, k < n → dstByte u v k = srcByte s k

/-- R191 (an inference the spec marks): PCT_DEC of what either percent encoder wrote gives the source bytes back, for every
admissible choice of the safe sets (R6). -/
def Obligations.PctRoundTrip : Prop :=
  ∀ (i : Instr) (s t u : State), Memory.wf s.mem = true → s.cfg.wf = true → i = .pctEncStd ∨ i = .pctEncMin →
    let n := s.blk.eng.len.toNat
    let out := t.blk.result.toNat
    Admitted s n (3 * n + 1) → exec i s = .next t → t.blk.err = false →
    Memory.wf u.mem = true → u.blk.eng.startMem = t.mem → u.blk.eng.src = s.blk.eng.dst → u.blk.eng.len = BitVec.ofNat 32 out →
    Admitted u out (out + 1) → BusQuiet u out (n + 1) →
    ∃ v, exec .pctDec u = .next v ∧ Finished u v n ∧ ∀ k, k < n → dstByte u v k = srcByte s k

/-- R170 (an inference the spec marks): PCT_STRLEN of a source and PCT_ENC of the same variant on it give the same RESULT, and
the encoder's output holds no 0x00 before its terminator, for every admissible choice of the safe sets (R6). -/
def Obligations.PctLengthIsExact : Prop :=
  ∀ (i l : Instr) (s t v : State), Memory.wf s.mem = true → s.cfg.wf = true →
    (i = .pctEncStd ∧ l = .pctStrlenStd ∨ i = .pctEncMin ∧ l = .pctStrlenMin) → undisturbed s.blk = true →
    exec i s = .next t → t.blk.err = false → exec l s = .next v →
    v.blk.result = t.blk.result ∧ v.blk.err = false ∧
    ∀ k, k < t.blk.result.toNat → dstByte s t k ≠ 0x00#8

/-! ## Tables -/

/-- R115, R116: the entries of ALPHABET in index order, by the closed form of R115; ALPHABET is injective, its entries are
exactly the 64 bytes of R115, and none is the padding byte or 0x00. -/
def Obligations.AlphabetIsInjective : Prop :=
  (∀ v : BitVec 6,
    (v.toNat ≤ 25 → (alphabet v).toNat = 0x41 + v.toNat) ∧
    (26 ≤ v.toNat ∧ v.toNat ≤ 51 → (alphabet v).toNat = 0x61 + (v.toNat - 26)) ∧
    (52 ≤ v.toNat ∧ v.toNat ≤ 61 → (alphabet v).toNat = 0x30 + (v.toNat - 52)) ∧
    (v.toNat = 62 → (alphabet v).toNat = 0x2D) ∧ (v.toNat = 63 → (alphabet v).toNat = 0x5F)) ∧
  (∀ v w : BitVec 6, alphabet v = alphabet w → v = w) ∧
  (∀ c : Byte, (∃ v, alphabet v = c) ↔
    0x41#8 ≤ c ∧ c ≤ 0x5A#8 ∨ 0x61#8 ≤ c ∧ c ≤ 0x7A#8 ∨ 0x30#8 ≤ c ∧ c ≤ 0x39#8 ∨ c = 0x2D#8 ∨ c = 0x5F#8) ∧
  ∀ v : BitVec 6, alphabet v ≠ 0x2E#8 ∧ alphabet v ≠ 0x00#8

/-- R135, R136 (an inference the spec marks): the values of REV by the ranges of R135, none for every other byte; REV is the
exact inverse of ALPHABET. -/
def Obligations.RevInvertsAlphabet : Prop :=
  (∀ c : Byte,
    (rev c).map BitVec.toNat =
      if 0x41 ≤ c.toNat ∧ c.toNat ≤ 0x5A then some (c.toNat - 0x41)
      else if 0x61 ≤ c.toNat ∧ c.toNat ≤ 0x7A then some (c.toNat - 0x61 + 26)
      else if 0x30 ≤ c.toNat ∧ c.toNat ≤ 0x39 then some (c.toNat - 0x30 + 52)
      else if c.toNat = 0x2D then some 62
      else if c.toNat = 0x5F then some 63
      else none) ∧
  (∀ v : BitVec 6, rev (alphabet v) = some v) ∧ (∀ (c : Byte) (v : BitVec 6), rev c = some v → alphabet v = c) ∧
  rev 0x2E#8 = none

/-- R164, R165: HEXU is `0` to `9` (0x30 to 0x39), then the uppercase `A` to `F` (0x41 to 0x46); HEX_HI is the digit of the high
nibble and HEX_LO that of the low one. -/
def Obligations.HexTablesAreUppercase : Prop :=
  (∀ v : BitVec 4, (v.toNat ≤ 9 → (hexDigit v).toNat = 0x30 + v.toNat) ∧
    (10 ≤ v.toNat → (hexDigit v).toNat = 0x41 + (v.toNat - 10))) ∧
  ∀ b : Byte, (hexHi b).toNat = hexuCode (b.toNat / 16) ∧ (hexLo b).toNat = hexuCode (b.toNat % 16)

/-- The value of a hex digit by the ranges of R185, none for every other byte. -/
def Sys2Proof.Machine.hexValue (c : Byte) : Option Nat :=
  if 0x30 ≤ c.toNat ∧ c.toNat ≤ 0x39 then some (c.toNat - 0x30)
  else if 0x41 ≤ c.toNat ∧ c.toNat ≤ 0x46 then some (c.toNat - 0x41 + 10)
  else if 0x61 ≤ c.toNat ∧ c.toNat ≤ 0x66 then some (c.toNat - 0x61 + 10)
  else none

/-- R186 (an inference the spec marks): HEXPAIR accepts exactly two valid hex digits, and gives 16 * high + low. -/
def Obligations.HexPairAcceptsTwoDigits : Prop :=
  ∀ h l : Byte,
    hexPair h l =
      match hexValue h, hexValue l with
      | some x, some y => some (BitVec.ofNat 8 (16 * x + y))
      | _, _ => none

/-! ## Registers -/

/-- R22, R23, R37, R56: what a register read returns, for every offset of the window and every access width: the register map,
0 at reserved and unaligned offsets and for any width but 32 bits. A read changes no register and no data byte. -/
def Obligations.RegisterReadMap : Prop :=
  ∀ (s : State) (offset width : Nat) (rest : List Event), offset < 0x40 →
    s.sched = .regRead (s.blk.regBase + offset) width :: rest →
    ∃ v, step s = .next { s with sched := rest, regData := v } ∧
      (width = 4 →
        (offset = 0x00 → v = 0x53450001#32) ∧
        (offset = 0x04 → v.toNat = if s.blk.ie then 1 else 0) ∧
        (offset = 0x08 → v.toNat = s.blk.cmdOp.toNat) ∧
        (offset = 0x0C → v = statusWord s.blk) ∧
        (offset = 0x10 → v = s.blk.srcAddr) ∧ (offset = 0x14 → v = s.blk.dstAddr) ∧
        (offset = 0x18 → v = s.blk.srcLen) ∧ (offset = 0x1C → v = s.blk.result) ∧
        (offset = 0x20 → v = s.blk.errInfo)) ∧
      (width ≠ 4 ∨ offset % 4 ≠ 0 ∨ 0x24 ≤ offset → v = 0#32)

/-- R23, R34, R35, R37, R56: a write to ID, RESULT, ERR_INFO or a reserved offset, an unaligned one, or one of another width
than 32 bits changes nothing and starts nothing. -/
def Obligations.IgnoredRegisterWrites : Prop :=
  ∀ (s : State) (offset width : Nat) (v : Word) (rest : List Event), offset < 0x40 →
    s.sched = .regWrite (s.blk.regBase + offset) width v :: rest →
    (width ≠ 4 ∨ offset % 4 ≠ 0 ∨ offset = 0x00 ∨ 0x1C ≤ offset) →
    step s = .next { s with sched := rest }

/-- R56: a register access of another width than 32 bits, or at an offset that is not a multiple of 4, behaves as one to
reserved space: a read returns 0, a write changes nothing. -/
def Obligations.NarrowAccessIsReserved : Prop :=
  ∀ (s : State) (offset width : Nat) (v : Word) (rest : List Event), offset < 0x40 → width ≠ 4 ∨ offset % 4 ≠ 0 →
    (s.sched = .regRead (s.blk.regBase + offset) width :: rest → step s = .next { s with sched := rest, regData := 0#32 }) ∧
    (s.sched = .regWrite (s.blk.regBase + offset) width v :: rest → step s = .next { s with sched := rest })

/-- R31, R32, R33: an operand register write takes effect whether or not a command runs, keeps only bits [ADDR_W-1:0] of an
address, which read back, and leaves the latched operands and everything else alone; all three reset to 0. -/
def Obligations.OperandRegisterWrites : Prop :=
  State.reset.blk.srcAddr = 0#32 ∧ State.reset.blk.dstAddr = 0#32 ∧ State.reset.blk.srcLen = 0#32 ∧
  ∀ (s : State) (v : Word) (rest : List Event), s.cfg.addrW ≤ 32 →
    (s.sched = .regWrite (s.blk.regBase + 0x10) 4 v :: rest →
      ∃ x, step s = .next { s with sched := rest, blk := { s.blk with srcAddr := x } } ∧
        x.toNat = v.toNat % 2 ^ s.cfg.addrW ∧ readReg { s.blk with srcAddr := x } 0x10 4 = x) ∧
    (s.sched = .regWrite (s.blk.regBase + 0x14) 4 v :: rest →
      ∃ x, step s = .next { s with sched := rest, blk := { s.blk with dstAddr := x } } ∧
        x.toNat = v.toNat % 2 ^ s.cfg.addrW ∧ readReg { s.blk with dstAddr := x } 0x14 4 = x) ∧
    (s.sched = .regWrite (s.blk.regBase + 0x18) 4 v :: rest →
      step s = .next { s with sched := rest, blk := { s.blk with srcLen := v } } ∧
        readReg { s.blk with srcLen := v } 0x18 4 = v)

/-- R24: CTRL has the one field IE, bit 0, reset 0, which gates irq; a write takes effect whether or not a command runs; the other bits read 0
and ignore writes. -/
def Obligations.CtrlHoldsInterruptEnable : Prop :=
  State.reset.blk.ie = false ∧ (∀ b : Block, b.ie = false → irq b = false) ∧
  ∀ (s : State) (v : Word) (rest : List Event),
    s.sched = .regWrite (s.blk.regBase + 0x04) 4 v :: rest →
    ∃ t, step s = .next t ∧ t = { s with sched := rest, blk := { s.blk with ie := v.getLsbD 0 } } ∧
      (readReg t.blk 0x04 4).toNat = v.toNat % 2

/-- R26: the fields of STATUS as read, all 0 at reset, and a write: bit 1 clears DONE, bit 3 clears OVR, every other bit is
ignored. -/
def Obligations.StatusFieldsAndWriteOneToClear : Prop :=
  readReg State.reset.blk 0x0C 4 = 0#32 ∧
  (∀ b : Block,
    (readReg b 0x0C 4).getLsbD 0 = b.busy ∧ (readReg b 0x0C 4).getLsbD 1 = b.done ∧
    (readReg b 0x0C 4).getLsbD 2 = b.err ∧ (readReg b 0x0C 4).getLsbD 3 = b.ovr ∧
    (readReg b 0x0C 4).extractLsb' 4 4 = b.errCode ∧ (readReg b 0x0C 4).extractLsb' 8 24 = 0#24) ∧
  ∀ (s : State) (v : Word) (rest : List Event),
    s.sched = .regWrite (s.blk.regBase + 0x0C) 4 v :: rest →
    step s = .next
      { s with
        sched := rest
        blk := { s.blk with
          done := if v.getLsbD 1 then false else s.blk.done, ovr := if v.getLsbD 3 then false else s.blk.ovr } }

/-- R76: a CMD write with GO = 0 starts nothing: it stores OP while BUSY = 0 and is ignored while BUSY = 1. -/
def Obligations.GoClearOnlyStoresOp : Prop :=
  ∀ (s : State) (v : Word) (rest : List Event), v.getLsbD 31 = false →
    s.sched = .regWrite (s.blk.regBase + 0x08) 4 v :: rest →
    (s.blk.busy = false → step s = .next { s with sched := rest, blk := { s.blk with cmdOp := v.extractLsb' 0 4 } }) ∧
    (s.blk.busy = true → step s = .next { s with sched := rest })

/-- R30, R96, R211: a GO write while BUSY = 1 sets OVR and is otherwise dropped; with one instance nothing else sets OVR, and
only a STATUS write with bit 3 set and reset clear it. -/
def Obligations.GoWhileBusyIsDropped : Prop :=
  (∀ (s : State) (v : Word) (rest : List Event), v.getLsbD 31 = true → s.blk.busy = true →
    s.sched = .regWrite (s.blk.regBase + 0x08) 4 v :: rest →
    step s = .next { s with sched := rest, blk := { s.blk with ovr := true } }) ∧
  ∀ s t : State, s.peers = [] → step s = .next t → t.blk.ovr ≠ s.blk.ovr →
    ∃ e rest, s.sched = e :: rest ∧
      (t.blk.ovr = true ∧ (∃ v, e = .regWrite (s.blk.regBase + 0x08) 4 v ∧ v.getLsbD 31 = true) ∧ s.blk.busy = true ∨
        t.blk.ovr = false ∧ (e = .reset ∨ ∃ v, e = .regWrite (s.blk.regBase + 0x0C) 4 v ∧ v.getLsbD 3 = true))

/-- R25, R79, R96, R97, R63: a GO write while BUSY = 0 stores OP, latches the word and the operands, clears the completion status
and sets BUSY and RUN in one step; the command reads data memory as it is then; RESULT, ERR_INFO, OVR, CTRL, the operand
registers and data memory keep their values. -/
def Obligations.GoLatchesTheCommand : Prop :=
  ∀ (s : State) (v : Word) (rest : List Event), s.cfg.addrW ≤ 32 → v.getLsbD 31 = true → s.blk.busy = false →
    s.sched = .regWrite (s.blk.regBase + 0x08) 4 v :: rest →
    ∃ t, step s = .next t ∧ t.sched = rest ∧ t.mem = s.mem ∧ t.cfg = s.cfg ∧
      t.blk.cmdOp = v.extractLsb' 0 4 ∧ t.blk.eng.cmdw = v ∧ t.blk.eng.op = v.extractLsb' 0 4 ∧
      t.blk.eng.src.toNat = s.blk.srcAddr.toNat % 2 ^ s.cfg.addrW ∧
      t.blk.eng.dst.toNat = s.blk.dstAddr.toNat % 2 ^ s.cfg.addrW ∧ t.blk.eng.len = s.blk.srcLen ∧
      t.blk.eng.startMem = s.mem ∧
      t.blk.done = false ∧ t.blk.err = false ∧ t.blk.errCode = 0#4 ∧ t.blk.busy = true ∧ t.blk.eng.state = .run ∧
      t.blk.result = s.blk.result ∧ t.blk.errInfo = s.blk.errInfo ∧ t.blk.ovr = s.blk.ovr ∧ t.blk.ie = s.blk.ie ∧
      t.blk.srcAddr = s.blk.srcAddr ∧ t.blk.dstAddr = s.blk.dstAddr ∧ t.blk.srcLen = s.blk.srcLen ∧
      t.blk.regBase = s.blk.regBase ∧ (s.peers = [] → t.peers = [] ∧ undisturbed t.blk = true)

/-- R66, R31: no register write, to any offset and of any width, changes the engine of an instance that is running a command,
or data memory. -/
def Obligations.RegisterWritesLeaveRunningCommand : Prop :=
  ∀ (s : State) (offset width : Nat) (v : Word) (rest : List Event), offset < 0x40 → s.blk.busy = true →
    s.sched = .regWrite (s.blk.regBase + offset) width v :: rest →
    ∃ t, step s = .next t ∧ t.blk.eng = s.blk.eng ∧ t.mem = s.mem ∧ t.blk.busy = true ∧ t.peers = s.peers

/-- R41, R213, R214: irq is DONE and IE; a CTRL write with bit 0 set raises it while DONE = 1 and one with bit 0 clear masks it
without clearing DONE; a STATUS write with bit 1 set lowers it. -/
def Obligations.InterruptFollowsDoneAndEnable : Prop :=
  (∀ b : Block, irq b = true ↔ b.done = true ∧ b.ie = true) ∧
  ∀ (s : State) (v : Word) (rest : List Event),
    (s.sched = .regWrite (s.blk.regBase + 0x04) 4 v :: rest →
      ∃ t, step s = .next t ∧ t.blk.done = s.blk.done ∧ irq t.blk = (s.blk.done && v.getLsbD 0)) ∧
    (s.sched = .regWrite (s.blk.regBase + 0x0C) 4 v :: rest → v.getLsbD 1 = true →
      ∃ t, step s = .next t ∧ t.blk.done = false ∧ irq t.blk = false)

/-- R28, R214: with one instance, only a STATUS write with bit 1 set, an accepted GO write and reset clear DONE. -/
def Obligations.DoneIsClearedOnlyAsStated : Prop :=
  ∀ s t : State, s.peers = [] → s.blk.done = true → step s = .next t → t.blk.done = false →
    ∃ e rest, s.sched = e :: rest ∧
      (e = .reset ∨ (∃ v, e = .regWrite (s.blk.regBase + 0x0C) 4 v ∧ v.getLsbD 1 = true) ∨
        (∃ v, e = .regWrite (s.blk.regBase + 0x08) 4 v ∧ v.getLsbD 31 = true) ∧ s.blk.busy = false)

/-- R34, R35: with one instance, RESULT and ERR_INFO change only at a completion and at reset. -/
def Obligations.ResultsChangeOnlyAtCompletion : Prop :=
  ∀ s t : State, s.peers = [] → step s = .next t →
    (t.blk.result ≠ s.blk.result ∨ t.blk.errInfo ≠ s.blk.errInfo) →
    (s.blk.eng.state = .run ∧ t.blk.eng.state = .idle ∧ t.blk.done = true) ∨ ∃ rest, s.sched = .reset :: rest

/-- R40, R50, R51: data memory changes only at the completion of a running command, by a host write, and at reset. -/
def Obligations.DataMemoryChangesOnlyAsStated : Prop :=
  ∀ s t : State, step s = .next t → t.mem ≠ s.mem →
    (∃ b ∈ allBlocks s, b.eng.state = .run ∧ (s.sched = [] ∨ ∃ rest, s.sched = .complete b.regBase :: rest)) ∨
    (∃ a v rest, s.sched = .memWrite a v :: rest) ∨ ∃ rest, s.sched = .reset :: rest

/-! ## Reset, idling, progress -/

/-- R43: the reset values. -/
def Obligations.ResetValues : Prop :=
  let b := State.reset.blk
  readReg b 0x00 4 = 0x53450001#32 ∧ b.ie = false ∧ b.cmdOp = 0#4 ∧ b.busy = false ∧ b.done = false ∧ b.err = false ∧
  b.ovr = false ∧ b.errCode = 0#4 ∧ b.srcAddr = 0#32 ∧ b.dstAddr = 0#32 ∧ b.srcLen = 0#32 ∧ b.result = 0#32 ∧
  b.errInfo = 0#32 ∧ b.eng.state = .idle ∧ irq b = false

/-- R230, R231, R223, R43: the reset input puts every register of every instance at its reset value, records no completion, and
changes only data bytes that are in the write window of a running command and not in its source window. (Ranges that R70
leaves unspecified are left out: log 10.) That no byte changes for a running command that fails its checks is the model's
inference from R99 to R101 and R61 (log 22); that the one reset input resets every instance, and leaves each at its
REG_BASE, is the model's choice (log 17). -/
def Obligations.ResetAbortsAndClears : Prop :=
  ∀ (s : State) (rest : List Event), Memory.wf s.mem = true → s.sched = .reset :: rest →
    ∃ t, step s = .next t ∧
      (∀ b ∈ allBlocks t, readReg b 0x00 4 = 0x53450001#32 ∧ b.ie = false ∧ b.cmdOp = 0#4 ∧ b.busy = false ∧
        b.done = false ∧ b.err = false ∧ b.ovr = false ∧ b.errCode = 0#4 ∧ b.srcAddr = 0#32 ∧ b.dstAddr = 0#32 ∧
        b.srcLen = 0#32 ∧ b.result = 0#32 ∧ b.errInfo = 0#32 ∧ b.eng.state = .idle ∧ irq b = false) ∧
      (allBlocks t).map Block.regBase = (allBlocks s).map Block.regBase ∧
      ∀ a, (∀ b ∈ allBlocks s, b.busy = true →
          (inRange a (blockWindow b) = false ∨ inRange a (blockSource b) = true ∨
            passesChecks s.cfg b.eng = false) ∧
          ∀ r ∈ b.eng.foul, inRange a r = false) →
        memRead t.mem a = memRead s.mem a

/-- R233: after reset the block is IDLE; with no access pending and no engine in RUN the machine starts nothing by itself. -/
def Obligations.IdleBlockWaits : Prop :=
  (∀ b ∈ allBlocks State.reset, b.eng.state = .idle) ∧
  ∀ s : State, s.sched = [] → (∀ b ∈ allBlocks s, b.eng.state = .idle) → step s = .next s

/-- R110, R104 (log 2): a running command completes in the engine's step: BUSY falls, DONE rises, the engine is IDLE, ERR
says whether ERRCODE is not 0; unless a window is not ordinary memory, which is refused. -/
def Obligations.RunningCommandCompletes : Prop :=
  ∀ s : State, s.blk.eng.state = .run →
    (s.sched = [] ∨ ∃ rest, s.sched = .complete s.blk.regBase :: rest) →
    (s.cfg.device = [] → ∃ t, step s = .next t) ∧
    (step s = .refused .notOrdinaryMemory ∨
      ∃ t, step s = .next t ∧ t.blk.busy = false ∧ t.blk.done = true ∧ t.blk.eng.state = .idle ∧
        (t.blk.err = true ↔ t.blk.errCode ≠ 0#4))

/-! ## Host accesses to data memory -/

/-- R14, R50, R68: a host write of an ordinary data byte stores it and changes no other byte and no register; outside every
window of a running command it leaves the engines alone too; at an address beyond the data space it faults (log 12). -/
def Obligations.HostDataWrite : Prop :=
  ∀ (s : State) (a : Nat) (v : Byte) (rest : List Event), Memory.wf s.mem = true →
    s.sched = .memWrite a v :: rest →
    (2 ^ s.cfg.addrW ≤ a → step s = .fault (.noSuchAddress a)) ∧
    (a < 2 ^ s.cfg.addrW → s.cfg.device.any (inRange a) = false →
      ∃ t, step s = .next t ∧ memRead t.mem a = v ∧ (∀ c, c ≠ a → memRead t.mem c = memRead s.mem c) ∧
        t.blk = { s.blk with eng := { s.blk.eng with hazard := t.blk.eng.hazard, windowHazard := t.blk.eng.windowHazard } } ∧
        (dutyKept s (.memWrite a v) = true → t.blk = s.blk ∧ t.peers = s.peers))

/-- R68: a host read outside the write windows of running commands returns the byte of data memory and changes nothing; inside
one it returns a free value. Data memory and the instances are unchanged in both cases. -/
def Obligations.HostDataRead : Prop :=
  ∀ (s : State) (a : Nat) (rest : List Event), a < 2 ^ s.cfg.addrW → s.cfg.device.any (inRange a) = false →
    s.sched = .memRead a :: rest →
    ∃ t, step s = .next t ∧ t.mem = s.mem ∧ t.blk = s.blk ∧ t.peers = s.peers ∧ t.sched = rest ∧
      (dutyKept s (.memRead a) = true → t.memData = memRead s.mem a) ∧
      (dutyKept s (.memRead a) = false → t.memData = Config.freeByte s.draw a)

/-- R68 (log 9): a host write to a byte of the source or write window of the running command of the acting instance leaves its
results unspecified, one to the write window every byte of that window too, and one outside it no more of it than before.
When the command completes, unspecified results are free values of RESULT, ERRCODE and ERR_INFO, and ERR follows ERRCODE; an
unspecified window is free bytes in the data space; and where the window is not unspecified, data memory is what the
same command leaves with its results specified, computed from data memory as it stood at its start (R63, R102). That the bytes
written after a write to the source follow the memory of the start is the model's reading (log 9). -/
def Obligations.BrokenDutyFreesResults : Prop :=
  (∀ (s : State) (a : Nat) (v : Byte) (rest : List Event), a < 2 ^ s.cfg.addrW →
    s.cfg.device.any (inRange a) = false → s.blk.busy = true →
    (inRange a (blockSource s.blk) = true ∨ inRange a (blockWindow s.blk) = true) →
    s.sched = .memWrite a v :: rest →
    ∃ t, step s = .next t ∧ t.blk.eng.hazard = true ∧
      (t.blk.eng.windowHazard = true ↔ s.blk.eng.windowHazard = true ∨ inRange a (blockWindow s.blk) = true) ∧
      t.blk.eng.startMem = s.blk.eng.startMem) ∧
  (∀ (i : Instr) (s t : State), Memory.wf s.mem = true → exec i s = .next t →
    (s.blk.eng.hazard = true →
      t.blk.result = Config.freeResult s.draw ∧ t.blk.errInfo = Config.freeErrInfo s.draw ∧
      t.blk.errCode = Config.freeErrCode s.draw ∧ (t.blk.err = true ↔ t.blk.errCode ≠ 0#4)) ∧
    (s.blk.eng.windowHazard = true →
      ∀ k, k < maxWrite i s.blk.eng.len.toNat → s.blk.eng.dst.toNat + k < 2 ^ s.cfg.addrW →
        dstByte s t k = Config.freeByte s.draw (s.blk.eng.dst.toNat + k)) ∧
    (s.blk.eng.windowHazard = false →
      ∃ t₀, exec i { s with blk := { s.blk with eng := { s.blk.eng with hazard := false } } } = .next t₀ ∧
        t.mem = t₀.mem) ∧
    (s.blk.eng.foul = [] → OnlyWrote s t (maxWrite i s.blk.eng.len.toNat)))

/-- R70: starting a command while every other running instance's windows are apart from its own (neither's write window meets
the other's source or write window) disturbs neither: no other instance changes. -/
def Obligations.DisjointInstancesDoNotDisturb : Prop :=
  ∀ (s : State) (w : Word),
    let b := latchCommand s.cfg.addrW s.mem w s.blk
    (∀ p ∈ s.peers, p.eng.state = .run →
      rangesMeet (blockWindow b) (blockWindow p) = false ∧ rangesMeet (blockWindow b) (blockSource p) = false ∧
      rangesMeet (blockWindow p) (blockSource b) = false) →
    (acceptCommand w s).peers = s.peers ∧ undisturbed (acceptCommand w s).blk = true

/-- R70, R107 (log 10): what a start leaves unspecified where windows of running instances meet. The command that starts has
its results unspecified exactly where it passes its checks and the write window of another running command meets its source
window (that the bytes it writes are unspecified too is the model's reading, log 10), and unspecified bytes exactly where its
write window meets that one's source or write window; each other running command alike, keeping what was unspecified
before. At completion such a byte is a free value. -/
def Obligations.MeetingInstancesAreUnspecified : Prop :=
  (∀ (s : State) (w : Word),
    let b := latchCommand s.cfg.addrW s.mem w s.blk
    let t := acceptCommand w s
    let reads := ∃ p ∈ s.peers, p.eng.state = .run ∧ rangesMeet (blockWindow p) (blockSource b) = true
    (t.blk.eng.hazard = true ↔ passesChecks s.cfg b.eng = true ∧ reads) ∧
    (t.blk.eng.windowHazard = true ↔ passesChecks s.cfg b.eng = true ∧ reads) ∧
    (∀ a, t.blk.eng.foul.any (inRange a) = true ↔
      ∃ p ∈ s.peers, p.eng.state = .run ∧ inRange a (blockWindow b) = true ∧
        (inRange a (blockWindow p) = true ∨ inRange a (blockSource p) = true)) ∧
    ∀ (k : Nat) (p : Block), s.peers[k]? = some p → p.eng.state = .run →
      let read := passesChecks s.cfg p.eng = true ∧ rangesMeet (blockWindow b) (blockSource p) = true
      ∃ q, t.peers[k]? = some q ∧ q.regBase = p.regBase ∧
        (q.eng.hazard = true ↔ p.eng.hazard = true ∨ read) ∧
        (q.eng.windowHazard = true ↔ p.eng.windowHazard = true ∨ read) ∧
        ∀ a, q.eng.foul.any (inRange a) = true ↔
          p.eng.foul.any (inRange a) = true ∨ inRange a (blockWindow p) = true ∧
            (inRange a (blockWindow b) = true ∨ inRange a (blockSource b) = true)) ∧
  ∀ (i : Instr) (s t : State) (a : Nat), Memory.wf s.mem = true → exec i s = .next t → a < 2 ^ s.cfg.addrW →
    s.blk.eng.foul.any (inRange a) = true → memRead t.mem a = Config.freeByte s.draw a

/-- The state in which peer number k, which is p, is the one that acts. -/
def Sys2Proof.Machine.peerInFront (s : State) (k : Nat) (p : Block) : State :=
  { s with blk := p, peers := s.blk :: s.peers.eraseIdx k }

/-- The instance without the marks of R68 and R70 on its command. -/
def Sys2Proof.Machine.unmarked (b : Block) : Block :=
  { b with eng := { b.eng with hazard := false, windowHazard := false, foul := [] } }

/-- R223, R9: an access at the REG_BASE of one of several instances reaches that instance and no other: the step is the one of
that instance acting, a read returns its register, and no register of another instance changes (a start may leave another's
results unspecified, R70). Its engine moves alike. Windows do not overlap here (log 8). -/
def Obligations.AccessReachesItsOwnInstance : Prop :=
  ∀ (s : State) (k : Nat) (p : Block) (offset width : Nat) (v : Word) (rest : List Event),
    s.peers[k]? = some p → offset < 0x40 →
    (∀ b ∈ s.blk :: s.peers.eraseIdx k, windowHolds (p.regBase + offset) b = false) →
    (s.sched = .regRead (p.regBase + offset) width :: rest →
      step s = .next { peerInFront s k p with sched := rest, regData := readReg p offset width }) ∧
    (s.sched = .regWrite (p.regBase + offset) width v :: rest →
      step s = step (peerInFront s k p) ∧
      ∃ t, step s = .next t ∧ t.blk.regBase = p.regBase ∧
        t.peers.map unmarked = (s.blk :: s.peers.eraseIdx k).map unmarked) ∧
    (s.sched = .complete p.regBase :: rest → (∀ b ∈ s.blk :: s.peers.eraseIdx k, b.regBase ≠ p.regBase) →
      step s = step (peerInFront s k p))

/-! ## Invariants -/

/-- R5, R6, R25, R28, R29, R31, R32, R36, R43: the reset state meets the invariant. -/
def Obligations.ResetMeetsInvariant : Prop := stateInv State.reset = true

/-- R5, R6, R25, R28, R29, R31, R32, R36, R67, R109: every step keeps the invariant, from every state that meets it: BUSY exactly
in RUN, never BUSY and DONE, ERR exactly when ERRCODE is not 0, ERRCODE 0 while BUSY, unimplemented address bits 0, the
running word a GO word whose OP stands in eng.OP and CMD.OP, no copy of data memory between commands, for every instance;
memory canonical and in the data space. -/
def Obligations.StepKeepsInvariant : Prop :=
  ∀ s t : State, stateInv s = true → step s = .next t → stateInv t = true

/-- R68, R236: with one instance, a step that keeps the host's duty never disturbs the command. -/
def Obligations.DutyKeepsCommandUndisturbed : Prop :=
  ∀ s t : State, s.peers = [] → undisturbed s.blk = true →
    (∀ e rest, s.sched = e :: rest → dutyKept s e = true) → step s = .next t →
    t.peers = [] ∧ undisturbed t.blk = true

/-- R19, R232: no step changes the parameters, the safe-character tables among them, or where the instances stand. -/
def Obligations.StepKeepsParameters : Prop :=
  ∀ s t : State, step s = .next t →
    t.cfg = s.cfg ∧ ((allBlocks t).map Block.regBase).Perm ((allBlocks s).map Block.regBase)
end

