-- ==== Sys2Proof/Laws/Memory.lean ====
section
/-! SUPPORT. The laws of data memory: every operation keeps the canonical form and stays in the data space, a read after a
write gives what was written, and a write leaves every other byte alone. -/

namespace Sys2Proof.Machine

/-! ## The canonical form -/

@[simp] theorem cellsWf_nil (lo : Nat) : cellsWf lo [] = true := rfl

theorem cellsWf_cons (lo a : Nat) (v : Byte) (rest : List Host.Cell) :
    cellsWf lo ((a, v) :: rest) = true ↔ lo ≤ a ∧ v ≠ memBackground ∧ cellsWf (a + 1) rest = true := by
  simp [cellsWf, and_assoc]

theorem cellsWf_mono {lo lo' : Nat} (h : lo' ≤ lo) : ∀ {m : List Host.Cell}, cellsWf lo m = true → cellsWf lo' m = true
  | [], _ => rfl
  | (a, v) :: rest, hm => by
    obtain ⟨h1, h2, h3⟩ := (cellsWf_cons ..).1 hm
    exact (cellsWf_cons ..).2 ⟨h.trans h1, h2, h3⟩

theorem consCell_wf {lo a : Nat} {v : Byte} {rest : List Host.Cell} (ha : lo ≤ a) (h : cellsWf (a + 1) rest = true) :
    cellsWf lo (consCell a v rest) = true := by
  unfold consCell
  split
  · exact cellsWf_mono (by omega) h
  · exact (cellsWf_cons ..).2 ⟨ha, ‹_›, h⟩

theorem cellsWf_memWrite {lo a : Nat} {v : Byte} (ha : lo ≤ a) :
    ∀ {m : List Host.Cell}, cellsWf lo m = true → cellsWf lo (memWrite m a v) = true
  | [], _ => consCell_wf ha rfl
  | (b, w) :: rest, hm => by
    obtain ⟨h1, h2, h3⟩ := (cellsWf_cons ..).1 hm
    unfold memWrite
    split
    · exact consCell_wf ha ((cellsWf_cons ..).2 ⟨by omega, h2, h3⟩)
    · split
      · next hab => exact consCell_wf ha (hab ▸ h3)
      · exact (cellsWf_cons ..).2 ⟨h1, h2, cellsWf_memWrite (by omega) h3⟩

theorem memWrite_wf {m : Memory} (h : Memory.wf m = true) (a : Nat) (v : Byte) : Memory.wf (memWrite m a v) = true :=
  cellsWf_memWrite (Nat.zero_le a) h

theorem memWriteBytes_wf (vs : List Byte) :
    ∀ {m : Memory}, Memory.wf m = true → ∀ a, Memory.wf (memWriteBytes m a vs) = true := by
  induction vs with
  | nil => exact fun h _ => h
  | cons v vs ih => exact fun h a => ih (memWrite_wf h a v) (a + 1)

theorem memScramble_wf (d n : Nat) :
    ∀ {m : Memory}, Memory.wf m = true → ∀ a, Memory.wf (memScramble d m a n) = true := by
  induction n with
  | zero => exact fun h _ => h
  | succ n ih => exact fun h a => ih (memWrite_wf h a _) (a + 1)

theorem memScrambleIn_wf (size d : Nat) {m : Memory} (h : Memory.wf m = true) (r : Nat × Nat) :
    Memory.wf (memScrambleIn size d m r) = true := memScramble_wf d _ h _

/-- Fold of `memScrambleIn` over ranges keeps the canonical form. -/
theorem foldl_memScrambleIn_wf (size d : Nat) (rs : List (Nat × Nat)) :
    ∀ {m : Memory}, Memory.wf m = true → Memory.wf (rs.foldl (memScrambleIn size d) m) = true := by
  induction rs with
  | nil => exact fun h => h
  | cons r rs ih => exact fun h => ih (memScrambleIn_wf size d h r)

/-! ## Reads -/

theorem memRead_of_cellsWf_lt {lo a : Nat} (h : a < lo) :
    ∀ {m : List Host.Cell}, cellsWf lo m = true → memRead m a = memBackground
  | [], _ => rfl
  | (b, w) :: rest, hm => by
    obtain ⟨h1, _, h3⟩ := (cellsWf_cons ..).1 hm
    simp only [memRead, if_neg (show a ≠ b by omega)]
    exact memRead_of_cellsWf_lt (by omega) h3

theorem memRead_consCell {a c : Nat} {v : Byte} {rest : List Host.Cell} (h : cellsWf (a + 1) rest = true) :
    memRead (consCell a v rest) c = if c = a then v else memRead rest c := by
  unfold consCell
  split
  · next hv =>
    split
    · next hc => rw [hc, memRead_of_cellsWf_lt (Nat.lt_succ_self a) h, hv]
    · rfl
  · rfl

theorem memRead_memWrite_cells {lo : Nat} {v : Byte} (a c : Nat) :
    ∀ {m : List Host.Cell}, cellsWf lo m = true → memRead (memWrite m a v) c = if c = a then v else memRead m c
  | [], _ => memRead_consCell rfl
  | (b, w) :: rest, hm => by
    obtain ⟨_, h2, h3⟩ := (cellsWf_cons ..).1 hm
    unfold memWrite
    split
    · next hab => exact memRead_consCell ((cellsWf_cons ..).2 ⟨hab, h2, h3⟩)
    · split
      · next hab =>
        subst hab
        rw [memRead_consCell h3]
        by_cases hc : c = a <;> simp [memRead, hc]
      · next hab =>
        simp only [memRead]
        rw [memRead_memWrite_cells a c h3]
        by_cases hc : c = b
        · rw [if_pos hc, if_pos hc, if_neg (by omega)]
        · rw [if_neg hc, if_neg hc]

/-- A read after a write: the byte written at its address, every other byte as before. -/
theorem memRead_memWrite {m : Memory} (h : Memory.wf m = true) (a c : Nat) (v : Byte) :
    memRead (memWrite m a v) c = if c = a then v else memRead m c := memRead_memWrite_cells a c h

@[simp] theorem memReadBytes_length (m : Memory) (n : Nat) : ∀ a, (memReadBytes m a n).length = n := by
  induction n with
  | zero => exact fun _ => rfl
  | succ n ih => intro a; simp [memReadBytes, ih]

theorem getElem?_memReadBytes (m : Memory) (n : Nat) :
    ∀ a k, (memReadBytes m a n)[k]? = if k < n then some (memRead m (a + k)) else none := by
  induction n with
  | zero => intro a k; simp [memReadBytes]
  | succ n ih =>
    intro a k
    cases k with
    | zero => simp [memReadBytes]
    | succ k => simp only [memReadBytes, List.getElem?_cons_succ, ih]; simp [Nat.add_assoc, Nat.add_comm 1 k]

/-- Bytes that read alike one by one read alike together. -/
theorem memReadBytes_congr {m m' : Memory} (n : Nat) :
    ∀ {a a'}, (∀ k, k < n → memRead m (a + k) = memRead m' (a' + k)) → memReadBytes m a n = memReadBytes m' a' n := by
  induction n with
  | zero => exact fun _ => rfl
  | succ n ih =>
    intro a a' h
    have h0 := h 0 (Nat.zero_lt_succ n)
    simp only [Nat.add_zero] at h0
    simp only [memReadBytes, h0, List.cons.injEq, true_and]
    refine ih fun k hk => ?_
    have := h (k + 1) (by omega)
    rwa [show a + (k + 1) = a + 1 + k by omega, show a' + (k + 1) = a' + 1 + k by omega] at this

/-- A read after a run of bytes is stored: the stored byte inside the run, every other byte as before. -/
theorem memRead_memWriteBytes (vs : List Byte) :
    ∀ {m : Memory}, Memory.wf m = true → ∀ a c,
      memRead (memWriteBytes m a vs) c = if a ≤ c then (vs[c - a]?).getD (memRead m c) else memRead m c := by
  induction vs with
  | nil => intro m _ a c; simp [memWriteBytes]
  | cons v vs ih =>
    intro m h a c
    rw [memWriteBytes, ih (memWrite_wf h a v), memRead_memWrite h]
    rcases Nat.lt_trichotomy c a with hc | hc | hc
    · rw [if_neg (by omega), if_neg (by omega), if_neg (by omega)]
    · subst hc; simp
    · rw [if_pos (by omega), if_neg (by omega), if_pos (by omega), show c - a = (c - (a + 1)) + 1 by omega,
        List.getElem?_cons_succ]

theorem memRead_memWriteBytes_outside (vs : List Byte) {m : Memory} (h : Memory.wf m = true) {a c : Nat}
    (hc : c < a ∨ a + vs.length ≤ c) : memRead (memWriteBytes m a vs) c = memRead m c := by
  rw [memRead_memWriteBytes vs h]
  split
  · rw [List.getElem?_eq_none (by omega)]; rfl
  · rfl

theorem memRead_memWriteBytes_inside (vs : List Byte) {m : Memory} (h : Memory.wf m = true) (a : Nat) {k : Nat}
    (hk : k < vs.length) : memRead (memWriteBytes m a vs) (a + k) = vs[k] := by
  rw [memRead_memWriteBytes vs h, if_pos (by omega), Nat.add_sub_cancel_left, List.getElem?_eq_getElem hk]
  rfl

/-- What a run of bytes stored reads as, read back whole. -/
theorem memReadBytes_memWriteBytes (vs : List Byte) {m : Memory} (h : Memory.wf m = true) (a : Nat) {n : Nat}
    (hn : n ≤ vs.length) : memReadBytes (memWriteBytes m a vs) a n = vs.take n := by
  apply List.ext_getElem?
  intro k
  rw [getElem?_memReadBytes, List.getElem?_take]
  split
  · rw [memRead_memWriteBytes_inside vs h a (by omega), List.getElem?_eq_getElem (by omega)]
  · rfl

theorem memRead_memScramble_outside (d n : Nat) :
    ∀ {m : Memory}, Memory.wf m = true → ∀ {a c : Nat}, (c < a ∨ a + n ≤ c) →
      memRead (memScramble d m a n) c = memRead m c := by
  induction n with
  | zero => exact fun _ _ _ _ => rfl
  | succ n ih =>
    intro m h a c hc
    rw [memScramble, ih (memWrite_wf h a _) (by omega), memRead_memWrite h, if_neg (by omega)]

/-- A free byte stands at every address of a scrambled range. -/
theorem memRead_memScramble_inside (d n : Nat) :
    ∀ {m : Memory}, Memory.wf m = true → ∀ {a c : Nat}, a ≤ c → c < a + n →
      memRead (memScramble d m a n) c = Config.freeByte d c := by
  induction n with
  | zero => intro m _ a c h1 h2; omega
  | succ n ih =>
    intro m h a c h1 h2
    rw [memScramble]
    rcases Nat.eq_or_lt_of_le h1 with rfl | hlt
    · rw [memRead_memScramble_outside d n (memWrite_wf h a _) (by omega), memRead_memWrite h, if_pos rfl]
    · exact ih (memWrite_wf h a _) (by omega) (by omega)

theorem memRead_memScrambleIn_outside (size d : Nat) {m : Memory} (h : Memory.wf m = true) (r : Nat × Nat) {c : Nat}
    (hc : c < r.1 ∨ r.1 + r.2 ≤ c) : memRead (memScrambleIn size d m r) c = memRead m c :=
  memRead_memScramble_outside d _ h (by omega)

/-- No address of the ranges, no change: a fold of `memScrambleIn` leaves every byte outside its ranges alone. -/
theorem memRead_foldl_memScrambleIn_outside (size d : Nat) (rs : List (Nat × Nat)) {c : Nat} :
    ∀ {m : Memory}, Memory.wf m = true → (∀ r ∈ rs, c < r.1 ∨ r.1 + r.2 ≤ c) →
      memRead (rs.foldl (memScrambleIn size d) m) c = memRead m c := by
  induction rs with
  | nil => exact fun _ _ => rfl
  | cons r rs ih =>
    intro m h hr
    rw [List.foldl_cons, ih (memScrambleIn_wf size d h r) fun t ht => hr t (List.mem_cons_of_mem r ht),
      memRead_memScrambleIn_outside size d h r (hr r (List.mem_cons_self ..))]

theorem memRead_memScrambleIn_inside (size d : Nat) {m : Memory} (h : Memory.wf m = true) (r : Nat × Nat) {c : Nat}
    (h1 : r.1 ≤ c) (h2 : c < r.1 + r.2) (hs : c < size) : memRead (memScrambleIn size d m r) c = Config.freeByte d c :=
  memRead_memScramble_inside d _ h h1 (by omega)

/-- A scrambled byte stays the free byte of its draw, whatever else that draw scrambles. -/
theorem memRead_foldl_memScrambleIn_of_free (size d : Nat) (rs : List (Nat × Nat)) {c : Nat} (hs : c < size) :
    ∀ {m : Memory}, Memory.wf m = true → memRead m c = Config.freeByte d c →
      memRead (rs.foldl (memScrambleIn size d) m) c = Config.freeByte d c := by
  induction rs with
  | nil => exact fun _ hc => hc
  | cons r rs ih =>
    intro m h hc
    refine ih (memScrambleIn_wf size d h r) ?_
    rcases Nat.lt_or_ge c r.1 with h1 | h1
    · rw [memRead_memScrambleIn_outside size d h r (.inl h1), hc]
    · rcases Nat.lt_or_ge c (r.1 + r.2) with h2 | h2
      · exact memRead_memScrambleIn_inside size d h r h1 h2 hs
      · rw [memRead_memScrambleIn_outside size d h r (.inr h2), hc]

/-- A fold of `memScrambleIn` leaves the free byte at every address of its ranges in the data space. -/
theorem memRead_foldl_memScrambleIn_inside (size d : Nat) (rs : List (Nat × Nat)) {c : Nat} (hs : c < size) :
    ∀ {m : Memory}, Memory.wf m = true → (∃ r ∈ rs, r.1 ≤ c ∧ c < r.1 + r.2) →
      memRead (rs.foldl (memScrambleIn size d) m) c = Config.freeByte d c := by
  induction rs with
  | nil => rintro m _ ⟨r, hr, _⟩; cases hr
  | cons r rs ih =>
    rintro m h ⟨t, ht, h1, h2⟩
    rcases List.mem_cons.1 ht with rfl | ht
    · exact memRead_foldl_memScrambleIn_of_free size d rs hs (memScrambleIn_wf size d h t)
        (memRead_memScrambleIn_inside size d h t h1 h2 hs)
    · exact ih (memScrambleIn_wf size d h r) ⟨t, ht, h1, h2⟩

/-! ## The data space -/

theorem memInSpace_consCell {size a : Nat} (v : Byte) {rest : List Host.Cell} (ha : a < size)
    (h : memInSpace rest size = true) : memInSpace (consCell a v rest) size = true := by
  unfold consCell
  split
  · exact h
  · simpa [memInSpace, ha] using h

theorem memInSpace_memWrite {size a : Nat} (v : Byte) (ha : a < size) :
    ∀ {m : Memory}, memInSpace m size = true → memInSpace (memWrite m a v) size = true
  | [], _ => memInSpace_consCell v ha rfl
  | (b, w) :: rest, h => by
    obtain ⟨hb, hr⟩ : b < size ∧ memInSpace rest size = true := by simpa [memInSpace] using h
    unfold memWrite
    split
    · exact memInSpace_consCell v ha h
    · split
      · exact memInSpace_consCell v ha hr
      · have := memInSpace_memWrite v ha hr
        simpa [memInSpace, hb] using this

theorem memInSpace_memWriteBytes {size : Nat} (vs : List Byte) :
    ∀ {m : Memory} {a : Nat}, memInSpace m size = true → a + vs.length ≤ size →
      memInSpace (memWriteBytes m a vs) size = true := by
  induction vs with
  | nil => exact fun h _ => h
  | cons v vs ih =>
    intro m a h ha
    simp only [List.length_cons] at ha
    exact ih (memInSpace_memWrite v (by omega) h) (by omega)

theorem memInSpace_memScramble {size : Nat} (d n : Nat) :
    ∀ {m : Memory} {a : Nat}, memInSpace m size = true → (n = 0 ∨ a + n ≤ size) →
      memInSpace (memScramble d m a n) size = true := by
  induction n with
  | zero => exact fun h _ => h
  | succ n ih => intro m a h ha; exact ih (memInSpace_memWrite _ (by omega) h) (by omega)

theorem memInSpace_memScrambleIn {size : Nat} (d : Nat) {m : Memory} (r : Nat × Nat) (h : memInSpace m size = true) :
    memInSpace (memScrambleIn size d m r) size = true := memInSpace_memScramble d _ h (by omega)

theorem memInSpace_foldl_memScrambleIn {size : Nat} (d : Nat) (rs : List (Nat × Nat)) :
    ∀ {m : Memory}, memInSpace m size = true → memInSpace (rs.foldl (memScrambleIn size d) m) size = true := by
  induction rs with
  | nil => exact fun h => h
  | cons r rs ih => exact fun h => ih (memInSpace_memScrambleIn d r h)

end Sys2Proof.Machine
end

