-- ==== Sys2Proof/Laws/State.lean ====
section
/-! SUPPORT. One lemma per field and per named update of an instance and of the machine, true by rfl, so that no later proof
unfolds a record update. -/

namespace Sys2Proof.Machine

/-! ### closeCommand -/

@[simp] theorem closeCommand_regBase (r i : Word) (c : BitVec 4) (b : Block) : (closeCommand r i c b).regBase = b.regBase := rfl
@[simp] theorem closeCommand_ie (r i : Word) (c : BitVec 4) (b : Block) : (closeCommand r i c b).ie = b.ie := rfl
@[simp] theorem closeCommand_cmdOp (r i : Word) (c : BitVec 4) (b : Block) : (closeCommand r i c b).cmdOp = b.cmdOp := rfl
@[simp] theorem closeCommand_busy (r i : Word) (c : BitVec 4) (b : Block) : (closeCommand r i c b).busy = false := rfl
@[simp] theorem closeCommand_done (r i : Word) (c : BitVec 4) (b : Block) : (closeCommand r i c b).done = true := rfl
@[simp] theorem closeCommand_err (r i : Word) (c : BitVec 4) (b : Block) : (closeCommand r i c b).err = decide (c ≠ 0#4) := rfl
@[simp] theorem closeCommand_ovr (r i : Word) (c : BitVec 4) (b : Block) : (closeCommand r i c b).ovr = b.ovr := rfl
@[simp] theorem closeCommand_errCode (r i : Word) (c : BitVec 4) (b : Block) : (closeCommand r i c b).errCode = c := rfl
@[simp] theorem closeCommand_srcAddr (r i : Word) (c : BitVec 4) (b : Block) : (closeCommand r i c b).srcAddr = b.srcAddr := rfl
@[simp] theorem closeCommand_dstAddr (r i : Word) (c : BitVec 4) (b : Block) : (closeCommand r i c b).dstAddr = b.dstAddr := rfl
@[simp] theorem closeCommand_srcLen (r i : Word) (c : BitVec 4) (b : Block) : (closeCommand r i c b).srcLen = b.srcLen := rfl
@[simp] theorem closeCommand_result (r i : Word) (c : BitVec 4) (b : Block) : (closeCommand r i c b).result = r := rfl
@[simp] theorem closeCommand_errInfo (r i : Word) (c : BitVec 4) (b : Block) : (closeCommand r i c b).errInfo = i := rfl
@[simp] theorem closeCommand_eng_state (r i : Word) (c : BitVec 4) (b : Block) : (closeCommand r i c b).eng.state = .idle := rfl
@[simp] theorem closeCommand_eng_cmdw (r i : Word) (c : BitVec 4) (b : Block) : (closeCommand r i c b).eng.cmdw = b.eng.cmdw := rfl
@[simp] theorem closeCommand_eng_op (r i : Word) (c : BitVec 4) (b : Block) : (closeCommand r i c b).eng.op = b.eng.op := rfl
@[simp] theorem closeCommand_eng_src (r i : Word) (c : BitVec 4) (b : Block) : (closeCommand r i c b).eng.src = b.eng.src := rfl
@[simp] theorem closeCommand_eng_dst (r i : Word) (c : BitVec 4) (b : Block) : (closeCommand r i c b).eng.dst = b.eng.dst := rfl
@[simp] theorem closeCommand_eng_len (r i : Word) (c : BitVec 4) (b : Block) : (closeCommand r i c b).eng.len = b.eng.len := rfl
@[simp] theorem closeCommand_eng_startMem (r i : Word) (c : BitVec 4) (b : Block) : (closeCommand r i c b).eng.startMem = [] := rfl
@[simp] theorem closeCommand_eng_hazard (r i : Word) (c : BitVec 4) (b : Block) : (closeCommand r i c b).eng.hazard = false := rfl
@[simp] theorem closeCommand_eng_windowHazard (r i : Word) (c : BitVec 4) (b : Block) : (closeCommand r i c b).eng.windowHazard = false := rfl
@[simp] theorem closeCommand_eng_foul (r i : Word) (c : BitVec 4) (b : Block) : (closeCommand r i c b).eng.foul = [] := rfl

/-! ### recordFinish -/

@[simp] theorem recordFinish_regBase (n : Nat) (b : Block) : (recordFinish n b).regBase = b.regBase := rfl
@[simp] theorem recordFinish_ie (n : Nat) (b : Block) : (recordFinish n b).ie = b.ie := rfl
@[simp] theorem recordFinish_cmdOp (n : Nat) (b : Block) : (recordFinish n b).cmdOp = b.cmdOp := rfl
@[simp] theorem recordFinish_busy (n : Nat) (b : Block) : (recordFinish n b).busy = false := rfl
@[simp] theorem recordFinish_done (n : Nat) (b : Block) : (recordFinish n b).done = true := rfl
@[simp] theorem recordFinish_err (n : Nat) (b : Block) : (recordFinish n b).err = false := rfl
@[simp] theorem recordFinish_ovr (n : Nat) (b : Block) : (recordFinish n b).ovr = b.ovr := rfl
@[simp] theorem recordFinish_errCode (n : Nat) (b : Block) : (recordFinish n b).errCode = 0#4 := rfl
@[simp] theorem recordFinish_srcAddr (n : Nat) (b : Block) : (recordFinish n b).srcAddr = b.srcAddr := rfl
@[simp] theorem recordFinish_dstAddr (n : Nat) (b : Block) : (recordFinish n b).dstAddr = b.dstAddr := rfl
@[simp] theorem recordFinish_srcLen (n : Nat) (b : Block) : (recordFinish n b).srcLen = b.srcLen := rfl
@[simp] theorem recordFinish_result (n : Nat) (b : Block) : (recordFinish n b).result = BitVec.ofNat 32 n := rfl
@[simp] theorem recordFinish_errInfo (n : Nat) (b : Block) : (recordFinish n b).errInfo = 0#32 := rfl
@[simp] theorem recordFinish_eng_state (n : Nat) (b : Block) : (recordFinish n b).eng.state = .idle := rfl
@[simp] theorem recordFinish_eng_cmdw (n : Nat) (b : Block) : (recordFinish n b).eng.cmdw = b.eng.cmdw := rfl
@[simp] theorem recordFinish_eng_op (n : Nat) (b : Block) : (recordFinish n b).eng.op = b.eng.op := rfl
@[simp] theorem recordFinish_eng_src (n : Nat) (b : Block) : (recordFinish n b).eng.src = b.eng.src := rfl
@[simp] theorem recordFinish_eng_dst (n : Nat) (b : Block) : (recordFinish n b).eng.dst = b.eng.dst := rfl
@[simp] theorem recordFinish_eng_len (n : Nat) (b : Block) : (recordFinish n b).eng.len = b.eng.len := rfl
@[simp] theorem recordFinish_eng_startMem (n : Nat) (b : Block) : (recordFinish n b).eng.startMem = [] := rfl
@[simp] theorem recordFinish_eng_hazard (n : Nat) (b : Block) : (recordFinish n b).eng.hazard = false := rfl
@[simp] theorem recordFinish_eng_windowHazard (n : Nat) (b : Block) : (recordFinish n b).eng.windowHazard = false := rfl
@[simp] theorem recordFinish_eng_foul (n : Nat) (b : Block) : (recordFinish n b).eng.foul = [] := rfl

/-! ### writeStatus -/

@[simp] theorem writeStatus_regBase (v : Word) (b : Block) : (writeStatus v b).regBase = b.regBase := rfl
@[simp] theorem writeStatus_ie (v : Word) (b : Block) : (writeStatus v b).ie = b.ie := rfl
@[simp] theorem writeStatus_cmdOp (v : Word) (b : Block) : (writeStatus v b).cmdOp = b.cmdOp := rfl
@[simp] theorem writeStatus_busy (v : Word) (b : Block) : (writeStatus v b).busy = b.busy := rfl
@[simp] theorem writeStatus_done (v : Word) (b : Block) : (writeStatus v b).done = (b.done && !v.getLsbD 1) := rfl
@[simp] theorem writeStatus_err (v : Word) (b : Block) : (writeStatus v b).err = b.err := rfl
@[simp] theorem writeStatus_ovr (v : Word) (b : Block) : (writeStatus v b).ovr = (b.ovr && !v.getLsbD 3) := rfl
@[simp] theorem writeStatus_errCode (v : Word) (b : Block) : (writeStatus v b).errCode = b.errCode := rfl
@[simp] theorem writeStatus_srcAddr (v : Word) (b : Block) : (writeStatus v b).srcAddr = b.srcAddr := rfl
@[simp] theorem writeStatus_dstAddr (v : Word) (b : Block) : (writeStatus v b).dstAddr = b.dstAddr := rfl
@[simp] theorem writeStatus_srcLen (v : Word) (b : Block) : (writeStatus v b).srcLen = b.srcLen := rfl
@[simp] theorem writeStatus_result (v : Word) (b : Block) : (writeStatus v b).result = b.result := rfl
@[simp] theorem writeStatus_errInfo (v : Word) (b : Block) : (writeStatus v b).errInfo = b.errInfo := rfl
@[simp] theorem writeStatus_eng (v : Word) (b : Block) : (writeStatus v b).eng = b.eng := rfl

/-! ### latchCommand -/

@[simp] theorem latchCommand_regBase (n : Nat) (m : Memory) (v : Word) (b : Block) : (latchCommand n m v b).regBase = b.regBase := rfl
@[simp] theorem latchCommand_ie (n : Nat) (m : Memory) (v : Word) (b : Block) : (latchCommand n m v b).ie = b.ie := rfl
@[simp] theorem latchCommand_cmdOp (n : Nat) (m : Memory) (v : Word) (b : Block) : (latchCommand n m v b).cmdOp = b.cmdOp := rfl
@[simp] theorem latchCommand_busy (n : Nat) (m : Memory) (v : Word) (b : Block) : (latchCommand n m v b).busy = true := rfl
@[simp] theorem latchCommand_done (n : Nat) (m : Memory) (v : Word) (b : Block) : (latchCommand n m v b).done = false := rfl
@[simp] theorem latchCommand_err (n : Nat) (m : Memory) (v : Word) (b : Block) : (latchCommand n m v b).err = false := rfl
@[simp] theorem latchCommand_ovr (n : Nat) (m : Memory) (v : Word) (b : Block) : (latchCommand n m v b).ovr = b.ovr := rfl
@[simp] theorem latchCommand_errCode (n : Nat) (m : Memory) (v : Word) (b : Block) : (latchCommand n m v b).errCode = 0#4 := rfl
@[simp] theorem latchCommand_srcAddr (n : Nat) (m : Memory) (v : Word) (b : Block) : (latchCommand n m v b).srcAddr = b.srcAddr := rfl
@[simp] theorem latchCommand_dstAddr (n : Nat) (m : Memory) (v : Word) (b : Block) : (latchCommand n m v b).dstAddr = b.dstAddr := rfl
@[simp] theorem latchCommand_srcLen (n : Nat) (m : Memory) (v : Word) (b : Block) : (latchCommand n m v b).srcLen = b.srcLen := rfl
@[simp] theorem latchCommand_result (n : Nat) (m : Memory) (v : Word) (b : Block) : (latchCommand n m v b).result = b.result := rfl
@[simp] theorem latchCommand_errInfo (n : Nat) (m : Memory) (v : Word) (b : Block) : (latchCommand n m v b).errInfo = b.errInfo := rfl
@[simp] theorem latchCommand_eng_state (n : Nat) (m : Memory) (v : Word) (b : Block) : (latchCommand n m v b).eng.state = .run := rfl
@[simp] theorem latchCommand_eng_cmdw (n : Nat) (m : Memory) (v : Word) (b : Block) : (latchCommand n m v b).eng.cmdw = v := rfl
@[simp] theorem latchCommand_eng_op (n : Nat) (m : Memory) (v : Word) (b : Block) : (latchCommand n m v b).eng.op = v.extractLsb' 0 4 := rfl
@[simp] theorem latchCommand_eng_src (n : Nat) (m : Memory) (v : Word) (b : Block) : (latchCommand n m v b).eng.src = addrBits n b.srcAddr := rfl
@[simp] theorem latchCommand_eng_dst (n : Nat) (m : Memory) (v : Word) (b : Block) : (latchCommand n m v b).eng.dst = addrBits n b.dstAddr := rfl
@[simp] theorem latchCommand_eng_len (n : Nat) (m : Memory) (v : Word) (b : Block) : (latchCommand n m v b).eng.len = b.srcLen := rfl
@[simp] theorem latchCommand_eng_startMem (n : Nat) (m : Memory) (v : Word) (b : Block) : (latchCommand n m v b).eng.startMem = m := rfl
@[simp] theorem latchCommand_eng_hazard (n : Nat) (m : Memory) (v : Word) (b : Block) : (latchCommand n m v b).eng.hazard = false := rfl
@[simp] theorem latchCommand_eng_windowHazard (n : Nat) (m : Memory) (v : Word) (b : Block) : (latchCommand n m v b).eng.windowHazard = false := rfl
@[simp] theorem latchCommand_eng_foul (n : Nat) (m : Memory) (v : Word) (b : Block) : (latchCommand n m v b).eng.foul = [] := rfl

/-! ### clashWith -/

@[simp] theorem clashWith_regBase (c : Config) (o b : Block) : (clashWith c o b).regBase = b.regBase := rfl
@[simp] theorem clashWith_ie (c : Config) (o b : Block) : (clashWith c o b).ie = b.ie := rfl
@[simp] theorem clashWith_cmdOp (c : Config) (o b : Block) : (clashWith c o b).cmdOp = b.cmdOp := rfl
@[simp] theorem clashWith_busy (c : Config) (o b : Block) : (clashWith c o b).busy = b.busy := rfl
@[simp] theorem clashWith_done (c : Config) (o b : Block) : (clashWith c o b).done = b.done := rfl
@[simp] theorem clashWith_err (c : Config) (o b : Block) : (clashWith c o b).err = b.err := rfl
@[simp] theorem clashWith_ovr (c : Config) (o b : Block) : (clashWith c o b).ovr = b.ovr := rfl
@[simp] theorem clashWith_errCode (c : Config) (o b : Block) : (clashWith c o b).errCode = b.errCode := rfl
@[simp] theorem clashWith_srcAddr (c : Config) (o b : Block) : (clashWith c o b).srcAddr = b.srcAddr := rfl
@[simp] theorem clashWith_dstAddr (c : Config) (o b : Block) : (clashWith c o b).dstAddr = b.dstAddr := rfl
@[simp] theorem clashWith_srcLen (c : Config) (o b : Block) : (clashWith c o b).srcLen = b.srcLen := rfl
@[simp] theorem clashWith_result (c : Config) (o b : Block) : (clashWith c o b).result = b.result := rfl
@[simp] theorem clashWith_errInfo (c : Config) (o b : Block) : (clashWith c o b).errInfo = b.errInfo := rfl
@[simp] theorem clashWith_eng_state (c : Config) (o b : Block) : (clashWith c o b).eng.state = b.eng.state := rfl
@[simp] theorem clashWith_eng_cmdw (c : Config) (o b : Block) : (clashWith c o b).eng.cmdw = b.eng.cmdw := rfl
@[simp] theorem clashWith_eng_op (c : Config) (o b : Block) : (clashWith c o b).eng.op = b.eng.op := rfl
@[simp] theorem clashWith_eng_src (c : Config) (o b : Block) : (clashWith c o b).eng.src = b.eng.src := rfl
@[simp] theorem clashWith_eng_dst (c : Config) (o b : Block) : (clashWith c o b).eng.dst = b.eng.dst := rfl
@[simp] theorem clashWith_eng_len (c : Config) (o b : Block) : (clashWith c o b).eng.len = b.eng.len := rfl
@[simp] theorem clashWith_eng_startMem (c : Config) (o b : Block) : (clashWith c o b).eng.startMem = b.eng.startMem := rfl
@[simp] theorem clashWith_eng_hazard (c : Config) (o b : Block) : (clashWith c o b).eng.hazard = (b.eng.hazard || readsClash c o b) := rfl
@[simp] theorem clashWith_eng_windowHazard (c : Config) (o b : Block) : (clashWith c o b).eng.windowHazard = (b.eng.windowHazard || readsClash c o b) := rfl
@[simp] theorem clashWith_eng_foul (c : Config) (o b : Block) : (clashWith c o b).eng.foul = b.eng.foul ++ commonRange (blockWindow b) (blockWindow o) ++ commonRange (blockWindow b) (blockSource o) := rfl

/-! ### recordError -/

@[simp] theorem recordError_result (c : ErrCode) (i : Word) (b : Block) : (recordError c i b).result = 0xFFFFFFFF#32 := rfl
@[simp] theorem recordError_errInfo (c : ErrCode) (i : Word) (b : Block) : (recordError c i b).errInfo = i := rfl
@[simp] theorem recordError_errCode (c : ErrCode) (i : Word) (b : Block) : (recordError c i b).errCode = errCodeBits c := rfl
@[simp] theorem recordError_err (c : ErrCode) (i : Word) (b : Block) : (recordError c i b).err = true := by
  cases c <;> rfl
@[simp] theorem recordError_busy (c : ErrCode) (i : Word) (b : Block) : (recordError c i b).busy = false := rfl
@[simp] theorem recordError_done (c : ErrCode) (i : Word) (b : Block) : (recordError c i b).done = true := rfl
@[simp] theorem recordError_ie (c : ErrCode) (i : Word) (b : Block) : (recordError c i b).ie = b.ie := rfl
@[simp] theorem recordError_ovr (c : ErrCode) (i : Word) (b : Block) : (recordError c i b).ovr = b.ovr := rfl
@[simp] theorem recordError_cmdOp (c : ErrCode) (i : Word) (b : Block) : (recordError c i b).cmdOp = b.cmdOp := rfl
@[simp] theorem recordError_regBase (c : ErrCode) (i : Word) (b : Block) : (recordError c i b).regBase = b.regBase := rfl
@[simp] theorem recordError_srcAddr (c : ErrCode) (i : Word) (b : Block) : (recordError c i b).srcAddr = b.srcAddr := rfl
@[simp] theorem recordError_dstAddr (c : ErrCode) (i : Word) (b : Block) : (recordError c i b).dstAddr = b.dstAddr := rfl
@[simp] theorem recordError_srcLen (c : ErrCode) (i : Word) (b : Block) : (recordError c i b).srcLen = b.srcLen := rfl
@[simp] theorem recordError_eng (c : ErrCode) (i : Word) (b : Block) :
    (recordError c i b).eng =
      { b.eng with state := .idle, startMem := [], hazard := false, windowHazard := false, foul := [] } := rfl

/-! ### complete -/

@[simp] theorem complete_cfg (w : Nat × Nat) (o : CmdOutcome) (s : State) : (complete w o s).cfg = s.cfg := rfl
@[simp] theorem complete_peers (w : Nat × Nat) (o : CmdOutcome) (s : State) : (complete w o s).peers = s.peers := rfl
@[simp] theorem complete_sched (w : Nat × Nat) (o : CmdOutcome) (s : State) : (complete w o s).sched = s.sched := rfl
@[simp] theorem complete_regData (w : Nat × Nat) (o : CmdOutcome) (s : State) : (complete w o s).regData = s.regData := rfl
@[simp] theorem complete_memData (w : Nat × Nat) (o : CmdOutcome) (s : State) : (complete w o s).memData = s.memData := rfl
@[simp] theorem complete_draw (w : Nat × Nat) (o : CmdOutcome) (s : State) : (complete w o s).draw = s.draw + 1 := rfl

/-! ### startCommand -/

@[simp] theorem startCommand_cfg (v : Word) (s : State) : (startCommand v s).cfg = s.cfg := rfl
@[simp] theorem startCommand_mem (v : Word) (s : State) : (startCommand v s).mem = s.mem := rfl
@[simp] theorem startCommand_sched (v : Word) (s : State) : (startCommand v s).sched = s.sched := rfl
@[simp] theorem startCommand_regData (v : Word) (s : State) : (startCommand v s).regData = s.regData := rfl
@[simp] theorem startCommand_memData (v : Word) (s : State) : (startCommand v s).memData = s.memData := rfl
@[simp] theorem startCommand_draw (v : Word) (s : State) : (startCommand v s).draw = s.draw := rfl

/-! ### acceptCommand -/

@[simp] theorem acceptCommand_cfg (v : Word) (s : State) : (acceptCommand v s).cfg = s.cfg := rfl
@[simp] theorem acceptCommand_mem (v : Word) (s : State) : (acceptCommand v s).mem = s.mem := rfl
@[simp] theorem acceptCommand_sched (v : Word) (s : State) : (acceptCommand v s).sched = s.sched := rfl
@[simp] theorem acceptCommand_regData (v : Word) (s : State) : (acceptCommand v s).regData = s.regData := rfl
@[simp] theorem acceptCommand_memData (v : Word) (s : State) : (acceptCommand v s).memData = s.memData := rfl
@[simp] theorem acceptCommand_draw (v : Word) (s : State) : (acceptCommand v s).draw = s.draw := rfl

/-! ### resetBlocks -/

@[simp] theorem resetBlocks_cfg (s : State) : (resetBlocks s).cfg = s.cfg := rfl
@[simp] theorem resetBlocks_sched (s : State) : (resetBlocks s).sched = s.sched := rfl
@[simp] theorem resetBlocks_regData (s : State) : (resetBlocks s).regData = s.regData := rfl
@[simp] theorem resetBlocks_memData (s : State) : (resetBlocks s).memData = s.memData := rfl
@[simp] theorem resetBlocks_draw (s : State) : (resetBlocks s).draw = s.draw + 1 := rfl
@[simp] theorem resetBlocks_blk (s : State) : (resetBlocks s).blk = Block.reset s.blk.regBase := rfl
@[simp] theorem resetBlocks_mem (s : State) : (resetBlocks s).mem = resetMem s := rfl
@[simp] theorem resetBlocks_peers (s : State) : (resetBlocks s).peers = s.peers.map fun b => Block.reset b.regBase := rfl

/-! ### placeCommand -/

@[simp] theorem placeCommand_cfg (v : Word) (s : State) : (placeCommand v s).cfg = s.cfg := rfl
@[simp] theorem placeCommand_mem (v : Word) (s : State) : (placeCommand v s).mem = s.mem := rfl
@[simp] theorem placeCommand_regData (v : Word) (s : State) : (placeCommand v s).regData = s.regData := rfl
@[simp] theorem placeCommand_memData (v : Word) (s : State) : (placeCommand v s).memData = s.memData := rfl
@[simp] theorem placeCommand_draw (v : Word) (s : State) : (placeCommand v s).draw = s.draw := rfl
@[simp] theorem placeCommand_blk (v : Word) (s : State) : (placeCommand v s).blk = (acceptCommand v s).blk := rfl
@[simp] theorem placeCommand_peers (v : Word) (s : State) : (placeCommand v s).peers = (acceptCommand v s).peers := rfl
@[simp] theorem placeCommand_sched (v : Word) (s : State) : (placeCommand v s).sched = .complete (acceptCommand v s).blk.regBase :: s.sched := rfl

end Sys2Proof.Machine
end

