-- ==== Sys2Proof/Laws/Transforms.lean ====
section
/-! SUPPORT. What the transforms produce, by length: the bounds that keep a command inside its write window (R98, R105). -/

namespace Sys2Proof.Machine

@[simp] theorem encGroup_length (b0 b1 b2 : Byte) : (encGroup b0 b1 b2).length = 4 := rfl
@[simp] theorem encTail1_length (b0 : Byte) : (encTail1 b0).length = 4 := rfl
@[simp] theorem encTail2_length (b0 b1 : Byte) : (encTail2 b0 b1).length = 4 := rfl
@[simp] theorem decGroup_length (v0 v1 v2 v3 : BitVec 6) : (decGroup v0 v1 v2 v3).length = 3 := rfl
@[simp] theorem decTail2_length (v0 v1 : BitVec 6) : (decTail2 v0 v1).length = 1 := rfl
@[simp] theorem decTail3_length (v0 v1 v2 : BitVec 6) : (decTail3 v0 v1 v2).length = 2 := rfl

/-- Four characters for each whole or short group of three bytes. -/
theorem b64Encode_length (l : List Byte) : (b64Encode l).length = 4 * ceilDiv l.length 3 := by
  induction l using b64Encode.induct with
  | case1 => rfl
  | case2 b0 => simp [b64Encode, ceilDiv]
  | case3 b0 b1 => simp [b64Encode, ceilDiv]
  | case4 b0 b1 b2 rest ih =>
    simp only [b64Encode, List.length_append, encGroup_length, ih, List.length_cons, ceilDiv]
    omega

/-- Three bytes for each whole group of four values, one byte less than its values for a short group. -/
theorem decodeValues_length (l : List (BitVec 6)) :
    (decodeValues l).length = 3 * (l.length / 4) + (l.length % 4 - 1) := by
  induction l using decodeValues.induct with
  | case1 => rfl
  | case2 v0 => simp [decodeValues]
  | case3 v0 v1 => simp [decodeValues]
  | case4 v0 v1 v2 => simp [decodeValues]
  | case5 v0 v1 v2 v3 rest ih =>
    simp only [decodeValues, List.length_append, decGroup_length, ih, List.length_cons]
    omega

theorem pctEncodeByte_length (t : BitVec 256) (b : Byte) :
    (pctEncodeByte t b).length = if isSafe t b then 1 else 3 := by
  unfold pctEncodeByte; split <;> rfl

/-- The scan counts the encoder's output. -/
theorem pctEncode_length (t : BitVec 256) (l : List Byte) : (pctEncode t l).length = pctStrlen t l := by
  induction l with
  | nil => rfl
  | cons b rest ih => simp only [pctEncode, List.length_append, pctEncodeByte_length, ih, pctStrlen]

theorem pctStrlen_le (t : BitVec 256) (l : List Byte) : pctStrlen t l ≤ 3 * l.length := by
  induction l with
  | nil => exact Nat.le_refl 0
  | cons b rest ih => simp only [pctStrlen, List.length_cons]; split <;> omega

/-- A percent decode emits one byte for each byte or escape it consumes. -/
theorem pctDecode_length_le (l : List Byte) : (pctDecode l).length ≤ l.length := by
  induction l using pctDecode.induct with
  | case1 => exact Nat.le_refl 0
  | case2 h l rest ih => simpa [pctDecode] using ih
  | case3 h l rest r hr _ ih =>
    rw [show pctDecode (0x25#8 :: h :: l :: rest) = r :: pctDecode rest by simp [pctDecode, hr]]
    simp only [List.length_cons] at *
    omega
  | case4 h l rest hr _ ih =>
    rw [show pctDecode (0x25#8 :: h :: l :: rest) = 0x25#8 :: pctDecode (h :: l :: rest) by simp [pctDecode, hr]]
    simp only [List.length_cons] at *
    omega
  | case5 b h l rest h1 h2 ih =>
    simp only [pctDecode, if_neg h1, if_neg h2, List.length_cons] at *
    omega
  | case6 b tail hne ih =>
    rw [pctDecode]
    · simp only [List.length_cons]; omega
    · exact hne

theorem padCount_le (src : List Byte) : padCount src ≤ 2 := by
  unfold padCount
  dsimp only
  split
  · split <;> omega
  · omega

/-- Padding is taken off only from a source whose length is a multiple of 4. -/
theorem padCount_pos {src : List Byte} (h : 0 < padCount src) : 0 < src.length ∧ src.length % 4 = 0 := by
  unfold padCount at h
  dsimp only at h
  split at h
  · next hc => exact ⟨hc.1, hc.2.1⟩
  · omega

theorem dataPart_length (src : List Byte) : (dataPart src).length = src.length - padCount src := by
  simp [dataPart]

/-- Where every byte is valid, each has its value. -/
theorem filterMap_rev_length {data : List Byte} (h : firstInvalid data = none) :
    (data.filterMap rev).length = data.length := by
  induction data with
  | nil => rfl
  | cons c cs ih =>
    unfold firstInvalid at h
    split at h
    · cases h
    · next hc =>
      obtain ⟨v, hv⟩ := Option.ne_none_iff_exists'.1 hc
      rw [List.filterMap_cons_some hv, List.length_cons, List.length_cons, ih (by simpa using h)]

theorem invalidAt_none {data : List Byte} (h : invalidAt data = none) :
    firstInvalid data = none ∧ data.length % 4 ≠ 1 := by
  unfold invalidAt at h
  cases hf : firstInvalid data with
  | some k => simp [hf] at h
  | none => simpa [hf] using h

/-- The output of a successful decode is no longer than three quarters of its source (R142). -/
theorem decoded_length_le {src : List Byte} (h : invalidAt (dataPart src) = none) :
    (decodeValues ((dataPart src).filterMap rev)).length ≤ 3 * src.length / 4 := by
  obtain ⟨hv, hl⟩ := invalidAt_none h
  rw [decodeValues_length, filterMap_rev_length hv, dataPart_length]
  rw [dataPart_length] at hl
  have := padCount_le src
  omega

theorem finishLength_of_le {v : Nat} (h : v ≤ 2 ^ 32 - 1) : finishLength v = .finish v [] := by
  unfold finishLength; rw [if_neg (by omega)]

theorem finishLength_of_gt {v : Nat} (h : 2 ^ 32 - 1 < v) : finishLength v = .error .range 0#32 := by
  unfold finishLength; rw [if_pos h]

theorem b64EncodeLen_eq (n : Nat) : b64EncodeLen n = 4 * ((n + 2) / 3) + 1 := rfl

theorem b64DecodeLen_eq (n : Nat) : b64DecodeLen n = 3 * n / 4 + 2 := rfl

end Sys2Proof.Machine
end

