-- ==== Sys2Proof/Laws/Engine.lean ====
section
/-! SUPPORT. What the shared operations of the engine can do, said once: the form of every meaning, the two ways a command
ends, the outcome of its checks, what completion leaves alone, and that a command stays inside its write window. -/

namespace Sys2Proof.Machine

/-! ## Every meaning is the shared operation with its family rule -/

/-- The family rule of each command (R102), on LEN and the source bytes. -/
def familyRule (c : Config) : Instr → Nat → List Byte → CmdOutcome
  | .b64Enc, _, src => finishWith (b64Encode src)
  | .b64Dec, _, src => b64DecodeOutcome src
  | .b64EncLen, n, _ => finishLength (b64EncodeLen n)
  | .b64DecLen, n, _ => .finish (b64DecodeLen n) []
  | .pctEncStd, _, src => finishWith (pctEncode c.safeStd src)
  | .pctEncMin, _, src => finishWith (pctEncode c.safeMin src)
  | .pctStrlenStd, _, src => finishLength (pctStrlen c.safeStd src)
  | .pctStrlenMin, _, src => finishLength (pctStrlen c.safeMin src)
  | .pctDec, _, src => finishWith (pctDecode src)

theorem exec_eq_runCommand (i : Instr) (s : State) : exec i s = runCommand i (familyRule s.cfg i) s := by
  cases i <;> rfl

/-- A legal command is refused for its windows or completes with its outcome. -/
theorem runCommand_cases (i : Instr) (f : Nat → List Byte → CmdOutcome) (s : State) :
    (windowsRefused i s = true ∧ runCommand i f s = .refused .notOrdinaryMemory) ∨
    (windowsRefused i s = false ∧
      runCommand i f s = .next (complete (writeWindow i s.blk.eng) (commandOutcome i f s) s)) := by
  unfold runCommand
  cases h : windowsRefused i s <;> simp

/-- The one form of a next state of a command. -/
theorem exec_next {i : Instr} {s t : State} (h : exec i s = .next t) :
    windowsRefused i s = false ∧
      t = complete (writeWindow i s.blk.eng) (commandOutcome i (familyRule s.cfg i) s) s := by
  rw [exec_eq_runCommand] at h
  obtain ⟨_, h2⟩ | ⟨h1, h2⟩ := runCommand_cases i (familyRule s.cfg i) s
  · rw [h2] at h; cases h
  · rw [h2] at h; cases h; exact ⟨h1, rfl⟩

theorem exec_of_ordinary {i : Instr} {s : State} (h : windowsRefused i s = false) :
    exec i s = .next (complete (writeWindow i s.blk.eng) (commandOutcome i (familyRule s.cfg i) s) s) := by
  rw [exec_eq_runCommand]
  obtain ⟨h1, _⟩ | ⟨_, h2⟩ := runCommand_cases i (familyRule s.cfg i) s
  · rw [h] at h1; cases h1
  · exact h2

/-! ## Ranges -/

theorem rangesMeet_iff {r t : Nat × Nat} :
    rangesMeet r t = true ↔ 0 < r.2 ∧ 0 < t.2 ∧ r.1 < t.1 + t.2 ∧ t.1 < r.1 + r.2 := by simp [rangesMeet]

theorem inRange_iff {a : Nat} {r : Nat × Nat} : inRange a r = true ↔ r.1 ≤ a ∧ a < r.1 + r.2 := by simp [inRange]

/-- Two ranges meet exactly when some address is in both. -/
theorem rangesMeet_iff_common {r t : Nat × Nat} :
    rangesMeet r t = true ↔ ∃ a, inRange a r = true ∧ inRange a t = true := by
  simp only [rangesMeet_iff, inRange_iff]
  constructor
  · intro h; exact ⟨max r.1 t.1, by omega⟩
  · rintro ⟨a, h1, h2⟩; omega

/-- A range meets the listed ranges exactly when one of its addresses is in one of them. -/
theorem meetsAny_iff {rs : List (Nat × Nat)} {r : Nat × Nat} :
    meetsAny rs r = true ↔ ∃ a, inRange a r = true ∧ rs.any (inRange a) = true := by
  simp only [meetsAny, List.any_eq_true, rangesMeet_iff_common]
  constructor
  · rintro ⟨t, ht, a, h1, h2⟩; exact ⟨a, h1, t, ht, h2⟩
  · rintro ⟨a, h1, t, ht, h2⟩; exact ⟨t, ht, a, h1, h2⟩

theorem pastTop_iff {c : Config} {r : Nat × Nat} : pastTop c r = true ↔ 0 < r.2 ∧ spaceSize c < r.1 + r.2 := by
  simp [pastTop]

theorem pastTop_eq_false_iff {c : Config} {r : Nat × Nat} :
    pastTop c r = false ↔ r.2 = 0 ∨ r.1 + r.2 ≤ spaceSize c := by
  rw [← Bool.not_eq_true, pastTop_iff]; omega

/-! ## Checks and outcomes -/

theorem checkWindows_none {i : Instr} {c : Config} {e : Engine} :
    checkWindows i c e = none ↔ rangeFails i c e = false ∧ overlapFails i e = false := by
  unfold checkWindows
  cases rangeFails i c e <;> cases overlapFails i e <;> simp

/-- A command that passes its checks has both windows inside the data space. -/
theorem windows_fit {i : Instr} {c : Config} {e : Engine} (h : checkWindows i c e = none) :
    ((sourceWindow i e).2 = 0 ∨ (sourceWindow i e).1 + (sourceWindow i e).2 ≤ spaceSize c) ∧
    ((writeWindow i e).2 = 0 ∨ (writeWindow i e).1 + (writeWindow i e).2 ≤ spaceSize c) := by
  have h1 := (checkWindows_none.1 h).1
  rwa [rangeFails, Bool.or_eq_false_iff, pastTop_eq_false_iff, pastTop_eq_false_iff] at h1

theorem commandOutcome_of_fail {i : Instr} {f : Nat → List Byte → CmdOutcome} {s : State} {code : ErrCode}
    (h : checkWindows i s.cfg s.blk.eng = some code) : commandOutcome i f s = .error code 0#32 := by
  simp [commandOutcome, h]

theorem commandOutcome_of_pass {i : Instr} {f : Nat → List Byte → CmdOutcome} {s : State}
    (h : checkWindows i s.cfg s.blk.eng = none) :
    commandOutcome i f s = withBusErrors i s (f s.blk.eng.len.toNat (sourceBytes i s)) := by
  simp [commandOutcome, h]

@[simp] theorem sourceBytes_length (i : Instr) (s : State) :
    (sourceBytes i s).length = sourceSize i s.blk.eng.len.toNat := memReadBytes_length ..

/-- A bus error leaves an outcome that writes nothing, or the outcome itself. -/
theorem withBusErrors_cases (i : Instr) (s : State) (o : CmdOutcome) :
    withBusErrors i s o = o ∨ withBusErrors i s o = .error .bus (Config.freeErrInfo s.draw) := by
  unfold withBusErrors busReplace
  split
  · split
    · split <;> simp
    · exact .inr rfl
  · exact .inl rfl

/-! ## A command stays in its write window -/

/-- What an outcome writes fits the write window of R98 (R105: out + 1 <= MaxWrite). -/
theorem familyRule_written_le {c : Config} {i : Instr} {n : Nat} {src : List Byte} (hs : src.length = sourceSize i n)
    {r : Nat} {w : List Byte} (h : familyRule c i n src = .finish r w) : w.length ≤ maxWrite i n := by
  cases i <;> simp only [familyRule, finishWith, finishLength] at h
  case b64Enc =>
    obtain ⟨_, rfl⟩ := CmdOutcome.finish.inj h
    simp only [sourceSize, readsSource, if_true] at hs
    simp [b64Encode_length, hs, maxWrite]
  case b64Dec =>
    unfold b64DecodeOutcome at h
    split at h
    · cases h
    · next hv =>
      obtain ⟨_, rfl⟩ := CmdOutcome.finish.inj h
      have := decoded_length_le hv
      simp only [sourceSize, readsSource, if_true] at hs
      simp only [List.length_append, List.length_singleton, maxWrite]
      omega
  case b64EncLen =>
    split at h
    · cases h
    · obtain ⟨_, rfl⟩ := CmdOutcome.finish.inj h; exact Nat.zero_le _
  case b64DecLen => obtain ⟨_, rfl⟩ := CmdOutcome.finish.inj h; exact Nat.zero_le _
  case pctEncStd =>
    obtain ⟨_, rfl⟩ := CmdOutcome.finish.inj h
    simp only [sourceSize, readsSource, if_true] at hs
    have := pctStrlen_le c.safeStd src
    simp only [List.length_append, List.length_singleton, pctEncode_length, maxWrite]
    omega
  case pctEncMin =>
    obtain ⟨_, rfl⟩ := CmdOutcome.finish.inj h
    simp only [sourceSize, readsSource, if_true] at hs
    have := pctStrlen_le c.safeMin src
    simp only [List.length_append, List.length_singleton, pctEncode_length, maxWrite]
    omega
  case pctStrlenStd =>
    split at h
    · cases h
    · obtain ⟨_, rfl⟩ := CmdOutcome.finish.inj h; exact Nat.zero_le _
  case pctStrlenMin =>
    split at h
    · cases h
    · obtain ⟨_, rfl⟩ := CmdOutcome.finish.inj h; exact Nat.zero_le _
  case pctDec =>
    obtain ⟨_, rfl⟩ := CmdOutcome.finish.inj h
    simp only [sourceSize, readsSource, if_true] at hs
    have := pctDecode_length_le src
    simp only [List.length_append, List.length_singleton, maxWrite]
    omega

/-- A finishing outcome of a command passed its checks and wrote no more than its write window. -/
theorem commandOutcome_finish {i : Instr} {s : State} {r : Nat} {w : List Byte}
    (h : commandOutcome i (familyRule s.cfg i) s = .finish r w) :
    checkWindows i s.cfg s.blk.eng = none ∧ w.length ≤ maxWrite i s.blk.eng.len.toNat := by
  cases hc : checkWindows i s.cfg s.blk.eng with
  | some code => rw [commandOutcome_of_fail hc] at h; cases h
  | none =>
    rw [commandOutcome_of_pass hc] at h
    obtain h' | h' := withBusErrors_cases i s (familyRule s.cfg i s.blk.eng.len.toNat (sourceBytes i s))
    · rw [h'] at h; exact ⟨rfl, familyRule_written_le (sourceBytes_length i s) h⟩
    · rw [h'] at h; cases h

/-! ## What completion leaves alone -/

/-- A byte outside a window that holds what the outcome writes is not changed by the outcome. -/
theorem memRead_outcomeMem_outside {w : Nat × Nat} {s : State} {o : CmdOutcome} {a : Nat} (hm : Memory.wf s.mem = true)
    (hw : w.1 = s.blk.eng.dst.toNat) (ho : ∀ r bs, o = .finish r bs → bs.length ≤ w.2) (ha : a < w.1 ∨ w.1 + w.2 ≤ a) :
    memRead (outcomeMem w s o) a = memRead s.mem a := by
  cases o with
  | finish r bs =>
    have := ho r bs rfl
    exact memRead_memWriteBytes_outside bs hm (by omega)
  | error code info => cases code <;> first | rfl | exact memRead_memScrambleIn_outside _ _ hm w ha

/-- Completion without a hazard: the outcome's registers. -/
theorem complete_blk_of_calm {w : Nat × Nat} {o : CmdOutcome} {s : State} (h : s.blk.eng.hazard = false) :
    (complete w o s).blk = outcomeBlock s.blk o := by simp [complete, h]

/-- Completion with no data byte unspecified: the outcome's data writes. -/
theorem complete_mem_of_calm {w : Nat × Nat} {o : CmdOutcome} {s : State} (h : s.blk.eng.windowHazard = false)
    (hf : s.blk.eng.foul = []) : (complete w o s).mem = outcomeMem w s o := by simp [complete, h, hf]

/-- The registers of a completion are a closing of the command, whatever the outcome and under a hazard too. -/
theorem complete_blk_eq_close (w : Nat × Nat) (o : CmdOutcome) (s : State) :
    ∃ r i c, (complete w o s).blk = closeCommand r i c s.blk := by
  cases hz : s.blk.eng.hazard
  · rw [complete_blk_of_calm hz]
    cases o with
    | finish r bs => exact ⟨_, _, _, rfl⟩
    | error code info => exact ⟨_, _, _, rfl⟩
  · exact ⟨Config.freeResult s.draw, Config.freeErrInfo s.draw, Config.freeErrCode s.draw, by simp [complete, hz, hazardBlock]⟩

theorem outcomeMem_wf {w : Nat × Nat} {s : State} (o : CmdOutcome) (hm : Memory.wf s.mem = true) :
    Memory.wf (outcomeMem w s o) = true := by
  cases o with
  | finish r bs => exact memWriteBytes_wf bs hm _
  | error code info => cases code <;> first | exact hm | exact memScrambleIn_wf _ _ hm w

/-- Completion keeps the canonical form of data memory. -/
theorem complete_mem_wf {w : Nat × Nat} {s : State} (o : CmdOutcome) (hm : Memory.wf s.mem = true) :
    Memory.wf (complete w o s).mem = true := by
  refine foldl_memScrambleIn_wf _ _ _ ?_
  split
  · exact memScrambleIn_wf _ _ hm w
  · exact outcomeMem_wf o hm

theorem outcomeMem_inSpace {w : Nat × Nat} {s : State} {o : CmdOutcome}
    (hm : memInSpace s.mem (spaceSize s.cfg) = true)
    (ho : ∀ r bs, o = .finish r bs → bs = [] ∨ s.blk.eng.dst.toNat + bs.length ≤ spaceSize s.cfg) :
    memInSpace (outcomeMem w s o) (spaceSize s.cfg) = true := by
  cases o with
  | finish r bs =>
    obtain rfl | h := ho r bs rfl
    · exact hm
    · exact memInSpace_memWriteBytes bs hm h
  | error code info => cases code <;> first | exact hm | exact memInSpace_memScrambleIn _ w hm

/-- Completion keeps data memory in the data space. -/
theorem complete_mem_inSpace {w : Nat × Nat} {s : State} {o : CmdOutcome}
    (hm : memInSpace s.mem (spaceSize s.cfg) = true)
    (ho : ∀ r bs, o = .finish r bs → bs = [] ∨ s.blk.eng.dst.toNat + bs.length ≤ spaceSize s.cfg) :
    memInSpace (complete w o s).mem (spaceSize s.cfg) = true := by
  refine memInSpace_foldl_memScrambleIn _ _ ?_
  split
  · exact memInSpace_memScrambleIn _ w hm
  · exact outcomeMem_inSpace hm ho

end Sys2Proof.Machine
end

