-- ==== Sys2Proof/Laws/Admitted.lean ====
section
/-! SUPPORT. The terms of the statements against the shared operations: what an admitted command's checks give, and the form of
its next state. -/

namespace Sys2Proof.Machine

theorem undisturbed_iff {b : Block} :
    undisturbed b = true ↔ b.eng.hazard = false ∧ b.eng.windowHazard = false ∧ b.eng.foul = [] := by
  simp [undisturbed, List.isEmpty_iff, and_assoc]

theorem rangesMeet_eq_false_iff {r t : Nat × Nat} : rangesMeet r t = false ↔ Apart r.1 r.2 t.1 t.2 := by
  rw [← Bool.not_eq_true, rangesMeet_iff]; unfold Apart; omega

/-- A range with no address in the listed ranges meets none of them. -/
theorem meetsAny_eq_false {rs : List (Nat × Nat)} {a n : Nat} (h : ∀ k, k < n → rs.any (inRange (a + k)) = false) :
    meetsAny rs (a, n) = false := by
  rw [← Bool.not_eq_true, meetsAny_iff]
  rintro ⟨c, hc, hr⟩
  obtain ⟨h1, h2⟩ := inRange_iff.1 hc
  have := h (c - a) (by dsimp at *; omega)
  rw [show a + (c - a) = c by dsimp at *; omega, hr] at this
  cases this

/-- A range with an address in the listed ranges meets one of them. -/
theorem meetsAny_of_mem {rs : List (Nat × Nat)} {a n k : Nat} (hk : k < n) (h : rs.any (inRange (a + k)) = true) :
    meetsAny rs (a, n) = true :=
  meetsAny_iff.2 ⟨a + k, inRange_iff.2 ⟨Nat.le_add_right a k, Nat.add_lt_add_left hk a⟩, h⟩

/-- Windows that fit and are apart pass checks 2 and 3. -/
theorem checkWindows_of_fits {i : Instr} {c : Config} {e : Engine} (h1 : Fits c e.src.toNat (sourceSize i e.len.toNat))
    (h2 : Fits c e.dst.toNat (maxWrite i e.len.toNat))
    (h3 : Apart e.src.toNat (sourceSize i e.len.toNat) e.dst.toNat (maxWrite i e.len.toNat)) :
    checkWindows i c e = none := by
  rw [checkWindows_none, overlapFails, rangesMeet_eq_false_iff, rangeFails, Bool.or_eq_false_iff,
    pastTop_eq_false_iff, pastTop_eq_false_iff]
  exact ⟨⟨h1, h2⟩, h3⟩

/-- An admitted command passes its checks and is not refused for its windows. -/
theorem checks_of_admitted {i : Instr} {s : State}
    (h : Admitted s (sourceSize i s.blk.eng.len.toNat) (maxWrite i s.blk.eng.len.toNat)) :
    checkWindows i s.cfg s.blk.eng = none ∧ windowsRefused i s = false := by
  obtain ⟨_, _, h1, h2, h3, h4, h5⟩ := h
  refine ⟨checkWindows_of_fits h1 h2 h3, ?_⟩
  have ht : touchesDevice i s.cfg s.blk.eng = false := by
    rw [touchesDevice, sourceWindow, writeWindow, meetsAny_eq_false h4, meetsAny_eq_false h5]; rfl
  rw [windowsRefused, ht, Bool.and_false]

/-- The family rule's outcome on the source bytes, before bus errors. -/
def rawOutcome (i : Instr) (s : State) : CmdOutcome := familyRule s.cfg i s.blk.eng.len.toNat (sourceBytes i s)

/-- An admitted command's next state. -/
theorem exec_of_admitted {i : Instr} {s : State}
    (h : Admitted s (sourceSize i s.blk.eng.len.toNat) (maxWrite i s.blk.eng.len.toNat)) :
    exec i s = .next (complete (writeWindow i s.blk.eng) (withBusErrors i s (rawOutcome i s)) s) := by
  obtain ⟨hc, hr⟩ := checks_of_admitted h
  rw [exec_of_ordinary hr, commandOutcome_of_pass hc]
  rfl

/-- With no bus error on what it reads and would write, the outcome stands. -/
theorem withBusErrors_of_quiet {i : Instr} {s : State} {o : CmdOutcome}
    (h : BusQuiet s (sourceSize i s.blk.eng.len.toNat) (outcomeRange i s.blk.eng o).2) : withBusErrors i s o = o := by
  have hfst : (outcomeRange i s.blk.eng o).1 = s.blk.eng.dst.toNat := by
    cases o with
    | finish r w => rfl
    | error code info => cases code <;> rfl
  have h2 : meetsAny s.cfg.busErr (outcomeRange i s.blk.eng o) = false := by
    rw [← Prod.mk.eta (p := outcomeRange i s.blk.eng o), hfst]; exact meetsAny_eq_false h.2
  have h1 : meetsAny s.cfg.busErr (sourceWindow i s.blk.eng) = false := meetsAny_eq_false h.1
  rw [withBusErrors, busHit, h1, h2]; rfl

/-- A completion whose results are specified, in the terms of the statements. -/
theorem completedWith_of_calm (w : Nat × Nat) {o : CmdOutcome} {s : State} (h : s.blk.eng.hazard = false)
    {r i : Word} {c : BitVec 4} (ho : outcomeBlock s.blk o = closeCommand r i c s.blk) :
    CompletedWith s (complete w o s) r i c := by
  have hb : (complete w o s).blk = closeCommand r i c s.blk := by rw [complete_blk_of_calm h, ho]
  unfold CompletedWith
  exact congrArg (fun b => ({ s with mem := (complete w o s).mem, blk := b, draw := s.draw + 1 } : State)) hb

theorem finished_of_calm (w : Nat × Nat) {s : State} (h : s.blk.eng.hazard = false) {n : Nat} (hn : n < 2 ^ 32)
    (bs : List Byte) : Finished s (complete w (.finish n bs) s) n :=
  ⟨hn, completedWith_of_calm w h rfl⟩

theorem failed_of_calm (w : Nat × Nat) {s : State} (h : s.blk.eng.hazard = false) (code : ErrCode) (info : Word) :
    Failed s (complete w (.error code info) s) (errCodeBits code) info := completedWith_of_calm w h rfl

theorem mem_of_calm (w : Nat × Nat) {s : State} (h : undisturbed s.blk = true) (o : CmdOutcome) :
    (complete w o s).mem = outcomeMem w s o :=
  complete_mem_of_calm (undisturbed_iff.1 h).2.1 (undisturbed_iff.1 h).2.2

/-- An admitted command that finishes: its registers and exactly its bytes (R104, R105). -/
theorem exec_finish_of_admitted {i : Instr} {s : State} {r : Nat} {bs : List Byte}
    (h : Admitted s (sourceSize i s.blk.eng.len.toNat) (maxWrite i s.blk.eng.len.toNat))
    (ho : rawOutcome i s = .finish r bs) (hq : BusQuiet s (sourceSize i s.blk.eng.len.toNat) bs.length)
    (hr : r < 2 ^ 32) :
    ∃ t, exec i s = .next t ∧ Finished s t r ∧ t.mem = memWriteBytes s.mem s.blk.eng.dst.toNat bs := by
  have hw : withBusErrors i s (rawOutcome i s) = .finish r bs := by
    rw [withBusErrors_of_quiet]
    · exact ho
    · rw [ho]; exact hq
  exact ⟨_, by rw [exec_of_admitted h, hw], finished_of_calm _ (undisturbed_iff.1 h.2.1).1 hr bs, mem_of_calm _ h.2.1 _⟩

/-- Where exactly the bytes bs were stored from eng.DST on: inside and outside of them. -/
theorem onlyWrote_of_writeBytes {s t : State} {bs : List Byte} (hm : Memory.wf s.mem = true)
    (h : t.mem = memWriteBytes s.mem s.blk.eng.dst.toNat bs) : OnlyWrote s t bs.length := fun a ha => by
  rw [h]; exact memRead_memWriteBytes_outside bs hm ha

theorem dstByte_of_writeBytes {s t : State} {bs : List Byte} (hm : Memory.wf s.mem = true)
    (h : t.mem = memWriteBytes s.mem s.blk.eng.dst.toNat bs) {k : Nat} {v : Byte} (hk : bs[k]? = some v) :
    dstByte s t k = v := by
  obtain ⟨hlt, rfl⟩ := List.getElem?_eq_some_iff.1 hk
  rw [dstByte, h]; exact memRead_memWriteBytes_inside bs hm _ hlt

theorem getElem?_sourceBytes {i : Instr} {s : State} {k : Nat} (hk : k < sourceSize i s.blk.eng.len.toNat) :
    (sourceBytes i s)[k]? = some (srcByte s k) := by
  rw [sourceBytes, getElem?_memReadBytes, if_pos hk]; rfl

end Sys2Proof.Machine
end

