-- ==== Sys2Proof/Laws/Encoding.lean ====
section
/-! SUPPORT. The byte lanes of a word (R55). -/

namespace Sys2Proof

/-- A bit of a word on its byte lanes. -/
theorem getLsbD_wordOfLanes (b0 b1 b2 b3 : Byte) (k : Nat) :
    (wordOfLanes b0 b1 b2 b3).getLsbD k =
      if k < 8 then b0.getLsbD k
      else if k < 16 then b1.getLsbD (k - 8)
      else if k < 24 then b2.getLsbD (k - 16)
      else b3.getLsbD (k - 24) := by
  unfold wordOfLanes
  change BitVec.getLsbD (w := 8 + 8 + 8 + 8) (b3 ++ b2 ++ b1 ++ b0) k = _
  simp only [BitVec.getLsbD_append]
  by_cases h1 : k < 8
  · simp [h1]
  · by_cases h2 : k < 16
    · simp [h1, h2, show k - 8 < 8 by omega]
    · by_cases h3 : k < 24
      · simp [h1, h2, h3, show ¬ k - 8 < 8 by omega, show k - 16 < 8 by omega, show k - 8 - 8 = k - 16 by omega]
      · simp [h1, h2, h3, show ¬ k - 8 < 8 by omega, show ¬ k - 8 - 8 < 8 by omega,
          show k - 8 - 8 - 8 = k - 24 by omega]

/-- The lanes of the word on four lanes are those lanes. -/
theorem lanesOfWord_wordOfLanes (b0 b1 b2 b3 : Byte) : lanesOfWord (wordOfLanes b0 b1 b2 b3) = [b0, b1, b2, b3] := by
  have lane : ∀ (o : Nat) (b : Byte), (∀ k, k < 8 → (wordOfLanes b0 b1 b2 b3).getLsbD (o + k) = b.getLsbD k) →
      (wordOfLanes b0 b1 b2 b3).extractLsb' o 8 = b := by
    intro o b h
    apply BitVec.eq_of_getLsbD_eq
    intro k hk
    rw [BitVec.getLsbD_extractLsb', h k hk]
    simp [hk]
  simp only [lanesOfWord, List.cons.injEq, and_true]
  refine ⟨lane 0 b0 ?_, lane 8 b1 ?_, lane 16 b2 ?_, lane 24 b3 ?_⟩ <;> intro k hk <;>
    rw [getLsbD_wordOfLanes]
  · simp [hk]
  · simp [hk, show ¬ 8 + k < 8 by omega, show 8 + k < 16 by omega]
  · simp [show ¬ 16 + k < 8 by omega, show ¬ 16 + k < 16 by omega, show 16 + k < 24 by omega]
  · simp [show ¬ 24 + k < 8 by omega, show ¬ 24 + k < 16 by omega, show ¬ 24 + k < 24 by omega]

end Sys2Proof
end

