-- ==== Sys2Proof/Laws/Host.lean ====
section
/-! SUPPORT. What the host's side and the choice of the acting instance can do, said once: which instance an access reaches,
the step of a register access to the acting instance and of its engine, what a start beside other running instances marks,
and what reset does to data memory. -/

namespace Sys2Proof.Machine

/-! ## Which instance acts -/

theorem focusOn_of_pos {p : Block → Bool} {s : State} (h : p s.blk = true) : focusOn p s = some s := by
  rw [focusOn, if_pos h]

/-- The first block that satisfies p is found, and the others keep their order. -/
theorem takeBlock_of_first {p : Block → Bool} :
    ∀ {bs : List Block} {k : Nat} {b : Block}, bs[k]? = some b → p b = true → (∀ c ∈ bs.eraseIdx k, p c = false) →
      takeBlock p bs = some (b, bs.eraseIdx k)
  | [], k, b, h, _, _ => by simp at h
  | c :: cs, 0, b, h, hb, _ => by
    obtain rfl : c = b := by simpa using h
    simp [takeBlock, hb]
  | c :: cs, k + 1, b, h, hb, hc => by
    have hcs := takeBlock_of_first (k := k) (by simpa using h) hb fun d hd => hc d (by simp [hd])
    simp [takeBlock, hc c (by simp), hcs]

/-- Taking a block out only reorders the blocks. -/
theorem takeBlock_perm {p : Block → Bool} :
    ∀ {bs : List Block} {r : Block × List Block}, takeBlock p bs = some r → (r.1 :: r.2).Perm bs
  | [], r, h => by cases h
  | c :: cs, r, h => by
    unfold takeBlock at h
    split at h
    · cases h; exact .refl _
    · obtain ⟨q, hq, rfl⟩ := Option.map_eq_some_iff.1 h
      exact .trans (.swap ..) ((takeBlock_perm hq).cons c)

/-- Where another instance is brought to act, only `blk` and `peers` are rearranged. -/
theorem focusOn_perm {p : Block → Bool} {s t : State} (h : focusOn p s = some t) :
    t = { s with blk := t.blk, peers := t.peers } ∧ (allBlocks t).Perm (allBlocks s) := by
  unfold focusOn at h
  split at h
  · cases h; exact ⟨rfl, .refl _⟩
  · obtain ⟨r, hr, rfl⟩ := Option.map_eq_some_iff.1 h
    exact ⟨rfl, .trans (.swap ..) ((takeBlock_perm hr).cons _)⟩

/-! ## Steps of the acting instance -/

theorem windowHolds_self {b : Block} {offset : Nat} (h : offset < 0x40) : windowHolds (b.regBase + offset) b = true := by
  simp [windowHolds, inRange, h]

theorem step_regWrite {s : State} {offset width : Nat} {v : Word} {rest : List Event} (ho : offset < 0x40)
    (h : s.sched = .regWrite (s.blk.regBase + offset) width v :: rest) :
    step s = .next (writeReg offset width v { s with sched := rest }) := by
  have hf : focusOn (windowHolds (s.blk.regBase + offset)) { s with sched := rest } = some { s with sched := rest } :=
    focusOn_of_pos (windowHolds_self ho)
  simp only [step, nextTurn, h, runEvent, hostRegWrite, hf, Nat.add_sub_cancel_left]

theorem step_regRead {s : State} {offset width : Nat} {rest : List Event} (ho : offset < 0x40)
    (h : s.sched = .regRead (s.blk.regBase + offset) width :: rest) :
    step s = .next { s with sched := rest, regData := readReg s.blk offset width } := by
  have hf : focusOn (windowHolds (s.blk.regBase + offset)) { s with sched := rest } = some { s with sched := rest } :=
    focusOn_of_pos (windowHolds_self ho)
  simp only [step, nextTurn, h, runEvent, hostRegRead, hf, Nat.add_sub_cancel_left]

/-- A host write of an ordinary data byte. -/
theorem step_memWrite {s : State} {a : Nat} {v : Byte} {rest : List Event} (ha : a < 2 ^ s.cfg.addrW)
    (hd : s.cfg.device.any (inRange a) = false) (h : s.sched = .memWrite a v :: rest) :
    step s = .next
      { s with mem := memWrite s.mem a v, blk := hostWrote a s.blk, peers := s.peers.map (hostWrote a), sched := rest } := by
  simp only [step, nextTurn, h, runEvent, hostMemWrite, guardData, spaceSize, if_neg (Nat.not_le.2 ha), hd,
    Bool.false_eq_true, if_false]

/-- A host write marks the command it touches and changes nothing else of the instance. -/
theorem hostWrote_eq (a : Nat) (b : Block) :
    ∃ hz wh, hostWrote a b = { b with eng := { b.eng with hazard := hz, windowHazard := wh } } := by
  by_cases hb : b.busy = true
  · exact ⟨_, _, if_pos hb⟩
  · exact ⟨b.eng.hazard, b.eng.windowHazard, if_neg hb⟩

/-- A host write outside the windows of a running command leaves the instance alone. -/
theorem hostWrote_of_outside {a : Nat} {b : Block}
    (h : (b.busy && (inRange a (blockSource b) || inRange a (blockWindow b))) = false) : hostWrote a b = b := by
  by_cases hb : b.busy = true
  · rw [hb, Bool.true_and, Bool.or_eq_false_iff] at h
    refine (if_pos hb).trans ?_
    rw [h.1, h.2, Bool.or_false, Bool.or_false, Bool.or_false]
  · exact if_neg hb

/-- The acting instance's engine moves next, by an empty schedule or by its entry. -/
theorem step_engine {s : State} (hr : s.blk.eng.state = .run)
    (h : s.sched = [] ∨ ∃ rest, s.sched = .complete s.blk.regBase :: rest) :
    ∃ rest, step s = engineTurn { s with sched := rest } := by
  obtain h | ⟨rest, h⟩ := h
  · have hs : ({ s with sched := [] } : State) = s := by rw [← h]
    have hf : focusOn isRunning s = some s := focusOn_of_pos (by simp [isRunning, hr])
    exact ⟨[], by rw [hs]; simp only [step, nextTurn, h, engineTurnOf, hf]⟩
  · have hf : focusOn (fun b => b.regBase == s.blk.regBase) { s with sched := rest } = some { s with sched := rest } :=
      focusOn_of_pos (beq_self_eq_true _)
    exact ⟨rest, by simp only [step, nextTurn, h, runEvent, engineTurnOf, hf]⟩

/-! ## Starting beside other running instances -/

/-- The bytes of `commonRange` are those in both ranges. -/
theorem commonRange_any {r t : Nat × Nat} {a : Nat} :
    (commonRange r t).any (inRange a) = true ↔ inRange a r = true ∧ inRange a t = true := by
  unfold commonRange
  split
  · next h =>
    rw [rangesMeet_iff] at h
    simp only [List.any_cons, List.any_nil, Bool.or_false, rangesMeetIn, inRange_iff]
    omega
  · next h =>
    rw [rangesMeet_iff_common] at h
    exact ⟨fun h' => by simp at h', fun h' => absurd ⟨a, h'⟩ h⟩

/-- The windows of an instance depend on its latched word, opcode and operands alone. -/
theorem windows_of_latches {b c : Block} (h1 : b.eng.cmdw = c.eng.cmdw) (h2 : b.eng.op = c.eng.op)
    (h3 : b.eng.src = c.eng.src) (h4 : b.eng.dst = c.eng.dst) (h5 : b.eng.len = c.eng.len) :
    blockWindow b = blockWindow c ∧ blockSource b = blockSource c := by
  unfold blockWindow blockSource latchedInstr writeWindow sourceWindow
  rw [h1, h2, h3, h4, h5]
  exact ⟨rfl, rfl⟩

/-- A command that passes its checks has windows that do not meet. -/
theorem windows_of_passesChecks {c : Config} {b : Block} (h : passesChecks c b.eng = true) :
    rangesMeet (blockSource b) (blockWindow b) = false := by
  unfold passesChecks at h
  unfold blockSource blockWindow
  cases hi : latchedInstr b.eng with
  | none => rw [hi] at h; cases h
  | some i =>
    rw [hi] at h
    exact (checkWindows_none.1 (Option.isNone_iff_eq_none.1 h)).2

@[simp] theorem blockWindow_clashWith (c : Config) (o b : Block) : blockWindow (clashWith c o b) = blockWindow b := rfl
@[simp] theorem blockSource_clashWith (c : Config) (o b : Block) : blockSource (clashWith c o b) = blockSource b := rfl
@[simp] theorem passesChecks_clashWith (c : Config) (o b : Block) :
    passesChecks c (clashWith c o b).eng = passesChecks c b.eng := rfl
@[simp] theorem readsClash_clashWith (c : Config) (q o b : Block) :
    readsClash c q (clashWith c o b) = readsClash c q b := rfl

/-- The bytes that one running instance leaves unspecified for another. -/
theorem clashWith_foul_any {c : Config} {o b : Block} {a : Nat} :
    (clashWith c o b).eng.foul.any (inRange a) = true ↔
      b.eng.foul.any (inRange a) = true ∨
        inRange a (blockWindow b) = true ∧ (inRange a (blockWindow o) = true ∨ inRange a (blockSource o) = true) := by
  simp only [clashWith_eng_foul, List.any_append, Bool.or_eq_true, commonRange_any, and_or_left, or_assoc]

/-- What the running instances of a list do to a command that starts beside them: marks on its engine, nothing else. -/
def clashAll (c : Config) (ps : List Block) (b : Block) : Block :=
  ps.foldl (fun b p => if p.eng.state = .run then clashWith c p b else b) b

theorem clashAll_cons_run {c : Config} {p : Block} (h : p.eng.state = .run) (ps : List Block) (b : Block) :
    clashAll c (p :: ps) b = clashAll c ps (clashWith c p b) := by simp [clashAll, h]

theorem clashAll_cons_idle {c : Config} {p : Block} (h : p.eng.state ≠ .run) (ps : List Block) (b : Block) :
    clashAll c (p :: ps) b = clashAll c ps b := by simp [clashAll, h]

theorem clashAll_eq (c : Config) (ps : List Block) :
    ∀ b, ∃ hz wh fl,
      clashAll c ps b = { b with eng := { b.eng with hazard := hz, windowHazard := wh, foul := fl } } := by
  induction ps with
  | nil => exact fun b => ⟨b.eng.hazard, b.eng.windowHazard, b.eng.foul, rfl⟩
  | cons p ps ih =>
    intro b
    by_cases hr : p.eng.state = .run
    · rw [clashAll_cons_run hr]; exact ih (clashWith c p b)
    · rw [clashAll_cons_idle hr]; exact ih b

/-- The results of the command are left unspecified by the running instances whose bytes it reads. -/
theorem clashAll_hazard (c : Config) (ps : List Block) :
    ∀ b, (clashAll c ps b).eng.hazard = true ↔
      b.eng.hazard = true ∨ ∃ p ∈ ps, p.eng.state = .run ∧ readsClash c p b = true := by
  induction ps with
  | nil => intro b; simp [clashAll]
  | cons p ps ih =>
    intro b
    by_cases hr : p.eng.state = .run
    · rw [clashAll_cons_run hr, ih]; simp [hr, or_assoc]
    · rw [clashAll_cons_idle hr, ih]; simp [hr]

/-- And so is its write window, by the same instances. -/
theorem clashAll_windowHazard (c : Config) (ps : List Block) :
    ∀ b, (clashAll c ps b).eng.windowHazard = true ↔
      b.eng.windowHazard = true ∨ ∃ p ∈ ps, p.eng.state = .run ∧ readsClash c p b = true := by
  induction ps with
  | nil => intro b; simp [clashAll]
  | cons p ps ih =>
    intro b
    by_cases hr : p.eng.state = .run
    · rw [clashAll_cons_run hr, ih]; simp [hr, or_assoc]
    · rw [clashAll_cons_idle hr, ih]; simp [hr]

theorem clashAll_foul_any {c : Config} {a : Nat} (ps : List Block) :
    ∀ b, (clashAll c ps b).eng.foul.any (inRange a) = true ↔
      b.eng.foul.any (inRange a) = true ∨ ∃ p ∈ ps, p.eng.state = .run ∧ inRange a (blockWindow b) = true ∧
        (inRange a (blockWindow p) = true ∨ inRange a (blockSource p) = true) := by
  induction ps with
  | nil => intro b; simp [clashAll]
  | cons p ps ih =>
    intro b
    by_cases hr : p.eng.state = .run
    · rw [clashAll_cons_run hr, ih, clashWith_foul_any, blockWindow_clashWith]
      simp only [List.exists_mem_cons_iff, hr, true_and, or_assoc]
    · rw [clashAll_cons_idle hr, ih]
      simp only [List.exists_mem_cons_iff, hr, false_and, false_or]

/-- An accepted GO write: the started command with the marks of the running instances, and their marks from it. -/
theorem acceptCommand_eq (v : Word) (s : State) :
    acceptCommand v s =
      let b := latchCommand s.cfg.addrW s.mem v { s.blk with cmdOp := v.extractLsb' 0 4 }
      { s with
        blk := clashAll s.cfg s.peers b
        peers := s.peers.map fun p => if p.eng.state = .run then clashWith s.cfg b p else p } := rfl

/-! ## Reset -/

@[simp] theorem abortedRanges_of_not_busy {c : Config} {b : Block} (h : b.busy = false) : abortedRanges c b = [] := by
  simp [abortedRanges, h]

/-- A range an instance leaves unspecified at a reset: its write window, where it runs a command that passes its checks, or a
range that R70 leaves unspecified. -/
theorem mem_abortedRanges {c : Config} {b : Block} {r : Nat × Nat} :
    r ∈ abortedRanges c b ↔
      b.busy = true ∧ (passesChecks c b.eng = true ∧ r = blockWindow b ∨ r ∈ b.eng.foul) := by
  unfold abortedRanges
  cases b.busy <;> cases passesChecks c b.eng <;> simp

/-- A byte that no running command may have written keeps its value over a reset. -/
theorem memRead_resetMem_outside {s : State} {a : Nat} (hm : Memory.wf s.mem = true)
    (h : ∀ b ∈ allBlocks s, ∀ r ∈ abortedRanges s.cfg b, inRange a r = false) :
    memRead (resetMem s) a = memRead s.mem a := by
  refine memRead_foldl_memScrambleIn_outside _ _ _ hm fun r hr => ?_
  obtain ⟨b, hb, hr⟩ := List.mem_flatMap.1 hr
  have := h b hb r hr
  simp only [inRange, decide_eq_false_iff_not] at this
  omega

theorem resetMem_wf {s : State} (hm : Memory.wf s.mem = true) : Memory.wf (resetMem s) = true :=
  foldl_memScrambleIn_wf _ _ _ hm

theorem resetMem_inSpace {s : State} (hm : memInSpace s.mem (spaceSize s.cfg) = true) :
    memInSpace (resetMem s) (spaceSize s.cfg) = true := memInSpace_foldl_memScrambleIn _ _ hm

end Sys2Proof.Machine
end

