-- ==== Sys2Proof/Laws/PerInstr.lean ====
section
/-! SUPPORT. A fact about every command as syntax, one lemma per constructor: its opcode is an assigned one (R78, R81), and
the command word with it is well formed (R82). -/

namespace Sys2Proof.Laws.OpcodeAssigned

/-- The command is well formed, its command word with GO = 1 and RSV = 0 is, and the opcode map gives the command back. -/
def Statement (i : Instr) : Prop :=
  i.wf = true ∧ CmdWord.wf { go := true, rsv := 0#27, op := opcodeOf i } = true ∧ opcodeInstr (opcodeOf i) = some i

theorem b64Enc : Statement .b64Enc := by unfold Statement; decide
theorem b64Dec : Statement .b64Dec := by unfold Statement; decide
theorem b64EncLen : Statement .b64EncLen := by unfold Statement; decide
theorem b64DecLen : Statement .b64DecLen := by unfold Statement; decide
theorem pctEncStd : Statement .pctEncStd := by unfold Statement; decide
theorem pctEncMin : Statement .pctEncMin := by unfold Statement; decide
theorem pctStrlenStd : Statement .pctStrlenStd := by unfold Statement; decide
theorem pctStrlenMin : Statement .pctStrlenMin := by unfold Statement; decide
theorem pctDec : Statement .pctDec := by unfold Statement; decide

end Sys2Proof.Laws.OpcodeAssigned
end

