-- ==== Sys2Proof/Machine/Assembly.lean ====
section
/-! DEFINITION. The host-side notation of 30_encoding.md R84 and the pseudo-instructions of R85, each as the schedule of
register accesses it stands for, at the register window of one instance. -/

namespace Sys2Proof.Machine

/-- `WR <reg>, <value>` (R84). -/
def asmWr (regBase offset : Nat) (v : Word) : List Event := [.regWrite (regBase + offset) 4 v]

/-- `RD <reg>` (R84). -/
def asmRd (regBase offset : Nat) : List Event := [.regRead (regBase + offset) 4]

/-- `WAIT` (R84) after a GO write: the engine completes, and the STATUS read that follows sees DONE = 1. -/
def asmWait (regBase : Nat) : List Event := .complete regBase :: asmRd regBase 0x0C

/-- `ACK` (R84). -/
def asmAck (regBase : Nat) : List Event := asmWr regBase 0x0C 0x00000002#32

/-- The GO write of a command. -/
def asmGo (regBase : Nat) (i : Instr) : List Event := asmWr regBase 0x08 (encode i)

/-- A pseudo-instruction with destination, source and length (R85). -/
def asmMove (regBase : Nat) (i : Instr) (dst src len : Word) : List Event :=
  asmWr regBase 0x10 src ++ asmWr regBase 0x14 dst ++ asmWr regBase 0x18 len ++ asmGo regBase i

/-- `B64ENC dst, src, len` (R85). -/
def asmB64Enc (regBase : Nat) (dst src len : Word) : List Event := asmMove regBase .b64Enc dst src len

/-- `B64DEC dst, src, len` (R85). -/
def asmB64Dec (regBase : Nat) (dst src len : Word) : List Event := asmMove regBase .b64Dec dst src len

/-- `B64ENCLEN n` (R85). -/
def asmB64EncLen (regBase : Nat) (n : Word) : List Event := asmWr regBase 0x18 n ++ asmGo regBase .b64EncLen

/-- `B64DECLEN n` (R85). -/
def asmB64DecLen (regBase : Nat) (n : Word) : List Event := asmWr regBase 0x18 n ++ asmGo regBase .b64DecLen

/-- `PCTENC dst, src, len` (R85). -/
def asmPctEnc (regBase : Nat) (dst src len : Word) : List Event := asmMove regBase .pctEncStd dst src len

/-- `PCTENCMIN dst, src, len` (R85). -/
def asmPctEncMin (regBase : Nat) (dst src len : Word) : List Event := asmMove regBase .pctEncMin dst src len

/-- A pseudo-instruction with source and length (R85). -/
def asmScan (regBase : Nat) (i : Instr) (src len : Word) : List Event :=
  asmWr regBase 0x10 src ++ asmWr regBase 0x18 len ++ asmGo regBase i

/-- `PCTLEN src, len` (R85). -/
def asmPctLen (regBase : Nat) (src len : Word) : List Event := asmScan regBase .pctStrlenStd src len

/-- `PCTLENMIN src, len` (R85). -/
def asmPctLenMin (regBase : Nat) (src len : Word) : List Event := asmScan regBase .pctStrlenMin src len

/-- `PCTDEC dst, src, len` (R85). -/
def asmPctDec (regBase : Nat) (dst src len : Word) : List Event := asmMove regBase .pctDec dst src len

end Sys2Proof.Machine
end

