-- ==== Sys2Proof/Tests/Slice0.lean ====
section
/-! SUPPORT. The model's own tests. Expected results come from the spec: 95_test_vectors.md (vector numbers are its own) or
the encodings of 30_encoding.md. A theorem `witness_<Name>` shows a state and operands that meet every hypothesis of the
statement of that name together, at the edges of its ranges. -/

open Sys2Proof Sys2Proof.Machine

namespace Sys2Proof.Tests

/-! ## Helpers -/

/-- Bytes placed in data memory from a on. -/
def bytesAt (m : Memory) (a : Nat) (bytes : List Nat) : Memory := memWriteBytes m a (bytes.map (BitVec.ofNat 8))

/-- The reset state with these operand registers and this data memory. -/
def ready (src dst len : Nat) (m : Memory) : State :=
  { State.reset with
    mem := m
    blk := { Block.reset 0 with
      srcAddr := BitVec.ofNat 32 src, dstAddr := BitVec.ofNat 32 dst, srcLen := BitVec.ofNat 32 len } }

/-- Source bytes at 0x1000, the destination at 0x2000 with 24 bytes of the spec's poison 0xEE. -/
def vec (bytes : List Nat) : State :=
  ready 0x1000 0x2000 bytes.length (bytesAt (bytesAt [] 0x1000 bytes) 0x2000 (List.replicate 24 0xEE))

/-- The state with a command just started, as its engine's step finds it. -/
def latched (i : Instr) (s : State) : State := acceptCommand (encode i) s

/-- One step from a placed command. -/
def go (i : Instr) (s : State) : Host.Outcome State Fault Refusal := step (s.withFetchWord 32 (encode i).toNat)

/-- STATUS, RESULT, ERR_INFO and n data bytes from a on. -/
def seen (a n : Nat) : Host.Outcome State Fault Refusal → Option (Nat × Nat × Nat × List Nat)
  | .next t =>
    some ((statusWord t.blk).toNat, t.blk.result.toNat, t.blk.errInfo.toNat, (memReadBytes t.mem a n).map BitVec.toNat)
  | .fault _ => none
  | .refused _ => none

/-- STATUS and CMD. -/
def statusCmd : Host.Outcome State Fault Refusal → Option (Nat × Nat)
  | .next t => some ((statusWord t.blk).toNat, t.blk.cmdOp.toNat)
  | .fault _ => none
  | .refused _ => none

/-- The next state, or the reset state where there is none. -/
def after : Host.Outcome State Fault Refusal → State
  | .next t => t
  | .fault _ => State.reset
  | .refused _ => State.reset

/-- There is a next state. -/
def isNext : Host.Outcome State Fault Refusal → Bool
  | .next _ => true
  | .fault _ => false
  | .refused _ => false

theorem eq_next_of_isNext {o : Host.Outcome State Fault Refusal} (h : isNext o = true) : o = .next (after o) := by
  cases o <;> simp_all [isNext, after]

/-- The state with these pending steps. -/
def pending (es : List Event) (s : State) : State := { s with sched := es }

/-- The state with BusErr true on the listed ranges. -/
def withBus (rs : List (Nat × Nat)) (s : State) : State := { s with cfg := { s.cfg with busErr := rs } }

/-- The state with devices on the listed ranges. -/
def withDevice (rs : List (Nat × Nat)) (s : State) : State := { s with cfg := { s.cfg with device := rs } }

/-! ## Decoding: words written out from R75 and R78 (GO = bit 31, RSV = bits 30 to 4, OP = bits 3 to 0) -/

theorem test_decode_b64Enc : decodeCmdw 0b10000000000000000000000000000001#32 = .ok .b64Enc := by decide
theorem test_decode_b64Dec : decodeCmdw 0b10000000000000000000000000000010#32 = .ok .b64Dec := by decide
theorem test_decode_b64EncLen : decodeCmdw 0b10000000000000000000000000000011#32 = .ok .b64EncLen := by decide
theorem test_decode_b64DecLen : decodeCmdw 0b10000000000000000000000000000100#32 = .ok .b64DecLen := by decide
theorem test_decode_pctEncStd : decodeCmdw 0b10000000000000000000000000000101#32 = .ok .pctEncStd := by decide
theorem test_decode_pctEncMin : decodeCmdw 0b10000000000000000000000000000110#32 = .ok .pctEncMin := by decide
theorem test_decode_pctStrlenStd : decodeCmdw 0b10000000000000000000000000000111#32 = .ok .pctStrlenStd := by decide
theorem test_decode_pctStrlenMin : decodeCmdw 0b10000000000000000000000000001000#32 = .ok .pctStrlenMin := by decide
theorem test_decode_pctDec : decodeCmdw 0b10000000000000000000000000001001#32 = .ok .pctDec := by decide
/-- R55: the lowest byte lane carries bits 7 to 0. -/
theorem test_decode_lanes : decode [0x09#8, 0x00#8, 0x00#8, 0x80#8] = .ok .pctDec := by decide
theorem test_decode_rejects :
    decodeCmdw 0x00000001#32 = .error .goClear ∧ decodeCmdw 0x80000011#32 = .error .reservedBits ∧
    decodeCmdw 0xC0000001#32 = .error .reservedBits ∧ decodeCmdw 0x80000000#32 = .error .reservedOpcode ∧
    decodeCmdw 0x8000000A#32 = .error .reservedOpcode ∧ decodeCmdw 0x8000000F#32 = .error .reservedOpcode ∧
    decode [0x01#8, 0x00#8, 0x00#8] = .error .notOneWord := by decide
theorem test_decodeTableWord :
    decodeTableWord 32 0x80000004 = some .b64DecLen ∧ decodeTableWord 32 0x8000000A = none := by decide

/-! ## WellFormed: an ill-formed term for each check -/

theorem test_wf_word : CmdWord.wf { go := true, rsv := 0#27, op := 9#4 } = true := by decide
theorem test_wf_word_go : CmdWord.wf { go := false, rsv := 0#27, op := 1#4 } = false := by decide
theorem test_wf_word_rsv : CmdWord.wf { go := true, rsv := 1#27, op := 1#4 } = false := by decide
theorem test_wf_word_op :
    CmdWord.wf { go := true, rsv := 0#27, op := 0#4 } = false ∧
    CmdWord.wf { go := true, rsv := 0#27, op := 10#4 } = false := by decide
theorem test_wf_config : defaultConfig.wf = true := by decide
theorem test_wf_config_addrW :
    ({ defaultConfig with addrW := 0 } : Config).wf = false ∧
    ({ defaultConfig with addrW := 33 } : Config).wf = false := by decide
theorem test_wf_config_minInStd : ({ defaultConfig with safeStd := tableOf [0x2A] } : Config).wf = false := by
  decide
theorem test_wf_config_starSplits :
    ({ defaultConfig with safeMin := tableOf [0x2A] } : Config).wf = false := by decide
theorem test_wf_config_neverSafe :
    ({ defaultConfig with safeStd := tableOf (0x2B :: safeStdBytes) } : Config).wf = false := by decide
theorem test_wf_memory_order : Memory.wf [(2, 1#8), (1, 1#8)] = false := by decide
theorem test_wf_memory_background : Memory.wf [(2, 0#8)] = false := by decide

/-! ## The commands, one step each (95_test_vectors.md sections 2.1 to 2.6) -/

theorem test_b64Enc_hello :
    seen 0x2000 10 (go .b64Enc (vec [0x48, 0x65, 0x6C, 0x6C, 0x6F])) =
      some (0x02, 8, 0, [0x53, 0x47, 0x56, 0x73, 0x62, 0x47, 0x38, 0x2E, 0x00, 0xEE]) := by decide
theorem test_b64Enc_one_leftover :
    seen 0x2000 10 (go .b64Enc (vec [0x01, 0x02, 0x03, 0x04])) =
      some (0x02, 8, 0, [0x41, 0x51, 0x49, 0x44, 0x42, 0x41, 0x2E, 0x2E, 0x00, 0xEE]) := by decide
theorem test_b64Dec_unpadded :
    seen 0x2000 7 (go .b64Dec (vec [0x53, 0x47, 0x56, 0x73, 0x62, 0x47, 0x38])) =
      some (0x02, 5, 0, [0x48, 0x65, 0x6C, 0x6C, 0x6F, 0x00, 0xEE]) := by decide
/-- `AA..AAAA`: a pad in the middle is INVALID_INPUT at offset 2. -/
theorem test_b64Dec_pad_in_middle :
    seen 0x2000 0 (go .b64Dec (vec [0x41, 0x41, 0x2E, 0x2E, 0x41, 0x41, 0x41, 0x41])) =
      some (0x16, 0xFFFFFFFF, 2, []) := by decide
theorem test_b64EncLen_max :
    seen 0 0 (go .b64EncLen (ready 0 0 3221225469 [])) = some (0x02, 0xFFFFFFFD, 0, []) := by decide
theorem test_b64EncLen_range :
    seen 0 0 (go .b64EncLen (ready 0 0 3221225470 [])) = some (0x36, 0xFFFFFFFF, 0, []) := by decide
theorem test_b64DecLen_three : seen 0 0 (go .b64DecLen (ready 0 0 3 [])) = some (0x02, 4, 0, []) := by decide
theorem test_b64DecLen_max :
    seen 0 0 (go .b64DecLen (ready 0 0 0xFFFFFFFF [])) = some (0x02, 3221225473, 0, []) := by decide
/-- `a b`. -/
theorem test_pctEncStd_space :
    seen 0x2000 7 (go .pctEncStd (vec [0x61, 0x20, 0x62])) =
      some (0x02, 5, 0, [0x61, 0x25, 0x32, 0x30, 0x62, 0x00, 0xEE]) := by decide
theorem test_pctEncStd_star :
    seen 0x2000 3 (go .pctEncStd (vec [0x2A])) = some (0x02, 1, 0, [0x2A, 0x00, 0xEE]) := by decide
theorem test_pctEncMin_star :
    seen 0x2000 5 (go .pctEncMin (vec [0x2A])) = some (0x02, 3, 0, [0x25, 0x32, 0x41, 0x00, 0xEE]) := by decide
theorem test_pctEncMin_high_byte :
    seen 0x2000 5 (go .pctEncMin (vec [0xFF])) = some (0x02, 3, 0, [0x25, 0x46, 0x46, 0x00, 0xEE]) := by decide
/-- `hello world!`; no data byte is written. -/
theorem test_pctStrlenStd_hello :
    seen 0x2000 1 (go .pctStrlenStd
        (vec [0x68, 0x65, 0x6C, 0x6C, 0x6F, 0x20, 0x77, 0x6F, 0x72, 0x6C, 0x64, 0x21])) =
      some (0x02, 14, 0, [0xEE]) := by decide
theorem test_pctStrlenMin_hello :
    seen 0x2000 1 (go .pctStrlenMin
        (vec [0x68, 0x65, 0x6C, 0x6C, 0x6F, 0x20, 0x77, 0x6F, 0x72, 0x6C, 0x64, 0x21])) =
      some (0x02, 16, 0, [0xEE]) := by decide
/-- V8: the last byte of the data space. -/
theorem test_pctStrlenStd_top :
    seen 0 0 (go .pctStrlenStd (ready 0xFFFFFFFF 0 1 (bytesAt [] 0xFFFFFFFF [0x61]))) = some (0x02, 1, 0, []) := by
  decide
/-- `%4%41` gives `%4A`. -/
theorem test_pctDec_rejected_pair :
    seen 0x2000 5 (go .pctDec (vec [0x25, 0x34, 0x25, 0x34, 0x31])) =
      some (0x02, 3, 0, [0x25, 0x34, 0x41, 0x00, 0xEE]) := by decide
/-- `ab%41`: an escape at the exact end (S14). -/
theorem test_pctDec_exact_end :
    seen 0x2000 5 (go .pctDec (vec [0x61, 0x62, 0x25, 0x34, 0x31])) =
      some (0x02, 3, 0, [0x61, 0x62, 0x41, 0x00, 0xEE]) := by decide

/-! ## Tables -/

/-- The 64 characters of the alphabet, in order (R115). -/
theorem test_alphabet :
    (List.range 64).map (fun v => (alphabet (BitVec.ofNat 6 v)).toNat) =
      byteRun 0x41 26 ++ byteRun 0x61 26 ++ byteRun 0x30 10 ++ [0x2D, 0x5F] := by decide
/-- Section 2.6. -/
theorem test_hexCombine :
    (hexCombine 0x34#8 0x31#8).toNat = 0x41 ∧ (hexCombine 0x67#8 0x31#8).toNat = 0x1001 ∧
    (hexCombine 0x31#8 0x67#8).toNat = 0x110 ∧ (hexCombine 0x7A#8 0x7A#8).toNat = 0x1100 := by decide
/-- HEXU at the edges of its ranges (R164); 0x9A. -/
theorem test_hexu_edges :
    hexDigit 9#4 = 0x39#8 ∧ hexDigit 10#4 = 0x41#8 ∧ hexuCode 9 = 0x39 ∧ hexuCode 10 = 0x41 ∧ hexuCode 15 = 0x46 ∧
    hexHi 0x9A#8 = 0x39#8 ∧ hexLo 0x9A#8 = 0x41#8 := by decide
theorem test_hex_tables :
    hexHi 0x2A#8 = 0x32#8 ∧ hexLo 0x2A#8 = 0x41#8 ∧ hexHi 0xFF#8 = 0x46#8 ∧ hexLo 0x00#8 = 0x30#8 := by decide

/-! ## Engine checks and registers (section 2.7) -/

theorem test_V1_opcode_zero :
    seen 0 0 (step (State.reset.withFetchWord 32 0x80000000)) = some (0x26, 0xFFFFFFFF, 0, []) := by decide
theorem test_V2_reserved_opcode : statusCmd (step (State.reset.withFetchWord 32 0x8000000A)) = some (0x26, 0xA) := by
  decide
theorem test_V3_reserved_bit : statusCmd (step (State.reset.withFetchWord 32 0x80000011)) = some (0x26, 0x1) := by
  decide
theorem test_V4_go_clear :
    statusCmd (step (pending [.regWrite 0x08 4 0x00000005#32]
      { State.reset with blk := { State.reset.blk with done := true } })) = some (0x02, 0x5) := by decide
theorem test_V5_range : seen 0 0 (go .b64Enc (ready 0x1000 0xFFFFFFFC 3 [])) = some (0x36, 0xFFFFFFFF, 0, []) := by
  decide
theorem test_V6_top_of_space :
    seen 0xFFFFFFFB 5 (go .b64Enc (ready 0x1000 0xFFFFFFFB 3 (bytesAt [] 0x1000 [0x4D, 0x61, 0x6E]))) =
      some (0x02, 4, 0, [0x54, 0x57, 0x46, 0x75, 0x00]) := by decide
theorem test_V9_empty :
    seen 0x2000 2 (go .b64Enc (ready 0xFFFFFFFF 0x2000 0 (bytesAt [] 0x2000 [0xEE, 0xEE]))) =
      some (0x02, 0, 0, [0x00, 0xEE]) := by decide
theorem test_V10_overlap : seen 0 0 (go .b64Enc (ready 0x1000 0x1002 3 [])) = some (0x46, 0xFFFFFFFF, 0, []) := by
  decide
theorem test_V12_adjacent : statusCmd (go .b64Enc (ready 0x1000 0x0FFB 3 [])) = some (0x02, 1) := by decide
theorem test_V14_overlap_by_window : statusCmd (go .pctEncStd (ready 0x1000 0x0FF4 4 [])) = some (0x46, 5) := by
  decide
theorem test_V16_go_while_busy :
    statusCmd (step (pending [.regWrite 0x08 4 0x80000003#32] (latched .b64Enc State.reset))) = some (0x09, 1) := by
  decide
theorem test_V18_irq_at_once :
    irq (after (step (pending [.regWrite 0x04 4 1#32]
      { State.reset with blk := { State.reset.blk with done := true } }))).blk = true := by decide
theorem test_V21_address_bits :
    (after (step (pending [.regWrite 0x10 4 0x12345678#32]
      { State.reset with cfg := { defaultConfig with addrW := 16 } }))).blk.srcAddr = 0x5678#32 := by decide
theorem test_V23_write_status :
    statusCmd (step (pending [.regWrite 0x0C 4 0x000000FF#32]
      { State.reset with blk := { State.reset.blk with done := true, err := true, errCode := 1#4 } })) =
      some (0x14, 0) := by decide
theorem test_V24_bus_error :
    statusCmd (go .b64Dec (withBus [(0x1001, 1)] (vec [0x54, 0x57, 0x46]))) = some (0x56, 2) := by decide
/-- R85 and Program 1 line 3. -/
theorem test_asm_b64Enc :
    asmB64Enc 0 0x2000#32 0x1000#32 5#32 =
      [.regWrite 0x10 4 0x1000#32, .regWrite 0x14 4 0x2000#32, .regWrite 0x18 4 5#32,
        .regWrite 0x08 4 0x80000001#32] := by decide

/-! ## Witnesses: the step and the decoded command -/

/-- Three source bytes, whose windows are apart. -/
def enc3 : State := latched .b64Enc (vec [0x4D, 0x61, 0x6E])

theorem witness_StepRunsDecodedCommand :
    enc3.blk.eng.state = .run ∧ decodeCmdw enc3.blk.eng.cmdw = .ok .b64Enc ∧
    enc3.blk.eng.op = enc3.blk.eng.cmdw.extractLsb' 0 4 ∧ enc3.sched = [] := by decide

theorem witness_StepRunsDecodedCommand_scheduled :
    let s := pending [.complete 0, .reset] enc3
    s.blk.eng.state = .run ∧ decodeCmdw s.blk.eng.cmdw = .ok .b64Enc ∧
    s.blk.eng.op = s.blk.eng.cmdw.extractLsb' 0 4 ∧ s.sched = .complete s.blk.regBase :: [.reset] := by decide

theorem witness_PlacedWordRunsNext : decodeCmdw 0x80000009#32 = .ok .pctDec := by decide

/-! ## Witnesses: results of the commands -/

theorem witness_B64EncRegroupsSource :
    Memory.wf enc3.mem = true ∧ Admitted enc3 3 5 ∧ BusQuiet enc3 3 5 ∧ enc3.blk.eng.len.toNat = 3 ∧ 0 < 3 / 3 := by
  unfold Admitted BusQuiet Fits Apart OrdinaryMem NoBusErr; decide

theorem witness_B64EncRegroupsSource_one_leftover :
    let s := latched .b64Enc (vec [0x4D])
    Memory.wf s.mem = true ∧ Admitted s 1 5 ∧ BusQuiet s 1 5 ∧ s.blk.eng.len.toNat % 3 = 1 := by
  unfold Admitted BusQuiet Fits Apart OrdinaryMem NoBusErr; decide

/-- The write window ends at the top of the data space (V6). -/
theorem witness_B64EncRegroupsSource_two_leftover :
    let s := latched .b64Enc (ready 0x1000 0xFFFFFFFB 2 [])
    Memory.wf s.mem = true ∧ Admitted s 2 5 ∧ BusQuiet s 2 5 ∧ s.blk.eng.len.toNat % 3 = 2 := by
  unfold Admitted BusQuiet Fits Apart OrdinaryMem NoBusErr; decide

theorem witness_B64EncLenValue :
    let s := latched .b64EncLen (ready 0 0 3221225469 [])
    undisturbed s.blk = true ∧ s.blk.eng.len.toNat < 3221225470 := by decide

theorem witness_B64EncLenValue_range :
    let s := latched .b64EncLen (ready 0 0 3221225470 [])
    undisturbed s.blk = true ∧ 3221225470 ≤ s.blk.eng.len.toNat := by decide

theorem witness_B64DecLenValue : undisturbed (latched .b64DecLen (ready 0 0 0xFFFFFFFF [])).blk = true := by
  decide

/-- `TWFu` and `TQ..`: one whole group; then two data characters left over. -/
theorem witness_B64DecRegroupsSource :
    let s := latched .b64Dec (vec [0x54, 0x57, 0x46, 0x75, 0x54, 0x51, 0x2E, 0x2E])
    let L := 8 - padOf (srcByte s) 8
    Memory.wf s.mem = true ∧ s.blk.eng.len.toNat = 8 ∧ L = 6 ∧ Admitted s 8 7 ∧ BusQuiet s 8 5 ∧
    (∀ k, k < L → rev (srcByte s k) ≠ none) ∧ L % 4 = 2 := by
  unfold Admitted BusQuiet Fits Apart OrdinaryMem NoBusErr; decide

/-- `TWE`: three data characters, no padding. -/
theorem witness_B64DecRegroupsSource_three_left :
    let s := latched .b64Dec (vec [0x54, 0x57, 0x45])
    let L := 3 - padOf (srcByte s) 3
    Memory.wf s.mem = true ∧ s.blk.eng.len.toNat = 3 ∧ Admitted s 3 3 ∧ BusQuiet s 3 3 ∧
    (∀ k, k < L → rev (srcByte s k) ≠ none) ∧ L % 4 = 3 := by
  unfold Admitted BusQuiet Fits Apart OrdinaryMem NoBusErr; decide

/-- `AA.A`: the invalid byte at offset 2. -/
theorem witness_B64DecReportsInvalidInput :
    let s := latched .b64Dec (vec [0x41, 0x41, 0x2E, 0x41])
    let L := 4 - padOf (srcByte s) 4
    Memory.wf s.mem = true ∧ s.blk.eng.len.toNat = 4 ∧ Admitted s 4 4 ∧ BusQuiet s 4 4 ∧ 2 < L ∧
    rev (srcByte s 2) = none ∧ ∀ i, i < 2 → rev (srcByte s i) ≠ none := by
  unfold Admitted BusQuiet Fits Apart OrdinaryMem NoBusErr; decide

/-- `A`: a lone character, at offset L - 1 = 0. -/
theorem witness_B64DecReportsInvalidInput_lone :
    let s := latched .b64Dec (vec [0x41])
    let L := 1 - padOf (srcByte s) 1
    Memory.wf s.mem = true ∧ s.blk.eng.len.toNat = 1 ∧ Admitted s 1 1 ∧ BusQuiet s 1 1 ∧
    (∀ i, i < L → rev (srcByte s i) ≠ none) ∧ L % 4 = 1 ∧ 0 = L - 1 := by
  unfold Admitted BusQuiet Fits Apart OrdinaryMem NoBusErr; decide

theorem witness_PctEncEscapesUnsafeBytes :
    let s := latched .pctEncStd (vec [0x61, 0x2A, 0x25])
    Memory.wf s.mem = true ∧ s.blk.eng.len.toNat = 3 ∧ Admitted s 3 10 ∧
    BusQuiet s 3 (pctCursor s.cfg.safeStd (srcByte s) 3 + 1) ∧ s.cfg.safeStd.getLsbD (srcByte s 1).toNat = true ∧
    s.cfg.safeStd.getLsbD (srcByte s 2).toNat = false := by
  unfold Admitted BusQuiet Fits Apart OrdinaryMem NoBusErr; decide

theorem witness_PctEncEscapesUnsafeBytes_min :
    let s := latched .pctEncMin (vec [0x61, 0x2A])
    Memory.wf s.mem = true ∧ s.blk.eng.len.toNat = 2 ∧ Admitted s 2 7 ∧
    BusQuiet s 2 (pctCursor s.cfg.safeMin (srcByte s) 2 + 1) ∧ s.cfg.safeMin.getLsbD (srcByte s 0).toNat = true ∧
    s.cfg.safeMin.getLsbD (srcByte s 1).toNat = false := by
  unfold Admitted BusQuiet Fits Apart OrdinaryMem NoBusErr; decide

theorem witness_PctStrlenCounts :
    let s := latched .pctStrlenMin (vec [0x61, 0x2A])
    undisturbed s.blk = true ∧ s.blk.eng.len.toNat = 2 ∧ Fits s.cfg s.blk.eng.src.toNat 2 ∧
    OrdinaryMem s.cfg s.blk.eng.src.toNat 2 ∧ NoBusErr s.cfg s.blk.eng.src.toNat 2 ∧
    pctCursor s.cfg.safeMin (srcByte s) 2 ≤ 2 ^ 32 - 1 := by
  unfold Fits OrdinaryMem NoBusErr; decide

/-- Bytes that are not safe count three each. -/
theorem pctCursor_of_unsafe (table : BitVec 256) (b : Byte) (h : table.getLsbD b.toNat = false) (n : Nat) :
    pctCursor table (fun _ => b) n = 3 * n := by
  induction n with
  | zero => rfl
  | succ n ih => rw [pctCursor, ih, h]; simp only [Bool.false_eq_true, if_false]; omega

/-- 1431655766 bytes 0x00: the count is 4294967298. -/
theorem witness_PctStrlenCounts_range :
    let s := latched .pctStrlenStd (ready 0 0 1431655766 [])
    undisturbed s.blk = true ∧ s.blk.eng.len.toNat = 1431655766 ∧ Fits s.cfg s.blk.eng.src.toNat 1431655766 ∧
    OrdinaryMem s.cfg s.blk.eng.src.toNat 1431655766 ∧ NoBusErr s.cfg s.blk.eng.src.toNat 1431655766 ∧
    2 ^ 32 - 1 < pctCursor s.cfg.safeStd (srcByte s) 1431655766 := by
  refine ⟨by decide, by decide, ?_, fun k _ => rfl, fun k _ => rfl, ?_⟩
  · unfold Fits; decide
  · rw [show srcByte (latched .pctStrlenStd (ready 0 0 1431655766 [])) = fun _ => 0#8 from rfl,
      pctCursor_of_unsafe _ _ (by decide)]
    decide

theorem witness_PctDecRunsItsLoop :
    let s := latched .pctDec (vec [0x25, 0x34, 0x31])
    Memory.wf s.mem = true ∧ s.blk.eng.len.toNat = 3 ∧ Admitted s 3 4 ∧ BusQuiet s 3 (1 + 1) ∧
    pctDecCursor (srcByte s) 3 1 = 3 := by
  unfold Admitted BusQuiet Fits Apart OrdinaryMem NoBusErr; decide

/-! ## Witnesses: errors -/

theorem witness_WindowSizes :
    Instr.b64Enc ≠ .b64EncLen ∧ Instr.b64Enc ≠ .b64DecLen ∧
    latchedInstr (acceptCommand 0x8000000A#32 State.reset).blk.eng = none ∧
    latchedInstr (latched .pctDec State.reset).blk.eng = some .pctDec := by decide

/-- The source passes the top of the data space by one byte (V7). -/
theorem witness_RangeCheckFails_source :
    let s := latched .pctStrlenStd (ready 0xFFFFFFFF 0 2 [])
    s.blk.eng.hazard = false ∧ s.blk.eng.windowHazard = false ∧ s.blk.eng.foul = [] ∧ Memory.wf s.mem = true ∧
    0 < sourceSize .pctStrlenStd s.blk.eng.len.toNat ∧
    2 ^ s.cfg.addrW < s.blk.eng.src.toNat + sourceSize .pctStrlenStd s.blk.eng.len.toNat := by decide

/-- The write window passes the top of the data space by one byte (V5). -/
theorem witness_RangeCheckFails_window :
    let s := latched .b64Enc (ready 0x1000 0xFFFFFFFC 3 [])
    s.blk.eng.hazard = false ∧ s.blk.eng.windowHazard = false ∧ 0 < maxWrite .b64Enc s.blk.eng.len.toNat ∧
    2 ^ s.cfg.addrW < s.blk.eng.dst.toNat + maxWrite .b64Enc s.blk.eng.len.toNat := by decide

/-- The last byte of the write window is the first of the source (V13). -/
theorem witness_OverlapCheckFails :
    let s := latched .b64Enc (ready 0x1000 0x0FFC 3 [])
    let S := sourceSize .b64Enc s.blk.eng.len.toNat
    let M := maxWrite .b64Enc s.blk.eng.len.toNat
    s.blk.eng.hazard = false ∧ s.blk.eng.windowHazard = false ∧ s.blk.eng.foul = [] ∧ Memory.wf s.mem = true ∧
    Fits s.cfg s.blk.eng.src.toNat S ∧ Fits s.cfg s.blk.eng.dst.toNat M ∧ 0 < S ∧ 0 < M ∧
    s.blk.eng.src.toNat < s.blk.eng.dst.toNat + M ∧ s.blk.eng.dst.toNat < s.blk.eng.src.toNat + S := by
  unfold Fits; decide

/-- V24. -/
theorem witness_BusErrorReplacesOutcome :
    let s := latched .b64Dec (withBus [(0x1001, 1)] (vec [0x54, 0x57, 0x46]))
    let L := 3 - padOf (srcByte s) 3
    Memory.wf s.mem = true ∧ s.blk.eng.len.toNat = 3 ∧ Admitted s (sourceSize .b64Dec 3) (maxWrite .b64Dec 3) ∧
    1 < sourceSize .b64Dec 3 ∧ busErrAt s.cfg (s.blk.eng.src.toNat + 1) = true ∧
    (∀ j, j < L → rev (srcByte s j) ≠ none) ∧ L % 4 ≠ 1 := by
  unfold Admitted Fits Apart OrdinaryMem; decide

/-- A command other than B64_DEC, at the last source byte. -/
theorem witness_BusErrorReplacesOutcome_other :
    let s := latched .pctDec (withBus [(0x1002, 1)] (vec [0x54, 0x57, 0x46]))
    Memory.wf s.mem = true ∧ s.blk.eng.len.toNat = 3 ∧ Admitted s (sourceSize .pctDec 3) (maxWrite .pctDec 3) ∧
    2 < sourceSize .pctDec 3 ∧ busErrAt s.cfg (s.blk.eng.src.toNat + 2) = true ∧ Instr.pctDec ≠ .b64Dec := by
  unfold Admitted Fits Apart OrdinaryMem; decide

/-- A bus error on the terminator's address alone. -/
theorem witness_BusErrorOnDestinationReplacesOutcome :
    let s := latched .b64Enc (withBus [(0x2004, 1)] (vec [0x4D, 0x61, 0x6E]))
    let s₀ : State := { s with cfg := { s.cfg with busErr := [] } }
    Memory.wf s.mem = true ∧ s.cfg.addrW ≤ 32 ∧ undisturbed s.blk = true ∧ 0 < maxWrite .b64Enc 0 ∧
    exec .b64Enc s₀ = .next (after (exec .b64Enc s₀)) ∧ (after (exec .b64Enc s₀)).blk.err = false ∧
    4 ≤ (after (exec .b64Enc s₀)).blk.result.toNat ∧ busErrAt s.cfg (s.blk.eng.dst.toNat + 4) = true :=
  ⟨by decide, by decide, by decide, by decide, eq_next_of_isNext (by decide), by decide, by decide, by decide⟩

/-- V25. -/
theorem witness_BusAgainstInvalidIsADraw :
    let s := latched .b64Dec (withBus [(0x1003, 1)] (vec [0x21, 0x41, 0x41, 0x41]))
    let L := 4 - padOf (srcByte s) 4
    Memory.wf s.mem = true ∧ s.blk.eng.len.toNat = 4 ∧ Admitted s 4 4 ∧ 3 < 4 ∧
    busErrAt s.cfg (s.blk.eng.src.toNat + 3) = true ∧ 0 < L ∧ rev (srcByte s 0) = none ∧
    ∀ i, i < 0 → rev (srcByte s i) ≠ none := by
  unfold Admitted Fits Apart OrdinaryMem; decide

/-- A lone leftover character, and a bus error on the last byte of the write window alone. -/
theorem witness_BusAgainstInvalidIsADraw_lone :
    let s := latched .b64Dec (withBus [(0x2003, 1)] (vec [0x41, 0x41, 0x41, 0x41, 0x41]))
    let L := 5 - padOf (srcByte s) 5
    Memory.wf s.mem = true ∧ s.blk.eng.len.toNat = 5 ∧ Admitted s 5 4 ∧ 3 < 4 ∧
    busErrAt s.cfg (s.blk.eng.dst.toNat + 3) = true ∧ (∀ i, i < L → rev (srcByte s i) ≠ none) ∧ L % 4 = 1 ∧
    4 = L - 1 := by
  unfold Admitted Fits Apart OrdinaryMem; decide

/-- RSV not 0 with an assigned OP; OP 0x0; OP 0xA. -/
theorem witness_IllegalWordCompletesWithBadCmd :
    let s₁ := acceptCommand 0x80000011#32 State.reset
    let s₂ := acceptCommand 0x80000000#32 State.reset
    let s₃ := acceptCommand 0x8000000A#32 State.reset
    (s₁.blk.eng.state = .run ∧ undisturbed s₁.blk = true ∧ s₁.blk.eng.cmdw.extractLsb' 4 27 ≠ 0#27 ∧ s₁.sched = []) ∧
    (s₂.blk.eng.state = .run ∧ undisturbed s₂.blk = true ∧ s₂.blk.eng.op.toNat = 0 ∧ s₂.sched = []) ∧
    (s₃.blk.eng.state = .run ∧ undisturbed s₃.blk = true ∧ 10 ≤ s₃.blk.eng.op.toNat ∧ s₃.sched = []) := by decide

theorem witness_ErrorCodesAndRaisers :
    let s := latched .b64Dec (vec [0x41])
    undisturbed s.blk = true ∧ exec .b64Dec s = .next (after (exec .b64Dec s)) ∧
    (after (exec .b64Dec s)).blk.errCode = 1#4 :=
  ⟨by decide, eq_next_of_isNext (by decide), by decide⟩

/-- A device on the last source byte, then on the first destination byte. -/
theorem witness_DeviceWindowRefused :
    let s := latched .pctDec (withDevice [(0x1002, 1)] (vec [0x54, 0x57, 0x46]))
    Fits s.cfg s.blk.eng.src.toNat 3 ∧ Fits s.cfg s.blk.eng.dst.toNat 4 ∧
    Apart s.blk.eng.src.toNat 3 s.blk.eng.dst.toNat 4 ∧ sourceSize .pctDec s.blk.eng.len.toNat = 3 ∧
    maxWrite .pctDec s.blk.eng.len.toNat = 4 ∧ s.cfg.device.any (inRange (s.blk.eng.src.toNat + 2)) = true := by
  unfold Fits Apart; decide

theorem witness_DeviceWindowRefused_destination :
    let s := latched .pctDec (withDevice [(0x2000, 1)] (vec [0x54, 0x57, 0x46]))
    Fits s.cfg s.blk.eng.src.toNat 3 ∧ Fits s.cfg s.blk.eng.dst.toNat 4 ∧
    Apart s.blk.eng.src.toNat 3 s.blk.eng.dst.toNat 4 ∧ sourceSize .pctDec s.blk.eng.len.toNat = 3 ∧
    maxWrite .pctDec s.blk.eng.len.toNat = 4 ∧ s.cfg.device.any (inRange (s.blk.eng.dst.toNat + 0)) = true := by
  unfold Fits Apart; decide

/-! ## Witnesses: frames and round trips -/

theorem enc3_next : exec .b64Enc enc3 = .next (after (exec .b64Enc enc3)) := eq_next_of_isNext (by decide)

theorem witness_CommandFrame :
    Memory.wf enc3.mem = true ∧ exec .b64Enc enc3 = .next (after (exec .b64Enc enc3)) ∧
    (0x2005 < enc3.blk.eng.dst.toNat ∨ enc3.blk.eng.dst.toNat + maxWrite .b64Enc enc3.blk.eng.len.toNat ≤ 0x2005) ∧
    ∀ r ∈ enc3.blk.eng.foul, inRange 0x2005 r = false :=
  ⟨by decide, enc3_next, by decide, by decide⟩

theorem witness_SuccessWritesOutputAndTerminator :
    Memory.wf enc3.mem = true ∧ enc3.cfg.addrW ≤ 32 ∧ undisturbed enc3.blk = true ∧ 0 < maxWrite .b64Enc 0 ∧
    exec .b64Enc enc3 = .next (after (exec .b64Enc enc3)) ∧ (after (exec .b64Enc enc3)).blk.err = false :=
  ⟨by decide, by decide, by decide, by decide, enc3_next, by decide⟩

/-- The second state differs in its registers and in memory outside the source. -/
def enc3Other : State :=
  latched .b64Enc
    { vec [0x4D, 0x61, 0x6E] with
      mem := bytesAt [] 0x1000 [0x4D, 0x61, 0x6E, 0x77], blk := { (vec [0x4D, 0x61, 0x6E]).blk with ie := true } }

theorem witness_OutcomeDependsOnOperandsOnly :
    Memory.wf enc3.mem = true ∧ Memory.wf enc3Other.mem = true ∧ undisturbed enc3.blk = true ∧
    undisturbed enc3Other.blk = true ∧ enc3.cfg = enc3Other.cfg ∧ enc3.draw = enc3Other.draw ∧
    enc3.blk.eng.src = enc3Other.blk.eng.src ∧ enc3.blk.eng.dst = enc3Other.blk.eng.dst ∧
    enc3.blk.eng.len = enc3Other.blk.eng.len ∧ enc3.mem ≠ enc3Other.mem ∧
    (∀ k, k < sourceSize .b64Enc enc3.blk.eng.len.toNat → srcByte enc3 k = srcByte enc3Other k) ∧
    exec .b64Enc enc3 = .next (after (exec .b64Enc enc3)) ∧ (after (exec .b64Enc enc3)).blk.err = false :=
  ⟨by decide, by decide, by decide, by decide, by decide, by decide,
    by decide, by decide, by decide, by decide, by decide, enc3_next,
    by decide⟩

/-- The output of a command at 0x2000 as the source of a second command, its destination at 0x3000. -/
def second (i : Instr) (t : State) : State := latched i (ready 0x2000 0x3000 t.blk.result.toNat t.mem)

theorem witness_B64RoundTrip :
    let t := after (exec .b64Enc enc3)
    let u := second .b64Dec t
    Memory.wf enc3.mem = true ∧ Admitted enc3 3 5 ∧ BusQuiet enc3 3 5 ∧ exec .b64Enc enc3 = .next t ∧
    Memory.wf u.mem = true ∧ u.blk.eng.startMem = t.mem ∧
    u.blk.eng.src = enc3.blk.eng.dst ∧ u.blk.eng.len = BitVec.ofNat 32 4 ∧ Admitted u 4 4 ∧ BusQuiet u 4 4 := by
  refine ⟨by decide, ?_, ?_, enc3_next, by decide, by decide, by decide, by decide, ?_, ?_⟩ <;>
    (first | unfold Admitted Fits Apart OrdinaryMem | unfold BusQuiet NoBusErr) <;> decide

/-- `a*%`, encoded by the minimal variant. -/
def encMin3 : State := latched .pctEncMin (vec [0x61, 0x2A, 0x25])

theorem encMin3_next : exec .pctEncMin encMin3 = .next (after (exec .pctEncMin encMin3)) :=
  eq_next_of_isNext (by decide)

theorem witness_PctRoundTrip :
    let t := after (exec .pctEncMin encMin3)
    let u := second .pctDec t
    Memory.wf encMin3.mem = true ∧ encMin3.cfg.wf = true ∧ Admitted encMin3 3 10 ∧ exec .pctEncMin encMin3 = .next t ∧
    t.blk.err = false ∧ Memory.wf u.mem = true ∧ u.blk.eng.startMem = t.mem ∧ u.blk.eng.src = encMin3.blk.eng.dst ∧ t.blk.result.toNat = 7 ∧
    u.blk.eng.len = BitVec.ofNat 32 7 ∧ Admitted u 7 8 ∧ BusQuiet u 7 4 := by
  refine ⟨by decide, by decide, ?_, encMin3_next, by decide, by decide,
    by decide, by decide, by decide, by decide, ?_, ?_⟩ <;>
    (first | unfold Admitted Fits Apart OrdinaryMem | unfold BusQuiet NoBusErr) <;> decide

/-- The standard variant in the same way. -/
def encStd3 : State := latched .pctEncStd (vec [0x61, 0x2A, 0x25])

theorem encStd3_next : exec .pctEncStd encStd3 = .next (after (exec .pctEncStd encStd3)) :=
  eq_next_of_isNext (by decide)

theorem witness_PctRoundTrip_std :
    let t := after (exec .pctEncStd encStd3)
    let u := second .pctDec t
    Memory.wf encStd3.mem = true ∧ encStd3.cfg.wf = true ∧ Admitted encStd3 3 10 ∧ exec .pctEncStd encStd3 = .next t ∧
    t.blk.err = false ∧ Memory.wf u.mem = true ∧ u.blk.eng.startMem = t.mem ∧ u.blk.eng.src = encStd3.blk.eng.dst ∧ t.blk.result.toNat = 5 ∧
    u.blk.eng.len = BitVec.ofNat 32 5 ∧ Admitted u 5 6 ∧ BusQuiet u 5 4 := by
  refine ⟨by decide, by decide, ?_, encStd3_next, by decide, by decide,
    by decide, by decide, by decide, by decide, ?_, ?_⟩ <;>
    (first | unfold Admitted Fits Apart OrdinaryMem | unfold BusQuiet NoBusErr) <;> decide

theorem witness_PctLengthIsExact :
    Memory.wf encMin3.mem = true ∧ encMin3.cfg.wf = true ∧ undisturbed encMin3.blk = true ∧
    exec .pctEncMin encMin3 = .next (after (exec .pctEncMin encMin3)) ∧
    (after (exec .pctEncMin encMin3)).blk.err = false ∧
    exec .pctStrlenMin encMin3 = .next (after (exec .pctStrlenMin encMin3)) :=
  ⟨by decide, by decide, by decide, encMin3_next, by decide,
    eq_next_of_isNext (by decide)⟩

theorem witness_PctLengthIsExact_std :
    Memory.wf encStd3.mem = true ∧ encStd3.cfg.wf = true ∧ undisturbed encStd3.blk = true ∧
    exec .pctEncStd encStd3 = .next (after (exec .pctEncStd encStd3)) ∧
    (after (exec .pctEncStd encStd3)).blk.err = false ∧
    exec .pctStrlenStd encStd3 = .next (after (exec .pctStrlenStd encStd3)) :=
  ⟨by decide, by decide, by decide, encStd3_next, by decide,
    eq_next_of_isNext (by decide)⟩

/-! ## Witnesses: tables -/

theorem witness_AlphabetIsInjective : alphabet 63#6 = alphabet 63#6 := rfl

theorem witness_RevInvertsAlphabet : rev 0x5F#8 = some 63#6 := by decide

/-! ## Witnesses: registers -/

/-- The last register and the last reserved offset; an unaligned offset, and another width. -/
theorem witness_RegisterReadMap :
    (0x20 < 0x40 ∧ (pending [.regRead (State.reset.blk.regBase + 0x20) 4] State.reset).sched =
      .regRead (State.reset.blk.regBase + 0x20) 4 :: []) ∧
    (0x3C < 0x40 ∧ 0x24 ≤ 0x3C ∧ (pending [.regRead (State.reset.blk.regBase + 0x3C) 4] State.reset).sched =
      .regRead (State.reset.blk.regBase + 0x3C) 4 :: []) ∧
    (0x3F < 0x40 ∧ 0x3F % 4 ≠ 0 ∧ (pending [.regRead (State.reset.blk.regBase + 0x3F) 4] State.reset).sched =
      .regRead (State.reset.blk.regBase + 0x3F) 4 :: []) ∧
    (0x0C < 0x40 ∧ 2 ≠ 4 ∧ (pending [.regRead (State.reset.blk.regBase + 0x0C) 2] State.reset).sched =
      .regRead (State.reset.blk.regBase + 0x0C) 2 :: []) := by decide

/-- RESULT and the last reserved offset; ID; an unaligned offset; another width at CMD. -/
theorem witness_IgnoredRegisterWrites :
    (0x1C < 0x40 ∧ 0x1C ≤ 0x1C ∧ (pending [.regWrite 0x1C 4 1#32] State.reset).sched =
      .regWrite (State.reset.blk.regBase + 0x1C) 4 1#32 :: []) ∧
    (0x3C < 0x40 ∧ 0x1C ≤ 0x3C ∧ (pending [.regWrite 0x3C 4 1#32] State.reset).sched =
      .regWrite (State.reset.blk.regBase + 0x3C) 4 1#32 :: []) ∧
    (0x00 < 0x40 ∧ (pending [.regWrite 0x00 4 1#32] State.reset).sched =
      .regWrite (State.reset.blk.regBase + 0x00) 4 1#32 :: []) ∧
    (0x1B < 0x40 ∧ 0x1B % 4 ≠ 0 ∧ (pending [.regWrite 0x1B 4 1#32] State.reset).sched =
      .regWrite (State.reset.blk.regBase + 0x1B) 4 1#32 :: []) ∧
    (0x08 < 0x40 ∧ 1 ≠ 4 ∧ (pending [.regWrite 0x08 1 0x80000001#32] State.reset).sched =
      .regWrite (State.reset.blk.regBase + 0x08) 1 0x80000001#32 :: []) := by decide

theorem witness_NarrowAccessIsReserved :
    (0x3F < 0x40 ∧ 0x3F % 4 ≠ 0 ∧ (pending [.regRead 0x3F 4] State.reset).sched =
      .regRead (State.reset.blk.regBase + 0x3F) 4 :: []) ∧
    (0x00 < 0x40 ∧ 1 ≠ 4 ∧ (pending [.regRead 0x00 1] State.reset).sched =
      .regRead (State.reset.blk.regBase + 0x00) 1 :: []) ∧
    (0x08 < 0x40 ∧ 8 ≠ 4 ∧ (pending [.regWrite 0x08 8 0x80000001#32] State.reset).sched =
      .regWrite (State.reset.blk.regBase + 0x08) 8 0x80000001#32 :: []) := by decide

/-- While a command runs. -/
theorem witness_OperandRegisterWrites :
    enc3.cfg.addrW ≤ 32 ∧
    (pending [.regWrite 0x10 4 5#32] enc3).sched = .regWrite (enc3.blk.regBase + 0x10) 4 5#32 :: [] ∧
    (pending [.regWrite 0x14 4 5#32] enc3).sched = .regWrite (enc3.blk.regBase + 0x14) 4 5#32 :: [] ∧
    (pending [.regWrite 0x18 4 5#32] enc3).sched = .regWrite (enc3.blk.regBase + 0x18) 4 5#32 :: [] := by decide

theorem witness_CtrlHoldsInterruptEnable :
    (pending [.regWrite 0x04 4 1#32] enc3).sched = .regWrite (enc3.blk.regBase + 0x04) 4 1#32 :: [] := by decide

theorem witness_StatusFieldsAndWriteOneToClear :
    (pending [.regWrite 0x0C 4 0xFF#32] enc3).sched = .regWrite (enc3.blk.regBase + 0x0C) 4 0xFF#32 :: [] := by
  decide

theorem witness_GoClearOnlyStoresOp :
    (0x7FFFFFFF#32 : Word).getLsbD 31 = false ∧
    (pending [.regWrite 0x08 4 0x7FFFFFFF#32] State.reset).sched =
      .regWrite (State.reset.blk.regBase + 0x08) 4 0x7FFFFFFF#32 :: [] ∧ State.reset.blk.busy = false ∧
    (pending [.regWrite 0x08 4 0x7FFFFFFF#32] enc3).sched = .regWrite (enc3.blk.regBase + 0x08) 4 0x7FFFFFFF#32 :: [] ∧
    enc3.blk.busy = true := by decide

theorem witness_GoWhileBusyIsDropped :
    (0x80000000#32 : Word).getLsbD 31 = true ∧ enc3.blk.busy = true ∧
    (pending [.regWrite 0x08 4 0x80000000#32] enc3).sched =
      .regWrite (enc3.blk.regBase + 0x08) 4 0x80000000#32 :: [] := by decide

theorem witness_GoLatchesTheCommand :
    State.reset.cfg.addrW ≤ 32 ∧ (0x80000000#32 : Word).getLsbD 31 = true ∧ State.reset.blk.busy = false ∧
    (pending [.regWrite 0x08 4 0x80000000#32] State.reset).sched =
      .regWrite (State.reset.blk.regBase + 0x08) 4 0x80000000#32 :: [] ∧ State.reset.peers = [] := by decide

theorem witness_RegisterWritesLeaveRunningCommand :
    0x3F < 0x40 ∧ enc3.blk.busy = true ∧
    (pending [.regWrite 0x3F 1 0#32] enc3).sched = .regWrite (enc3.blk.regBase + 0x3F) 1 0#32 :: [] := by decide

theorem witness_InterruptFollowsDoneAndEnable :
    (pending [.regWrite 0x04 4 1#32] State.reset).sched = .regWrite (State.reset.blk.regBase + 0x04) 4 1#32 :: [] ∧
    (pending [.regWrite 0x0C 4 2#32] State.reset).sched = .regWrite (State.reset.blk.regBase + 0x0C) 4 2#32 :: [] ∧
    (2#32 : Word).getLsbD 1 = true := by decide

/-- The state with DONE = 1 and OVR = 1. -/
def doneOvr : State := { State.reset with blk := { State.reset.blk with done := true, ovr := true } }

theorem witness_DoneIsClearedOnlyAsStated :
    let s := pending [.regWrite 0x0C 4 2#32] doneOvr
    s.peers = [] ∧ s.blk.done = true ∧ step s = .next (after (step s)) ∧ (after (step s)).blk.done = false :=
  ⟨by decide, by decide, eq_next_of_isNext (by decide), by decide⟩

theorem witness_GoWhileBusyIsDropped_cleared :
    let s := pending [.regWrite 0x0C 4 8#32] doneOvr
    s.peers = [] ∧ step s = .next (after (step s)) ∧ (after (step s)).blk.ovr ≠ s.blk.ovr :=
  ⟨by decide, eq_next_of_isNext (by decide), by decide⟩

theorem witness_ResultsChangeOnlyAtCompletion :
    enc3.peers = [] ∧ step enc3 = .next (after (step enc3)) ∧ (after (step enc3)).blk.result ≠ enc3.blk.result :=
  ⟨by decide, eq_next_of_isNext (by decide), by decide⟩

theorem witness_DataMemoryChangesOnlyAsStated :
    step enc3 = .next (after (step enc3)) ∧ (after (step enc3)).mem ≠ enc3.mem :=
  ⟨eq_next_of_isNext (by decide), by decide⟩

/-! ## Witnesses: reset, idling, progress -/

/-- Reset while a command runs: the first address past its write window, and the last byte of its source. -/
theorem witness_ResetAbortsAndClears :
    let s := pending [.reset] enc3
    Memory.wf s.mem = true ∧ s.sched = .reset :: [] ∧ s.blk.busy = true ∧ s.blk.eng.foul = [] ∧ s.peers = [] ∧
    inRange 0x2005 (blockWindow s.blk) = false ∧ inRange 0x1002 (blockSource s.blk) = true := by decide

/-- Reset while a command runs that fails check 3 (V10), at a byte of its write window alone. -/
def overlapping : State := latched .b64Enc (ready 0x1000 0x1002 3 (bytesAt [] 0x1000 [0x4D, 0x61, 0x6E, 0xEE]))

theorem witness_ResetAbortsAndClears_overlap :
    let s := pending [.reset] overlapping
    Memory.wf s.mem = true ∧ s.sched = .reset :: [] ∧ s.blk.busy = true ∧ s.blk.eng.foul = [] ∧ s.peers = [] ∧
    inRange 0x1003 (blockWindow s.blk) = true ∧ inRange 0x1003 (blockSource s.blk) = false ∧
    passesChecks s.cfg s.blk.eng = false := by decide

/-- R231 "The source window is not changed", and R101: a byte of the overlap, and one of the write window past the source. -/
theorem test_reset_keeps_overlapped_source :
    let t := after (step (pending [.reset] overlapping))
    memRead t.mem 0x1002 = 0x6E#8 ∧ memRead t.mem 0x1003 = 0xEE#8 ∧ t.blk.busy = false ∧ t.blk.done = false := by decide

/-- R231: a byte of the write window of an aborted command that passes its checks is `any8()`. -/
theorem test_reset_frees_write_window :
    abortedRanges enc3.cfg enc3.blk = [(0x2000, 5)] ∧
    memRead (resetMem enc3) 0x2004 = Config.freeByte enc3.draw 0x2004 := by
  have hr : (allBlocks enc3).flatMap (abortedRanges enc3.cfg) = [(0x2000, 5)] := by decide
  refine ⟨by decide, ?_⟩
  rw [resetMem, hr]
  exact memRead_foldl_memScrambleIn_inside (spaceSize enc3.cfg) enc3.draw [(0x2000, 5)] (by decide) (by decide)
    ⟨(0x2000, 5), List.mem_singleton.2 rfl, by decide⟩

theorem witness_IdleBlockWaits :
    State.reset.sched = [] ∧ ∀ b ∈ allBlocks State.reset, b.eng.state = .idle := by decide

theorem witness_RunningCommandCompletes : enc3.blk.eng.state = .run ∧ enc3.sched = [] ∧ enc3.cfg.device = [] := by
  decide

theorem witness_RunningCommandCompletes_scheduled :
    (pending [.complete 0] enc3).blk.eng.state = .run ∧
    ∃ rest, (pending [.complete 0] enc3).sched = .complete enc3.blk.regBase :: rest := ⟨by decide, [], rfl⟩

/-! ## Witnesses: host accesses to data memory -/

theorem witness_HostDataWrite :
    Memory.wf enc3.mem = true ∧ (pending [.memWrite 0xFFFFFFFF 7#8] enc3).sched = .memWrite 0xFFFFFFFF 7#8 :: [] ∧
    0xFFFFFFFF < 2 ^ enc3.cfg.addrW ∧ enc3.cfg.device.any (inRange 0xFFFFFFFF) = false ∧
    dutyKept enc3 (.memWrite 0xFFFFFFFF 7#8) = true := by decide

theorem witness_HostDataWrite_no_address :
    Memory.wf enc3.mem = true ∧ (pending [.memWrite 0x100000000 7#8] enc3).sched = .memWrite 0x100000000 7#8 :: [] ∧
    2 ^ enc3.cfg.addrW ≤ 0x100000000 := by decide

/-- The last byte of the write window, and the first one past it. -/
theorem witness_HostDataRead :
    0x2005 < 2 ^ enc3.cfg.addrW ∧ enc3.cfg.device.any (inRange 0x2004) = false ∧
    enc3.cfg.device.any (inRange 0x2005) = false ∧ (pending [.memRead 0x2004] enc3).sched = .memRead 0x2004 :: [] ∧
    dutyKept enc3 (.memRead 0x2004) = false ∧ dutyKept enc3 (.memRead 0x2005) = true := by decide

/-- The last byte of the source window, and the last one of the write window. -/
theorem witness_BrokenDutyFreesResults :
    0x2004 < 2 ^ enc3.cfg.addrW ∧ enc3.cfg.device = [] ∧ enc3.blk.busy = true ∧
    inRange 0x1002 (blockSource enc3.blk) = true ∧ inRange 0x2004 (blockWindow enc3.blk) = true ∧
    (pending [.memWrite 0x1002 7#8] enc3).sched = .memWrite 0x1002 7#8 :: [] ∧
    (pending [.memWrite 0x2004 7#8] enc3).sched = .memWrite 0x2004 7#8 :: [] := by decide

/-- After a write to the last byte of the source window: the results alone are unspecified. -/
theorem witness_BrokenDutyFreesResults_source :
    let s := after (step (pending [.memWrite 0x1002 7#8] enc3))
    Memory.wf s.mem = true ∧ s.blk.eng.hazard = true ∧ s.blk.eng.windowHazard = false ∧ s.blk.eng.foul = [] ∧
    exec .b64Enc s = .next (after (exec .b64Enc s)) :=
  ⟨by decide, by decide, by decide, by decide, eq_next_of_isNext (by decide)⟩

/-- After a write to the last byte of the write window: every byte of it is unspecified too. -/
theorem witness_BrokenDutyFreesResults_window :
    let s := after (step (pending [.memWrite 0x2004 7#8] enc3))
    Memory.wf s.mem = true ∧ s.blk.eng.hazard = true ∧ s.blk.eng.windowHazard = true ∧ s.blk.eng.foul = [] ∧
    4 < maxWrite .b64Enc s.blk.eng.len.toNat ∧ s.blk.eng.dst.toNat + 4 < 2 ^ s.cfg.addrW ∧
    exec .b64Enc s = .next (after (exec .b64Enc s)) :=
  ⟨by decide, by decide, by decide, by decide, by decide, by decide, eq_next_of_isNext (by decide)⟩

/-- R63, R68: after a host write to its source, B64_ENC of `Man` still leaves `TWFu` and the terminator in data memory, with
the host's byte in the source. -/
theorem test_source_write_leaves_output :
    let t := after (step (after (step (pending [.memWrite 0x1002 7#8, .complete 0] enc3))))
    (memReadBytes t.mem 0x2000 6).map BitVec.toNat = [0x54, 0x57, 0x46, 0x75, 0x00, 0xEE] ∧ memRead t.mem 0x1002 = 7#8 ∧
    t.blk.done = true := by decide

/-- R68, R106: after a host write to a byte of the source alone, OVERLAP leaves every byte of the write window. -/
theorem test_source_write_keeps_overlap_window :
    let t := after (step (after (step (pending [.memWrite 0x1000 7#8, .complete 0] overlapping))))
    memRead t.mem 0x1000 = 7#8 ∧ memRead t.mem 0x1002 = 0x6E#8 ∧ memRead t.mem 0x1003 = 0xEE#8 ∧
    t.blk.done = true := by decide

/-- A second instance runs on windows that end where the first one's begin. -/
def twoInstances : State :=
  { vec [0x4D, 0x61, 0x6E] with
    peers := [{ (latched .b64Enc (ready 0x1003 0x2005 3 [])).blk with regBase := 0x40 }] }

theorem witness_DisjointInstancesDoNotDisturb :
    let b := latchCommand twoInstances.cfg.addrW twoInstances.mem 0x80000001#32 twoInstances.blk
    twoInstances.peers ≠ [] ∧
    ∀ p ∈ twoInstances.peers, p.eng.state = .run ∧ rangesMeet (blockWindow b) (blockWindow p) = false ∧
      rangesMeet (blockWindow b) (blockSource p) = false ∧ rangesMeet (blockWindow p) (blockSource b) = false := by
  decide

/-- A second instance runs on a write window that meets the first one's source and write windows at one byte each. -/
def meetingInstances : State :=
  { vec [0x4D, 0x61, 0x6E] with
    peers := [{ (latched .b64Enc (ready 0x2004 0x1002 3 [])).blk with regBase := 0x40 }] }

theorem witness_MeetingInstancesAreUnspecified :
    let b := latchCommand meetingInstances.cfg.addrW meetingInstances.mem 0x80000001#32 meetingInstances.blk
    passesChecks meetingInstances.cfg b.eng = true ∧
    ∃ p, meetingInstances.peers[0]? = some p ∧ p ∈ meetingInstances.peers ∧ p.eng.state = .run ∧
      passesChecks meetingInstances.cfg p.eng = true ∧ rangesMeet (blockWindow b) (blockSource p) = true ∧
      rangesMeet (blockWindow p) (blockSource b) = true ∧ inRange 0x2004 (blockWindow b) = true ∧
      inRange 0x2004 (blockSource p) = true :=
  ⟨by decide, { (latched .b64Enc (ready 0x2004 0x1002 3 [])).blk with regBase := 0x40 }, by decide⟩

/-- R70, R100, R107: a start that fails check 2 reads nothing, so the other's write window on its source changes nothing: it
still ends with RANGE. -/
theorem test_clash_keeps_range :
    let s := acceptCommand 0x80000001#32
      { meetingInstances with blk := { meetingInstances.blk with dstAddr := 0xFFFFFFFC#32 } }
    undisturbed s.blk = true ∧ seen 0 0 (exec .b64Enc s) = some (0x36, 0xFFFFFFFF, 0, []) := by decide

theorem witness_MeetingInstancesAreUnspecified_completion :
    let s := acceptCommand 0x80000001#32 meetingInstances
    Memory.wf s.mem = true ∧ exec .b64Enc s = .next (after (exec .b64Enc s)) ∧ 0x2004 < 2 ^ s.cfg.addrW ∧
    s.blk.eng.foul.any (inRange 0x2004) = true :=
  ⟨by decide, eq_next_of_isNext (by decide), by decide, by decide⟩

/-- The last offset of the second instance's window. -/
theorem witness_AccessReachesItsOwnInstance :
    ∃ p, twoInstances.peers[0]? = some p ∧ 0x3F < 0x40 ∧
      (∀ b ∈ twoInstances.blk :: twoInstances.peers.eraseIdx 0, windowHolds (p.regBase + 0x3F) b = false) ∧
      (∀ b ∈ twoInstances.blk :: twoInstances.peers.eraseIdx 0, b.regBase ≠ p.regBase) ∧
      (pending [.regRead 0x7F 1] twoInstances).sched = .regRead (p.regBase + 0x3F) 1 :: [] ∧
      (pending [.regWrite 0x7F 1 0#32] twoInstances).sched = .regWrite (p.regBase + 0x3F) 1 0#32 :: [] ∧
      (pending [.complete 0x40] twoInstances).sched = .complete p.regBase :: [] :=
  ⟨{ (latched .b64Enc (ready 0x1003 0x2005 3 [])).blk with regBase := 0x40 }, by decide⟩

/-! ## Witnesses: invariants -/

theorem enc3_step : step enc3 = .next (after (step enc3)) := eq_next_of_isNext (by decide)

theorem witness_StepKeepsInvariant : stateInv enc3 = true ∧ step enc3 = .next (after (step enc3)) :=
  ⟨by decide, enc3_step⟩

theorem witness_DutyKeepsCommandUndisturbed :
    let s := pending [.memRead 0x2005] enc3
    s.peers = [] ∧ undisturbed s.blk = true ∧ dutyKept s (.memRead 0x2005) = true ∧ step s = .next (after (step s)) :=
  ⟨by decide, by decide, by decide, eq_next_of_isNext (by decide)⟩

theorem witness_StepKeepsParameters : step enc3 = .next (after (step enc3)) := enc3_step

end Sys2Proof.Tests
end

section
/-! PROOFS. Scope and invariants: what one step can do, said once (`step_acts`), and from it that every step keeps the
parameters, the places of the blocks and the invariant; the host's write of a data byte. -/

namespace Sys2Proof.Machine

/-! ## What one step can do -/

/-- The block taken out of a list satisfies the predicate. -/
theorem takeBlock_pos {p : Block → Bool} :
    ∀ {bs : List Block} {r : Block × List Block}, takeBlock p bs = some r → p r.1 = true
  | [], r, h => by cases h
  | c :: cs, r, h => by
    unfold takeBlock at h
    split at h
    · cases h; assumption
    · obtain ⟨q, hq, rfl⟩ := Option.map_eq_some_iff.1 h
      exact takeBlock_pos (r := q) hq

/-- The block brought to act satisfies the predicate. -/
theorem focusOn_pos {p : Block → Bool} {s t : State} (h : focusOn p s = some t) : p t.blk = true := by
  unfold focusOn at h
  split at h
  · cases h; assumption
  · obtain ⟨r, hr, rfl⟩ := Option.map_eq_some_iff.1 h
    exact takeBlock_pos hr

/-- The oldest pending step is taken off the schedule, and the blocks may stand in another order. -/
def Refocused (s u : State) : Prop :=
  u = { s with blk := u.blk, peers := u.peers, sched := s.sched.tail } ∧ (allBlocks u).Perm (allBlocks s)

theorem Refocused.cfg {s u : State} (h : Refocused s u) : u.cfg = s.cfg := by rw [h.1]

theorem Refocused.mem {s u : State} (h : Refocused s u) : u.mem = s.mem := by rw [h.1]

theorem refocused_tail (s : State) : Refocused s { s with sched := s.sched.tail } := ⟨rfl, .refl _⟩

theorem refocused_focusOn {p : Block → Bool} {s u : State} (h : focusOn p { s with sched := s.sched.tail } = some u) :
    Refocused s u := focusOn_perm h

/-- What the acting block of s, the host or the reset input can do for a pending step, or with none pending. It bounds the
step from above: what a host read of a data byte returns is left open. -/
inductive Acts (s : State) : Option Event → State → Prop
  /-- Nothing happens, where no block runs or none is addressed. -/
  | waits (e : Option Event) : Acts s e s
  | engine {e : Option Event} {t : State} (he : e = none ∨ e = some (.complete s.blk.regBase))
      (ht : engineTurn s = .next t) : Acts s e t
  | regWrite {addr : Nat} (width : Nat) (v : Word) (ha : windowHolds addr s.blk = true) :
      Acts s (some (.regWrite addr width v)) (writeReg (addr - s.blk.regBase) width v s)
  | regRead {addr : Nat} (width : Nat) (ha : windowHolds addr s.blk = true) :
      Acts s (some (.regRead addr width)) { s with regData := readReg s.blk (addr - s.blk.regBase) width }
  | memWrite {a : Nat} (v : Byte) (ha : a < spaceSize s.cfg) :
      Acts s (some (.memWrite a v))
        { s with mem := memWrite s.mem a v, blk := hostWrote a s.blk, peers := s.peers.map (hostWrote a) }
  | memRead {a : Nat} (d : Byte) (n : Nat) (ha : a < spaceSize s.cfg) :
      Acts s (some (.memRead a)) { s with memData := d, draw := n }
  | reset : Acts s (some .reset) (resetBlocks s)

/-- A host data access that answers is inside the data space. -/
theorem guardData_next {a : Nat} {s t t' : State} (h : guardData a s t' = .next t) : a < spaceSize s.cfg ∧ t = t' := by
  unfold guardData at h
  split at h
  · cases h
  · split at h
    · cases h
    · cases h; exact ⟨by omega, rfl⟩

theorem hostMemRead_acts {a : Nat} {s t : State} (h : hostMemRead a s = .next t) : Acts s (some (.memRead a)) t := by
  obtain ⟨ha, rfl⟩ := guardData_next h
  split
  · exact .memRead _ _ ha
  · exact .memRead (Machine.memRead s.mem a) s.draw ha

/-- The engine's turn of the first block that satisfies p. -/
theorem engineTurnOf_acts {p : Block → Bool} {s t : State} {e : Option Event}
    (he : ∀ b, p b = true → e = none ∨ e = some (.complete b.regBase))
    (h : engineTurnOf p { s with sched := s.sched.tail } = .next t) : ∃ u, Refocused s u ∧ Acts u e t := by
  unfold engineTurnOf at h
  split at h
  next u hu => exact ⟨u, refocused_focusOn hu, .engine (he _ (focusOn_pos hu)) h⟩
  next => cases h; exact ⟨_, refocused_tail s, .waits e⟩

theorem hostRegWrite_acts (addr width : Nat) (v : Word) (s : State) :
    ∃ u, Refocused s u ∧
      Acts u (some (.regWrite addr width v)) (hostRegWrite addr width v { s with sched := s.sched.tail }) := by
  unfold hostRegWrite
  split
  next u hu => exact ⟨u, refocused_focusOn hu, .regWrite width v (focusOn_pos hu)⟩
  next => exact ⟨_, refocused_tail s, .waits _⟩

theorem hostRegRead_acts (addr width : Nat) (s : State) :
    ∃ u, Refocused s u ∧
      Acts u (some (.regRead addr width)) (hostRegRead addr width { s with sched := s.sched.tail }) := by
  unfold hostRegRead
  split
  next u hu => exact ⟨u, refocused_focusOn hu, .regRead width (focusOn_pos hu)⟩
  next => exact ⟨_, refocused_tail s, .waits _⟩

/-- Every step is one of the actions, of the state with its blocks in some order. -/
theorem step_acts {s t : State} (h : step s = .next t) : ∃ u, Refocused s u ∧ Acts u s.sched.head? t := by
  unfold step nextTurn at h
  split at h
  next hs =>
    have htail : ({ s with sched := s.sched.tail } : State) = s := by rw [hs, List.tail_nil, ← hs]
    rw [← htail] at h
    exact engineTurnOf_acts (fun _ _ => .inl (by rw [hs]; rfl)) h
  next e rest hs =>
    rw [show rest = s.sched.tail by rw [hs]; rfl] at h
    rw [hs, List.head?_cons]
    cases e with
    | complete regBase =>
      exact engineTurnOf_acts (fun b hb => .inr (by rw [eq_of_beq hb])) h
    | regWrite addr width v => cases h; exact hostRegWrite_acts addr width v s
    | regRead addr width => cases h; exact hostRegRead_acts addr width s
    | memWrite a v =>
      obtain ⟨ha, rfl⟩ := guardData_next h
      exact ⟨_, refocused_tail s, .memWrite v ha⟩
    | memRead a => exact ⟨_, refocused_tail s, hostMemRead_acts h⟩
    | reset => cases h; exact ⟨_, refocused_tail s, .reset⟩

/-! ## What the actions of a block can do -/

/-- The engine's turn: nothing in IDLE, and in RUN a completion whose written bytes lie in the data space. -/
theorem engineTurn_cases {s t : State} (h : engineTurn s = .next t) :
    (s.blk.eng.state ≠ .run ∧ t = s) ∨
    (s.blk.eng.state = .run ∧ ∃ w o, t = complete w o s ∧
      ∀ r bs, o = .finish r bs → bs = [] ∨ s.blk.eng.dst.toNat + bs.length ≤ spaceSize s.cfg) := by
  unfold engineTurn isRunning at h
  split at h
  next hr =>
    refine .inr ⟨of_decide_eq_true hr, ?_⟩
    split at h
    next i _ =>
      obtain ⟨_, rfl⟩ := exec_next h
      refine ⟨_, _, rfl, fun r bs ho => ?_⟩
      obtain ⟨hpass, hlen⟩ := commandOutcome_finish ho
      have hfit : maxWrite i s.blk.eng.len.toNat = 0 ∨
          s.blk.eng.dst.toNat + maxWrite i s.blk.eng.len.toNat ≤ spaceSize s.cfg := (windows_fit hpass).2
      rcases hfit with h0 | hle
      · exact .inl (List.length_eq_zero_iff.1 (by omega))
      · exact .inr (by omega)
    next => cases h; exact ⟨_, _, rfl, fun _ _ ho => by cases ho⟩
  next hr => cases h; exact .inl ⟨fun h' => hr (decide_eq_true h'), rfl⟩

/-- What a 32-bit register write of v at an offset stores in a block, unless it starts a command. -/
inductive RegStored (c : Config) (v : Word) (b : Block) : Nat → Block → Prop
  | ctrl : RegStored c v b 0x04 { b with ie := v.getLsbD 0 }
  | overrun (hg : v.getLsbD 31 = true) (hb : b.busy = true) : RegStored c v b 0x08 { b with ovr := true }
  | opcode (hg : v.getLsbD 31 = false) (hb : b.busy = false) : RegStored c v b 0x08 { b with cmdOp := v.extractLsb' 0 4 }
  | status : RegStored c v b 0x0C (writeStatus v b)
  | srcAddr : RegStored c v b 0x10 { b with srcAddr := addrBits c.addrW v }
  | dstAddr : RegStored c v b 0x14 { b with dstAddr := addrBits c.addrW v }
  | srcLen : RegStored c v b 0x18 { b with srcLen := v }

/-- A register write is ignored, starts a command, or stores in the acting block alone. -/
theorem writeReg_cases (offset width : Nat) (v : Word) (s : State) :
    writeReg offset width v s = s ∨
    (width = 4 ∧ offset = 0x08 ∧ v.getLsbD 31 = true ∧ s.blk.busy = false ∧
      writeReg offset width v s = acceptCommand v s) ∨
    (width = 4 ∧ ∃ b, RegStored s.cfg v s.blk offset b ∧ writeReg offset width v s = { s with blk := b }) := by
  by_cases hacc : isRegAccess offset width = true
  case neg => exact .inl (by simp [writeReg, hacc])
  have hw : width = 4 := (of_decide_eq_true hacc).1
  simp only [writeReg, hacc, Bool.not_true, Bool.false_eq_true, if_false]
  split
  next ho => subst ho; exact .inr (.inr ⟨hw, _, .ctrl, rfl⟩)
  next =>
  split
  next ho =>
    subst ho
    unfold writeCmd
    cases hg : v.getLsbD 31 <;> cases hb : s.blk.busy
    · exact .inr (.inr ⟨hw, _, .opcode hg hb, by simp⟩)
    · exact .inl (by simp)
    · exact .inr (.inl ⟨hw, rfl, rfl, rfl, by simp⟩)
    · exact .inr (.inr ⟨hw, _, .overrun hg hb, by simp⟩)
  next =>
  split
  next ho => subst ho; exact .inr (.inr ⟨hw, _, .status, rfl⟩)
  next =>
  split
  next ho => subst ho; exact .inr (.inr ⟨hw, _, .srcAddr, rfl⟩)
  next =>
  split
  next ho => subst ho; exact .inr (.inr ⟨hw, _, .dstAddr, rfl⟩)
  next =>
  split
  next ho => subst ho; exact .inr (.inr ⟨hw, _, .srcLen, rfl⟩)
  next => exact .inl rfl

/-! ## The parameters and the places of the blocks (R19, R232) -/

@[simp] theorem hostWrote_regBase (a : Nat) (b : Block) : (hostWrote a b).regBase = b.regBase := by
  obtain ⟨_, _, h⟩ := hostWrote_eq a b
  rw [h]

@[simp] theorem clashAll_regBase (c : Config) (ps : List Block) (b : Block) : (clashAll c ps b).regBase = b.regBase := by
  obtain ⟨_, _, _, h⟩ := clashAll_eq c ps b
  rw [h]

@[simp] theorem complete_blk_regBase (w : Nat × Nat) (o : CmdOutcome) (s : State) :
    (complete w o s).blk.regBase = s.blk.regBase := by
  obtain ⟨_, _, _, h⟩ := complete_blk_eq_close w o s
  rw [h, closeCommand_regBase]

theorem RegStored.regBase {c : Config} {v : Word} {b b' : Block} {offset : Nat} (h : RegStored c v b offset b') :
    b'.regBase = b.regBase := by
  cases h <;> rfl

/-- A start leaves every block at its REG_BASE. -/
theorem acceptCommand_regBases (v : Word) (s : State) :
    (allBlocks (acceptCommand v s)).map Block.regBase = (allBlocks s).map Block.regBase := by
  have hpeers : ∀ b p : Block, (if p.eng.state = .run then clashWith s.cfg b p else p).regBase = p.regBase := by
    intro b p; split <;> rfl
  simp [acceptCommand_eq, allBlocks, hpeers]

theorem writeReg_cfg_regBases (offset width : Nat) (v : Word) (s : State) :
    (writeReg offset width v s).cfg = s.cfg ∧
      (allBlocks (writeReg offset width v s)).map Block.regBase = (allBlocks s).map Block.regBase := by
  obtain h | ⟨_, _, _, _, h⟩ | ⟨_, b, hb, h⟩ := writeReg_cases offset width v s <;> rw [h]
  · exact ⟨rfl, rfl⟩
  · exact ⟨rfl, acceptCommand_regBases v s⟩
  · exact ⟨rfl, by simp [allBlocks, hb.regBase]⟩

/-- No action changes the parameters or moves a block. -/
theorem Acts.cfg_regBases {s t : State} {e : Option Event} (h : Acts s e t) :
    t.cfg = s.cfg ∧ (allBlocks t).map Block.regBase = (allBlocks s).map Block.regBase := by
  cases h with
  | waits => exact ⟨rfl, rfl⟩
  | engine he ht =>
    obtain ⟨_, rfl⟩ | ⟨_, w, o, rfl, _⟩ := engineTurn_cases ht
    · exact ⟨rfl, rfl⟩
    · exact ⟨rfl, by simp [allBlocks]⟩
  | regWrite width v _ => exact writeReg_cfg_regBases _ width v s
  | regRead => exact ⟨rfl, rfl⟩
  | memWrite => exact ⟨rfl, by simp [allBlocks]⟩
  | memRead => exact ⟨rfl, rfl⟩
  | reset => exact ⟨rfl, by simp [allBlocks, Block.reset]⟩

/-! ## The invariant of a block -/

/-- `blockInv` with a name for each of its facts. -/
structure BlockFacts (c : Config) (b : Block) : Prop where
  busy_iff : b.busy = true ↔ b.eng.state = .run
  done_of_busy : b.busy = true → b.done = false
  err_eq : b.err = decide (b.errCode ≠ 0#4)
  errCode_of_busy : b.busy = true → b.errCode = 0#4
  srcAddr_lt : b.srcAddr.toNat < spaceSize c
  dstAddr_lt : b.dstAddr.toNat < spaceSize c
  engSrc_lt : b.eng.src.toNat < spaceSize c
  engDst_lt : b.eng.dst.toNat < spaceSize c
  word_of_busy : b.busy = true →
    b.eng.cmdw.getLsbD 31 = true ∧ b.eng.op = b.eng.cmdw.extractLsb' 0 4 ∧ b.cmdOp = b.eng.op
  startMem_of_idle : b.busy = false → b.eng.startMem = []
  hazard_of_windowHazard : b.eng.windowHazard = true → b.eng.hazard = true

theorem blockInv_iff {c : Config} {b : Block} : blockInv c b = true ↔ BlockFacts c b := by
  have himp : ∀ p q : Bool, ((!p || q) = true ↔ (p = true → q = true)) := by decide
  have hnand : ∀ p q : Bool, ((!(p && q)) = true ↔ (p = true → q = false)) := by decide
  have hor : ∀ p q : Bool, ((p || q) = true ↔ (p = false → q = true)) := by decide
  simp only [blockInv, Bool.and_eq_true, himp, hnand, hor b.busy, beq_iff_eq, decide_eq_true_eq, and_assoc]
  rw [Bool.eq_iff_iff, decide_eq_true_eq]
  exact ⟨fun ⟨h1, h2, h3, h4, h5, h6, h7, h8, h9, h10, h11⟩ => ⟨h1, h2, h3, h4, h5, h6, h7, h8, h9, h10, h11⟩,
    fun ⟨h1, h2, h3, h4, h5, h6, h7, h8, h9, h10, h11⟩ => ⟨h1, h2, h3, h4, h5, h6, h7, h8, h9, h10, h11⟩⟩

theorem spaceSize_pos (c : Config) : 0 < spaceSize c := Nat.two_pow_pos c.addrW

/-- An address register holds no more than its implemented bits. -/
theorem addrBits_lt (c : Config) (v : Word) : (addrBits c.addrW v).toNat < spaceSize c := by
  rw [addrBits, BitVec.toNat_ofNat]
  exact (Nat.mod_le ..).trans_lt (Nat.mod_lt _ (spaceSize_pos c))

theorem blockFacts_reset (c : Config) (regBase : Nat) : BlockFacts c (Block.reset regBase) where
  busy_iff := by simp [Block.reset, Engine.reset]
  done_of_busy _ := rfl
  err_eq := rfl
  errCode_of_busy _ := rfl
  srcAddr_lt := spaceSize_pos c
  dstAddr_lt := spaceSize_pos c
  engSrc_lt := spaceSize_pos c
  engDst_lt := spaceSize_pos c
  word_of_busy h := by cases h
  startMem_of_idle _ := rfl
  hazard_of_windowHazard h := by cases h

theorem BlockFacts.closeCommand {c : Config} {b : Block} (h : BlockFacts c b) (r i : Word) (code : BitVec 4) :
    BlockFacts c (closeCommand r i code b) where
  busy_iff := by simp
  done_of_busy h' := by cases h'
  err_eq := rfl
  errCode_of_busy h' := by cases h'
  srcAddr_lt := h.srcAddr_lt
  dstAddr_lt := h.dstAddr_lt
  engSrc_lt := h.engSrc_lt
  engDst_lt := h.engDst_lt
  word_of_busy h' := by cases h'
  startMem_of_idle _ := rfl
  hazard_of_windowHazard h' := by cases h'

/-- A GO word whose OP has been stored in CMD.OP may be latched. -/
theorem BlockFacts.latchCommand {c : Config} {b : Block} (h : BlockFacts c b) (m : Memory) {v : Word}
    (hgo : v.getLsbD 31 = true) :
    BlockFacts c (latchCommand c.addrW m v { b with cmdOp := v.extractLsb' 0 4 }) where
  busy_iff := by simp
  done_of_busy _ := rfl
  err_eq := rfl
  errCode_of_busy _ := rfl
  srcAddr_lt := h.srcAddr_lt
  dstAddr_lt := h.dstAddr_lt
  engSrc_lt := addrBits_lt c _
  engDst_lt := addrBits_lt c _
  word_of_busy _ := ⟨hgo, rfl, rfl⟩
  startMem_of_idle h' := by cases h'
  hazard_of_windowHazard h' := by cases h'

/-- R70 leaves the bytes of the command unspecified only together with its results. -/
theorem BlockFacts.clashWith {c : Config} {b : Block} (h : BlockFacts c b) (o : Block) :
    BlockFacts c (clashWith c o b) :=
  { h with
    hazard_of_windowHazard := by
      simp only [clashWith_eng_windowHazard, clashWith_eng_hazard, Bool.or_eq_true]
      exact Or.imp_left h.hazard_of_windowHazard }

theorem BlockFacts.clashAll {c : Config} (ps : List Block) :
    ∀ {b : Block}, BlockFacts c b → BlockFacts c (clashAll c ps b) := by
  induction ps with
  | nil => exact fun h => h
  | cons p ps ih =>
    intro b h
    by_cases hr : p.eng.state = .run
    · rw [clashAll_cons_run hr]; exact ih (h.clashWith p)
    · rw [clashAll_cons_idle hr]; exact ih h

/-- R68 leaves the bytes of the command unspecified only together with its results. -/
theorem BlockFacts.hostWrote {c : Config} {b : Block} (h : BlockFacts c b) (a : Nat) : BlockFacts c (hostWrote a b) := by
  unfold Machine.hostWrote
  split
  · exact { h with
      hazard_of_windowHazard := by
        simp only [Bool.or_eq_true]
        exact Or.imp_left fun hw => .inl (h.hazard_of_windowHazard hw) }
  · exact h

theorem BlockFacts.regStored {c : Config} {v : Word} {b b' : Block} {offset : Nat} (h : BlockFacts c b)
    (hs : RegStored c v b offset b') : BlockFacts c b' := by
  cases hs with
  | ctrl => exact { h with }
  | overrun => exact { h with }
  | opcode _ hb => exact { h with word_of_busy := fun h' => by rw [hb] at h'; cases h' }
  | status => exact { h with done_of_busy := fun hb => by rw [writeStatus_done, h.done_of_busy hb, Bool.false_and] }
  | srcAddr => exact { h with srcAddr_lt := addrBits_lt c v }
  | dstAddr => exact { h with dstAddr_lt := addrBits_lt c v }
  | srcLen => exact { h with }

/-! ## The invariant of the machine -/

/-- `stateInv` with a name for each of its facts. -/
structure StateFacts (s : State) : Prop where
  cfg_wf : s.cfg.wf = true
  mem_wf : Memory.wf s.mem = true
  mem_inSpace : memInSpace s.mem (spaceSize s.cfg) = true
  blocks : ∀ b ∈ allBlocks s, BlockFacts s.cfg b

theorem stateInv_iff {s : State} : stateInv s = true ↔ StateFacts s := by
  simp only [stateInv, Bool.and_eq_true, List.all_eq_true, blockInv_iff, and_assoc]
  exact ⟨fun ⟨h1, h2, h3, h4⟩ => ⟨h1, h2, h3, h4⟩, fun ⟨h1, h2, h3, h4⟩ => ⟨h1, h2, h3, h4⟩⟩

theorem StateFacts.blk {s : State} (h : StateFacts s) : BlockFacts s.cfg s.blk := h.blocks _ (List.mem_cons_self ..)

theorem StateFacts.peer {s : State} (h : StateFacts s) {p : Block} (hp : p ∈ s.peers) : BlockFacts s.cfg p :=
  h.blocks p (List.mem_cons_of_mem _ hp)

theorem StateFacts.refocused {s u : State} (h : StateFacts s) (hu : Refocused s u) : StateFacts u where
  cfg_wf := hu.cfg ▸ h.cfg_wf
  mem_wf := hu.mem ▸ h.mem_wf
  mem_inSpace := by rw [hu.mem, hu.cfg]; exact h.mem_inSpace
  blocks b hb := hu.cfg ▸ h.blocks b (hu.2.mem_iff.1 hb)

/-- Only the acting block changes. -/
theorem StateFacts.withBlk {s : State} (h : StateFacts s) {b : Block} (hb : BlockFacts s.cfg b) :
    StateFacts { s with blk := b } :=
  { h with blocks := List.forall_mem_cons.2 ⟨hb, fun _ => h.peer⟩ }

theorem StateFacts.complete {s : State} (h : StateFacts s) (w : Nat × Nat) {o : CmdOutcome}
    (ho : ∀ r bs, o = .finish r bs → bs = [] ∨ s.blk.eng.dst.toNat + bs.length ≤ spaceSize s.cfg) :
    StateFacts (complete w o s) where
  cfg_wf := h.cfg_wf
  mem_wf := complete_mem_wf o h.mem_wf
  mem_inSpace := complete_mem_inSpace h.mem_inSpace ho
  blocks := by
    obtain ⟨r, i, code, hb⟩ := complete_blk_eq_close w o s
    rw [allBlocks, hb]
    exact List.forall_mem_cons.2 ⟨h.blk.closeCommand r i code, fun _ => h.peer⟩

theorem StateFacts.acceptCommand {s : State} (h : StateFacts s) {v : Word} (hgo : v.getLsbD 31 = true) :
    StateFacts (acceptCommand v s) :=
  { h with
    blocks := by
      rw [acceptCommand_eq]
      refine List.forall_mem_cons.2 ⟨(h.blk.latchCommand s.mem hgo).clashAll s.peers, fun q hq => ?_⟩
      obtain ⟨p, hp, rfl⟩ := List.mem_map.1 hq
      split
      · exact (h.peer hp).clashWith _
      · exact h.peer hp }

theorem StateFacts.writeReg {s : State} (h : StateFacts s) (offset width : Nat) (v : Word) :
    StateFacts (writeReg offset width v s) := by
  obtain heq | ⟨_, _, hgo, _, heq⟩ | ⟨_, b, hb, heq⟩ := writeReg_cases offset width v s <;> rw [heq]
  · exact h
  · exact h.acceptCommand hgo
  · exact h.withBlk (h.blk.regStored hb)

theorem StateFacts.hostWrote {s : State} (h : StateFacts s) {a : Nat} (v : Byte) (ha : a < spaceSize s.cfg) :
    StateFacts { s with mem := memWrite s.mem a v, blk := hostWrote a s.blk, peers := s.peers.map (hostWrote a) } where
  cfg_wf := h.cfg_wf
  mem_wf := memWrite_wf h.mem_wf a v
  mem_inSpace := memInSpace_memWrite v ha h.mem_inSpace
  blocks := List.forall_mem_cons.2 ⟨h.blk.hostWrote a, List.forall_mem_map.2 fun _ hp => (h.peer hp).hostWrote a⟩

theorem StateFacts.resetBlocks {s : State} (h : StateFacts s) : StateFacts (resetBlocks s) where
  cfg_wf := h.cfg_wf
  mem_wf := resetMem_wf h.mem_wf
  mem_inSpace := resetMem_inSpace h.mem_inSpace
  blocks := List.forall_mem_cons.2
    ⟨blockFacts_reset s.cfg _, List.forall_mem_map.2 fun p _ => blockFacts_reset s.cfg p.regBase⟩

/-- Every action keeps the invariant. -/
theorem StateFacts.acts {s t : State} {e : Option Event} (h : StateFacts s) (ha : Acts s e t) : StateFacts t := by
  cases ha with
  | waits => exact h
  | engine _ ht =>
    obtain ⟨_, rfl⟩ | ⟨_, w, o, rfl, ho⟩ := engineTurn_cases ht
    · exact h
    · exact h.complete w ho
  | regWrite width v _ => exact h.writeReg _ width v
  | regRead => exact { h with }
  | memWrite v hlt => exact h.hostWrote v hlt
  | memRead => exact { h with }
  | reset => exact h.resetBlocks

/-! ## The host's write of a data byte -/

/-- A host data access beyond the data space faults (R50). -/
theorem step_memWrite_beyond {s : State} {a : Nat} {v : Byte} {rest : List Event} (ha : 2 ^ s.cfg.addrW ≤ a)
    (h : s.sched = .memWrite a v :: rest) : step s = .fault (.noSuchAddress a) := by
  simp only [step, nextTurn, h, runEvent, hostMemWrite, guardData, spaceSize, if_pos ha]

/-- A write that keeps the host's duty leaves every block as it is (R68). -/
theorem hostWrote_of_dutyKept {s : State} {a : Nat} {v : Byte} (h : dutyKept s (.memWrite a v) = true) :
    ∀ b ∈ allBlocks s, hostWrote a b = b := fun b hb =>
  hostWrote_of_outside (Bool.not_eq_true' _ ▸ List.all_eq_true.1 h b hb)

end Sys2Proof.Machine

namespace Sys2Proof.Proofs

open Sys2Proof.Machine

/-- Settles O58: every step is an action of a state with the same blocks (`step_acts`), and every action keeps the
invariant. -/
theorem stepKeepsInvariant : Obligations.StepKeepsInvariant := by
  intro s t hs hstep
  obtain ⟨u, hu, ha⟩ := step_acts hstep
  exact stateInv_iff.2 (((stateInv_iff.1 hs).refocused hu).acts ha)

/-- Settles O60: an action changes neither, and which block acts only reorders them. -/
theorem stepKeepsParameters : Obligations.StepKeepsParameters := by
  intro s t hstep
  obtain ⟨u, hu, ha⟩ := step_acts hstep
  obtain ⟨hcfg, hbase⟩ := ha.cfg_regBases
  exact ⟨hcfg.trans hu.cfg, hbase ▸ hu.2.map Block.regBase⟩

/-- Settles O51: a host write stores its byte and marks running commands, those whose windows hold the address. -/
theorem hostDataWrite : Obligations.HostDataWrite := by
  intro s a v rest hwf hsched
  refine ⟨fun ha => step_memWrite_beyond ha hsched, fun ha hdev => ⟨_, step_memWrite ha hdev hsched, ?_, ?_, ?_, ?_⟩⟩
  · rw [memRead_memWrite hwf, if_pos rfl]
  · intro c hc
    rw [memRead_memWrite hwf, if_neg hc]
  · obtain ⟨hz, wh, h⟩ := hostWrote_eq a s.blk
    simp only [h]
  · intro hduty
    have hkeep := hostWrote_of_dutyKept hduty
    exact ⟨hkeep _ (List.mem_cons_self ..),
      List.map_congr_left (fun p hp => hkeep p (List.mem_cons_of_mem _ hp)) |>.trans (List.map_id' _)⟩

end Sys2Proof.Proofs
end

section
/-! PROOFS. The register window, its read and write effects on STATUS, CTRL and the operand registers, the reset values,
and which steps can change DONE, RESULT, ERR_INFO and data memory. -/

namespace Sys2Proof.Machine

/-! ## What a register read returns (R22, R56) -/

@[simp] theorem readReg_id (b : Block) : readReg b 0x00 4 = idValue := rfl
@[simp] theorem readReg_ctrl (b : Block) : readReg b 0x04 4 = (BitVec.ofBool b.ie).setWidth 32 := rfl
@[simp] theorem readReg_cmd (b : Block) : readReg b 0x08 4 = b.cmdOp.setWidth 32 := rfl
@[simp] theorem readReg_status (b : Block) : readReg b 0x0C 4 = statusWord b := rfl
@[simp] theorem readReg_srcAddr (b : Block) : readReg b 0x10 4 = b.srcAddr := rfl
@[simp] theorem readReg_dstAddr (b : Block) : readReg b 0x14 4 = b.dstAddr := rfl
@[simp] theorem readReg_srcLen (b : Block) : readReg b 0x18 4 = b.srcLen := rfl
@[simp] theorem readReg_result (b : Block) : readReg b 0x1C 4 = b.result := rfl
@[simp] theorem readReg_errInfo (b : Block) : readReg b 0x20 4 = b.errInfo := rfl

/-- Reserved and unaligned offsets and every width but 32 bits read 0 (R37, R56). -/
theorem readReg_reserved {b : Block} {offset width : Nat} (h : width ≠ 4 ∨ offset % 4 ≠ 0 ∨ 0x24 ≤ offset) :
    readReg b offset width = 0#32 := by
  unfold readReg
  split
  next hacc =>
    obtain ⟨hw, ha⟩ := of_decide_eq_true hacc
    have ho : 0x24 ≤ offset := by omega
    simp (disch := omega) only [regValue, if_neg]
  next => rfl

theorem readReg_ctrl_toNat (b : Block) : (readReg b 0x04 4).toNat = if b.ie then 1 else 0 := by
  rw [readReg_ctrl]
  cases b.ie <;> rfl

theorem readReg_cmd_toNat (b : Block) : (readReg b 0x08 4).toNat = b.cmdOp.toNat := by
  rw [readReg_cmd]
  exact BitVec.toNat_setWidth_of_le (by decide)

/-- Bit 0 as a number. -/
theorem bitZero_toNat (v : Word) : (if v.getLsbD 0 then 1 else 0) = v.toNat % 2 := by
  rw [← BitVec.testBit_toNat, Nat.testBit_zero]
  obtain h | h := Nat.mod_two_eq_zero_or_one v.toNat <;> simp [h]

/-! ## The fields of STATUS (R26) -/

/-- STATUS bit by bit: BUSY, DONE, ERR, OVR, the four bits of ERRCODE, then 0. -/
theorem statusWord_getLsbD (b : Block) (k : Nat) :
    (statusWord b).getLsbD k =
      match k with
      | 0 => b.busy
      | 1 => b.done
      | 2 => b.err
      | 3 => b.ovr
      | j + 4 => b.errCode.getLsbD j := by
  change BitVec.getLsbD (w := 24 + 4 + 1 + 1 + 1 + 1) _ k = _
  simp only [statusWord, BitVec.getLsbD_append]
  match k with
  | 0 | 1 | 2 | 3 => simp
  | j + 4 => simpa using BitVec.lt_of_getLsbD

theorem statusWord_errCode (b : Block) : (statusWord b).extractLsb' 4 4 = b.errCode := by
  ext k hk
  rw [BitVec.getElem_extractLsb', Nat.add_comm]
  exact (statusWord_getLsbD b (k + 4)).trans (BitVec.getLsbD_eq_getElem hk)

theorem statusWord_upper (b : Block) : (statusWord b).extractLsb' 8 24 = 0#24 := by
  ext k hk
  rw [BitVec.getElem_extractLsb', Nat.add_comm, BitVec.getElem_zero]
  exact (statusWord_getLsbD b (k + 4 + 4)).trans (BitVec.getLsbD_of_ge _ _ (Nat.le_add_left ..))

/-! ## What a register write stores -/

/-- A write to a read-only or reserved offset, an unaligned one or one of another width is ignored (R23, R34, R35, R37,
R56):
no offset that stores anything or starts a command is one of those. -/
theorem writeReg_ignored {offset width : Nat} (v : Word) (s : State)
    (h : width ≠ 4 ∨ offset % 4 ≠ 0 ∨ offset = 0x00 ∨ 0x1C ≤ offset) : writeReg offset width v s = s := by
  obtain heq | ⟨hw, ho, _⟩ | ⟨hw, b, hb, _⟩ := writeReg_cases offset width v s
  · exact heq
  · omega
  · cases hb <;> omega

/-- The implemented bits of an address (R31). -/
theorem addrBits_toNat (n : Nat) (v : Word) : (addrBits n v).toNat = v.toNat % 2 ^ n := by
  rw [addrBits, BitVec.toNat_ofNat]
  exact Nat.mod_eq_of_lt ((Nat.mod_le ..).trans_lt v.isLt)

theorem step_writeCtrl {s : State} {v : Word} {rest : List Event}
    (h : s.sched = .regWrite (s.blk.regBase + 0x04) 4 v :: rest) :
    step s = .next { s with sched := rest, blk := { s.blk with ie := v.getLsbD 0 } } :=
  step_regWrite (by decide) h

theorem step_writeStatus {s : State} {v : Word} {rest : List Event}
    (h : s.sched = .regWrite (s.blk.regBase + 0x0C) 4 v :: rest) :
    step s = .next { s with sched := rest, blk := writeStatus v s.blk } :=
  step_regWrite (by decide) h

/-- A 1 in bit 1 clears DONE and a 1 in bit 3 clears OVR (R26). -/
theorem writeStatus_eq_ite (v : Word) (b : Block) :
    writeStatus v b =
      { b with
        done := if v.getLsbD 1 then false else b.done
        ovr := if v.getLsbD 3 then false else b.ovr } := by
  have hclear : ∀ field bit : Bool, (field && !bit) = if bit then false else field := by decide
  rw [← hclear, ← hclear]
  rfl

/-! ## The reset values (R43) -/

/-- Every register at the value R43 gives, the engine IDLE, no interrupt. -/
structure AtResetValues (b : Block) : Prop where
  id : readReg b 0x00 4 = 0x53450001#32
  ie : b.ie = false
  cmdOp : b.cmdOp = 0#4
  busy : b.busy = false
  done : b.done = false
  err : b.err = false
  ovr : b.ovr = false
  errCode : b.errCode = 0#4
  srcAddr : b.srcAddr = 0#32
  dstAddr : b.dstAddr = 0#32
  srcLen : b.srcLen = 0#32
  result : b.result = 0#32
  errInfo : b.errInfo = 0#32
  idle : b.eng.state = .idle
  irq : irq b = false

theorem atResetValues_reset (regBase : Nat) : AtResetValues (Block.reset regBase) := by
  constructor <;> rfl

theorem defaultConfig_wf : defaultConfig.wf = true := by decide

theorem stateFacts_reset : StateFacts State.reset where
  cfg_wf := defaultConfig_wf
  mem_wf := rfl
  mem_inSpace := rfl
  blocks := List.forall_mem_singleton.2 (blockFacts_reset defaultConfig 0)

/-! ## The interrupt output (R41) -/

theorem irq_iff {b : Block} : irq b = true ↔ b.done = true ∧ b.ie = true := Bool.and_eq_true_iff

/-! ## What the shared updates keep of a block -/

@[simp] theorem hostWrote_done (a : Nat) (b : Block) : (hostWrote a b).done = b.done := by
  obtain ⟨_, _, h⟩ := hostWrote_eq a b
  rw [h]

@[simp] theorem hostWrote_result (a : Nat) (b : Block) : (hostWrote a b).result = b.result := by
  obtain ⟨_, _, h⟩ := hostWrote_eq a b
  rw [h]

@[simp] theorem hostWrote_errInfo (a : Nat) (b : Block) : (hostWrote a b).errInfo = b.errInfo := by
  obtain ⟨_, _, h⟩ := hostWrote_eq a b
  rw [h]

@[simp] theorem acceptCommand_result (v : Word) (s : State) : (acceptCommand v s).blk.result = s.blk.result := by
  obtain ⟨_, _, _, h⟩ := clashAll_eq s.cfg s.peers
    (latchCommand s.cfg.addrW s.mem v { s.blk with cmdOp := v.extractLsb' 0 4 })
  simp [acceptCommand_eq, h]

@[simp] theorem acceptCommand_errInfo (v : Word) (s : State) : (acceptCommand v s).blk.errInfo = s.blk.errInfo := by
  obtain ⟨_, _, _, h⟩ := clashAll_eq s.cfg s.peers
    (latchCommand s.cfg.addrW s.mem v { s.blk with cmdOp := v.extractLsb' 0 4 })
  simp [acceptCommand_eq, h]

theorem RegStored.results {c : Config} {v : Word} {b b' : Block} {offset : Nat} (h : RegStored c v b offset b') :
    b'.result = b.result ∧ b'.errInfo = b.errInfo := by
  cases h <;> exact ⟨rfl, rfl⟩

/-- Of the stores, only a STATUS write with bit 1 set clears DONE (R28). -/
theorem RegStored.done_cleared {c : Config} {v : Word} {b b' : Block} {offset : Nat} (h : RegStored c v b offset b')
    (hb : b.done = true) (hb' : b'.done = false) : offset = 0x0C ∧ v.getLsbD 1 = true := by
  cases h with
  | status => exact ⟨rfl, by simpa [hb] using hb'⟩
  | _ => exact absurd (hb.symm.trans hb') (by decide)

/-! ## What a register write keeps -/

@[simp] theorem writeReg_mem (offset width : Nat) (v : Word) (s : State) : (writeReg offset width v s).mem = s.mem := by
  obtain h | ⟨_, _, _, _, h⟩ | ⟨_, b, _, h⟩ := writeReg_cases offset width v s <;> rw [h]
  exact acceptCommand_mem v s

theorem writeReg_results (offset width : Nat) (v : Word) (s : State) :
    (writeReg offset width v s).blk.result = s.blk.result ∧ (writeReg offset width v s).blk.errInfo = s.blk.errInfo := by
  obtain h | ⟨_, _, _, _, h⟩ | ⟨_, b, hb, h⟩ := writeReg_cases offset width v s <;> rw [h]
  · exact ⟨rfl, rfl⟩
  · exact ⟨acceptCommand_result v s, acceptCommand_errInfo v s⟩
  · exact hb.results

/-- The two register writes that clear DONE: the acknowledgement and an accepted GO write (R28). -/
theorem writeReg_done_cleared {offset width : Nat} {v : Word} {s : State} (hs : s.blk.done = true)
    (ht : (writeReg offset width v s).blk.done = false) :
    width = 4 ∧ (offset = 0x0C ∧ v.getLsbD 1 = true ∨ offset = 0x08 ∧ v.getLsbD 31 = true ∧ s.blk.busy = false) := by
  obtain h | ⟨hw, ho, hgo, hidle, _⟩ | ⟨hw, b, hb, h⟩ := writeReg_cases offset width v s
  · rw [h, hs] at ht; cases ht
  · exact ⟨hw, .inr ⟨ho, hgo, hidle⟩⟩
  · rw [h] at ht; exact ⟨hw, .inl (hb.done_cleared hs ht)⟩

/-! ## Which actions change DONE, the results and data memory -/

/-- An address in the register window is REG_BASE plus an offset (R9). -/
theorem eq_regBase_add_of_windowHolds {addr : Nat} {b : Block} (h : windowHolds addr b = true) :
    addr = b.regBase + (addr - b.regBase) :=
  (Nat.add_sub_cancel' (inRange_iff.1 h).1).symm

/-- R28, of the acting block. -/
theorem Acts.done_cleared {s t : State} {e : Option Event} (h : Acts s e t) (hs : s.blk.done = true)
    (ht : t.blk.done = false) :
    e = some .reset ∨ (∃ v, e = some (.regWrite (s.blk.regBase + 0x0C) 4 v) ∧ v.getLsbD 1 = true) ∨
      (∃ v, e = some (.regWrite (s.blk.regBase + 0x08) 4 v) ∧ v.getLsbD 31 = true) ∧ s.blk.busy = false := by
  have hkept : t.blk.done ≠ s.blk.done := by rw [hs, ht]; decide
  cases h with
  | waits => exact absurd rfl hkept
  | engine _ hturn =>
    obtain ⟨_, rfl⟩ | ⟨_, w, o, rfl, _⟩ := engineTurn_cases hturn
    · exact absurd rfl hkept
    · obtain ⟨_, _, _, hclose⟩ := complete_blk_eq_close w o s
      rw [hclose] at ht; cases ht
  | regWrite width v ha =>
    rw [eq_regBase_add_of_windowHolds ha]
    obtain ⟨rfl, ⟨ho, hack⟩ | ⟨ho, hgo, hidle⟩⟩ := writeReg_done_cleared hs ht <;> rw [ho]
    · exact .inr (.inl ⟨v, rfl, hack⟩)
    · exact .inr (.inr ⟨⟨v, rfl, hgo⟩, hidle⟩)
  | regRead => exact absurd rfl hkept
  | memWrite => exact absurd (hostWrote_done ..) hkept
  | memRead => exact absurd rfl hkept
  | reset => exact .inl rfl

/-- R34 and R35, of the acting block: its results are kept but by its completion and reset. -/
theorem Acts.results_kept {s t : State} {e : Option Event} (h : Acts s e t) :
    (t.blk.result = s.blk.result ∧ t.blk.errInfo = s.blk.errInfo) ∨
      (s.blk.eng.state = .run ∧ t.blk.eng.state = .idle ∧ t.blk.done = true) ∨ e = some .reset := by
  cases h with
  | waits => exact .inl ⟨rfl, rfl⟩
  | engine _ hturn =>
    obtain ⟨_, rfl⟩ | ⟨hrun, w, o, rfl, _⟩ := engineTurn_cases hturn
    · exact .inl ⟨rfl, rfl⟩
    · obtain ⟨_, _, _, hclose⟩ := complete_blk_eq_close w o s
      exact .inr (.inl ⟨hrun, by rw [hclose]; rfl, by rw [hclose]; rfl⟩)
  | regWrite width v _ => exact .inl (writeReg_results _ width v s)
  | regRead => exact .inl ⟨rfl, rfl⟩
  | memWrite => exact .inl ⟨hostWrote_result .., hostWrote_errInfo ..⟩
  | memRead => exact .inl ⟨rfl, rfl⟩
  | reset => exact .inr (.inr rfl)

/-- Data memory is kept but by the turn of a running engine, a host write and reset (R40, R50, R231). -/
theorem Acts.mem_kept {s t : State} {e : Option Event} (h : Acts s e t) :
    t.mem = s.mem ∨ (s.blk.eng.state = .run ∧ (e = none ∨ e = some (.complete s.blk.regBase))) ∨
      (∃ a v, e = some (.memWrite a v)) ∨ e = some .reset := by
  cases h with
  | waits => exact .inl rfl
  | engine he hturn =>
    obtain ⟨_, rfl⟩ | ⟨hrun, _⟩ := engineTurn_cases hturn
    · exact .inl rfl
    · exact .inr (.inl ⟨hrun, he⟩)
  | regWrite width v _ => exact .inl (writeReg_mem _ width v s)
  | regRead => exact .inl rfl
  | memWrite v _ => exact .inr (.inr (.inl ⟨_, v, rfl⟩))
  | memRead => exact .inl rfl
  | reset => exact .inr (.inr (.inr rfl))

/-! ## Steps of a machine with one block -/

/-- With no peers there is no other block to bring to act. -/
theorem Refocused.eq_of_alone {s u : State} (h : Refocused s u) (hs : s.peers = []) :
    u = { s with sched := s.sched.tail } := by
  obtain ⟨hu, hperm⟩ := h
  rw [allBlocks, allBlocks, hs, List.perm_singleton] at hperm
  obtain ⟨hblk, hpeers⟩ := List.cons.inj hperm
  rw [hu, hblk, hpeers, ← hs]

/-- With one block, every step is an action of the state itself. -/
theorem step_acts_of_alone {s t : State} (hs : s.peers = []) (h : step s = .next t) :
    Acts { s with sched := s.sched.tail } s.sched.head? t := by
  obtain ⟨u, hu, ha⟩ := step_acts h
  rwa [hu.eq_of_alone hs] at ha

end Sys2Proof.Machine

namespace Sys2Proof.Proofs

open Sys2Proof.Machine

/-- Settles O33: the read returns `readReg`, one lemma for each register of the map and one for the reserved space. -/
theorem registerReadMap : Obligations.RegisterReadMap := by
  intro s offset width rest ho hsched
  refine ⟨_, step_regRead ho hsched, ?_, readReg_reserved⟩
  rintro rfl
  refine ⟨?_, ?_, ?_, ?_, ?_, ?_, ?_, ?_, ?_⟩ <;> rintro rfl
  · exact readReg_id _
  · exact readReg_ctrl_toNat _
  · exact readReg_cmd_toNat _
  · exact readReg_status _
  · exact readReg_srcAddr _
  · exact readReg_dstAddr _
  · exact readReg_srcLen _
  · exact readReg_result _
  · exact readReg_errInfo _

/-- Settles O34, by `writeReg_ignored`. -/
theorem ignoredRegisterWrites : Obligations.IgnoredRegisterWrites := by
  intro s offset width v rest ho hsched hign
  rw [step_regWrite ho hsched, writeReg_ignored v _ hign]

/-- Settles O36: the two address registers store `addrBits` of the value, SRC_LEN the value. -/
theorem operandRegisterWrites : Obligations.OperandRegisterWrites := by
  have hreset := atResetValues_reset 0
  refine ⟨hreset.srcAddr, hreset.dstAddr, hreset.srcLen, fun s v rest _ => ⟨fun h => ?_, fun h => ?_, fun h => ?_⟩⟩
  · exact ⟨addrBits s.cfg.addrW v, step_regWrite (by decide) h, addrBits_toNat .., readReg_srcAddr _⟩
  · exact ⟨addrBits s.cfg.addrW v, step_regWrite (by decide) h, addrBits_toNat .., readReg_dstAddr _⟩
  · exact ⟨step_regWrite (by decide) h, readReg_srcLen _⟩

/-- Settles O37: a CTRL write stores bit 0 in IE, and CTRL reads as IE. -/
theorem ctrlHoldsInterruptEnable : Obligations.CtrlHoldsInterruptEnable := by
  refine ⟨(atResetValues_reset 0).ie, fun b hb => ?_, fun s v rest h =>
    ⟨_, step_writeCtrl h, rfl, (readReg_ctrl_toNat _).trans (bitZero_toNat v)⟩⟩
  rw [irq, hb, Bool.and_false]

/-- Settles O38: the fields of `statusWord`, and `writeStatus` as the step of a STATUS write. -/
theorem statusFieldsAndWriteOneToClear : Obligations.StatusFieldsAndWriteOneToClear := by
  refine ⟨rfl, fun b => ?_, fun s v rest h => ?_⟩
  · rw [readReg_status]
    exact ⟨statusWord_getLsbD b 0, statusWord_getLsbD b 1, statusWord_getLsbD b 2, statusWord_getLsbD b 3,
      statusWord_errCode b, statusWord_upper b⟩
  · rw [step_writeStatus h, writeStatus_eq_ite]

/-- Settles O43: a CTRL write leaves DONE and sets IE, a STATUS write with bit 1 set clears DONE. -/
theorem interruptFollowsDoneAndEnable : Obligations.InterruptFollowsDoneAndEnable := by
  refine ⟨fun _ => irq_iff, fun s v rest => ⟨fun h => ⟨_, step_writeCtrl h, rfl, rfl⟩, fun h hack => ?_⟩⟩
  have hdone : (writeStatus v s.blk).done = false := by rw [writeStatus_done, hack, Bool.not_true, Bool.and_false]
  exact ⟨_, step_writeStatus h, hdone, by rw [irq, hdone, Bool.false_and]⟩

/-- Settles O44: the step is an action of the one block, and `Acts.done_cleared` lists those that clear DONE. -/
theorem doneIsClearedOnlyAsStated : Obligations.DoneIsClearedOnlyAsStated := by
  intro s t halone hs hstep ht
  obtain he | ⟨v, he, hack⟩ | ⟨⟨v, he, hgo⟩, hidle⟩ := (step_acts_of_alone halone hstep).done_cleared hs ht <;>
    obtain ⟨rest, hsched⟩ := List.head?_eq_some_iff.1 he
  · exact ⟨_, rest, hsched, .inl rfl⟩
  · exact ⟨_, rest, hsched, .inr (.inl ⟨v, rfl, hack⟩)⟩
  · exact ⟨_, rest, hsched, .inr (.inr ⟨⟨v, rfl, hgo⟩, hidle⟩)⟩

/-- Settles O45: the step is an action of the one block, and `Acts.results_kept` says which of them keep its results. -/
theorem resultsChangeOnlyAtCompletion : Obligations.ResultsChangeOnlyAtCompletion := by
  intro s t halone hstep hchange
  obtain ⟨hr, hi⟩ | hcomp | he := (step_acts_of_alone halone hstep).results_kept
  · exact (hchange.elim (· hr) (· hi)).elim
  · exact .inl hcomp
  · exact .inr (List.head?_eq_some_iff.1 he)

/-- Settles O46: the step is an action of one of the blocks, and `Acts.mem_kept` says which of them keep data memory. -/
theorem dataMemoryChangesOnlyAsStated : Obligations.DataMemoryChangesOnlyAsStated := by
  intro s t hstep hchange
  obtain ⟨u, hu, ha⟩ := step_acts hstep
  obtain hmem | ⟨hrun, he⟩ | ⟨a, v, he⟩ | he := ha.mem_kept
  · exact (hchange (hmem.trans hu.mem)).elim
  · exact .inl ⟨u.blk, hu.2.mem_iff.1 (List.mem_cons_self ..), hrun,
      he.imp List.head?_eq_none_iff.1 List.head?_eq_some_iff.1⟩
  · exact .inr (.inl ⟨a, v, List.head?_eq_some_iff.1 he⟩)
  · exact .inr (.inr (List.head?_eq_some_iff.1 he))

/-- Settles O47: `AtResetValues` of the one block. -/
theorem resetValues : Obligations.ResetValues := by
  obtain ⟨hid, hie, hop, hbusy, hdone, herr, hovr, hcode, hsrc, hdst, hlen, hres, hinfo, hidle, hirq⟩ :=
    atResetValues_reset 0
  exact ⟨hid, hie, hop, hbusy, hdone, herr, hovr, hcode, hsrc, hdst, hlen, hres, hinfo, hidle, hirq⟩

/-- Settles O57, by `blockFacts_reset` and the well-formedness of the default parameters. -/
theorem resetMeetsInvariant : Obligations.ResetMeetsInvariant := stateInv_iff.2 stateFacts_reset

end Sys2Proof.Proofs
end

section
/-! PROOFS. Commands and the host on data memory: what a failed window check and a device window give, the frame of every
command, what an outcome depends on, the host's accesses, and commands of several blocks side by side. -/

namespace Sys2Proof.Machine

/-! ## Windows that fail a check or are not ordinary memory (R59, R61, R100) -/

/-- A window past the top of the data space fails check 2, which comes first (R212). -/
theorem checkWindows_of_pastTop {i : Instr} {c : Config} {e : Engine}
    (h : pastTop c (sourceWindow i e) = true ∨ pastTop c (writeWindow i e) = true) :
    checkWindows i c e = some .range := by
  rw [checkWindows, rangeFails, if_pos (Bool.or_eq_true .. ▸ h)]

/-- The error of a check makes no data access: no byte after RANGE or OVERLAP (R106). -/
theorem outcomeMem_of_failedCheck {i : Instr} {c : Config} {e : Engine} {code : ErrCode}
    (h : checkWindows i c e = some code) (w : Nat × Nat) (info : Word) (s : State) :
    outcomeMem w s (.error code info) = s.mem := by
  unfold checkWindows at h
  split at h
  · cases h; rfl
  · split at h
    · cases h; rfl
    · cases h

/-- A command that fails a check completes with its error, and no window is looked at further. -/
theorem exec_of_failedCheck {i : Instr} {s : State} {code : ErrCode}
    (h : checkWindows i s.cfg s.blk.eng = some code) :
    exec i s = .next (complete (writeWindow i s.blk.eng) (.error code 0#32) s) := by
  have hr : windowsRefused i s = false := by rw [windowsRefused, h]; rfl
  rw [exec_of_ordinary hr, commandOutcome_of_fail h]

/-- A command that passes its checks and points a window at a device is refused by name. -/
theorem exec_of_touchesDevice {i : Instr} {s : State} (hc : checkWindows i s.cfg s.blk.eng = none)
    (hd : touchesDevice i s.cfg s.blk.eng = true) : exec i s = .refused .notOrdinaryMemory := by
  have hr : windowsRefused i s = true := by rw [windowsRefused, hc, hd]; rfl
  rw [exec_eq_runCommand, runCommand, if_pos hr]

/-! ## What a completion leaves where R68 and R70 leave it unspecified, and its frame -/

/-- Completion under a hazard: the results are free values. -/
theorem complete_blk_of_hazard {s : State} (h : s.blk.eng.hazard = true) (w : Nat × Nat) (o : CmdOutcome) :
    (complete w o s).blk = hazardBlock s.draw s.blk := if_pos h

/-- Data memory after the writes of a completion in its window, before the ranges that R70 leaves unspecified. -/
def windowMem (w : Nat × Nat) (o : CmdOutcome) (s : State) : Memory :=
  if s.blk.eng.windowHazard then memScrambleIn (spaceSize s.cfg) s.draw s.mem w else outcomeMem w s o

theorem complete_mem_eq (w : Nat × Nat) (o : CmdOutcome) (s : State) :
    (complete w o s).mem = s.blk.eng.foul.foldl (memScrambleIn (spaceSize s.cfg) s.draw) (windowMem w o s) := rfl

theorem windowMem_of_calm {s : State} (h : s.blk.eng.windowHazard = false) (w : Nat × Nat) (o : CmdOutcome) :
    windowMem w o s = outcomeMem w s o := by
  rw [windowMem, h]; rfl

theorem windowMem_of_hazard {s : State} (h : s.blk.eng.windowHazard = true) (w : Nat × Nat) (o : CmdOutcome) :
    windowMem w o s = memScrambleIn (spaceSize s.cfg) s.draw s.mem w := if_pos h

theorem windowMem_wf {w : Nat × Nat} {s : State} (o : CmdOutcome) (hm : Memory.wf s.mem = true) :
    Memory.wf (windowMem w o s) = true := by
  unfold windowMem
  split
  · exact memScrambleIn_wf _ _ hm w
  · exact outcomeMem_wf o hm

/-- Outside the ranges of R70 a completion leaves what it wrote in its window. -/
theorem memRead_complete_outside_foul {w : Nat × Nat} {o : CmdOutcome} {s : State} {a : Nat}
    (hm : Memory.wf s.mem = true) (hf : ∀ r ∈ s.blk.eng.foul, inRange a r = false) :
    memRead (complete w o s).mem a = memRead (windowMem w o s) a := by
  rw [complete_mem_eq, memRead_foldl_memScrambleIn_outside _ _ _ (windowMem_wf o hm)]
  intro r hr
  have := mt inRange_iff.2 (Bool.eq_false_iff.1 (hf r hr))
  omega

/-- Every byte of the data space that R70 leaves unspecified is a free one after the completion. -/
theorem memRead_complete_foul {w : Nat × Nat} {o : CmdOutcome} {s : State} {a : Nat} (hm : Memory.wf s.mem = true)
    (ha : a < spaceSize s.cfg) (hf : s.blk.eng.foul.any (inRange a) = true) :
    memRead (complete w o s).mem a = Config.freeByte s.draw a := by
  obtain ⟨r, hr, har⟩ := List.any_eq_true.1 hf
  exact memRead_foldl_memScrambleIn_inside _ _ _ ha (windowMem_wf o hm) ⟨r, hr, inRange_iff.1 har⟩

/-- Every byte of an unspecified window in the data space is a free one after the completion. -/
theorem memRead_complete_windowHazard {w : Nat × Nat} {o : CmdOutcome} {s : State} {a : Nat}
    (hm : Memory.wf s.mem = true) (hz : s.blk.eng.windowHazard = true) (ha : a < spaceSize s.cfg)
    (haw : inRange a w = true) : memRead (complete w o s).mem a = Config.freeByte s.draw a := by
  obtain ⟨h1, h2⟩ := inRange_iff.1 haw
  have hfree : memRead (windowMem w o s) a = Config.freeByte s.draw a := by
    rw [windowMem_of_hazard hz, memRead_memScrambleIn_inside _ _ hm w h1 h2 ha]
  exact memRead_foldl_memScrambleIn_of_free _ _ _ ha (windowMem_wf o hm) hfree

/-- A command that completes changes no byte outside its write window and the ranges of R70. -/
theorem memRead_exec_outside {i : Instr} {s t : State} {a : Nat} (hm : Memory.wf s.mem = true) (h : exec i s = .next t)
    (ha : a < s.blk.eng.dst.toNat ∨ s.blk.eng.dst.toNat + maxWrite i s.blk.eng.len.toNat ≤ a)
    (hf : ∀ r ∈ s.blk.eng.foul, inRange a r = false) : memRead t.mem a = memRead s.mem a := by
  obtain ⟨_, rfl⟩ := exec_next h
  rw [memRead_complete_outside_foul hm hf]
  cases hz : s.blk.eng.windowHazard
  · rw [windowMem_of_calm hz]
    exact memRead_outcomeMem_outside hm rfl (fun r bs ho => (commandOutcome_finish ho).2) ha
  · rw [windowMem_of_hazard hz]
    exact memRead_memScrambleIn_outside _ _ hm _ ha

/-- A failed check on a command whose results and window are specified: its error, and no byte but those of R70. -/
theorem exec_failed_of_failedCheck {i : Instr} {s : State} {code : ErrCode}
    (h : checkWindows i s.cfg s.blk.eng = some code) (hz : s.blk.eng.hazard = false)
    (hw : s.blk.eng.windowHazard = false) :
    ∃ t, exec i s = .next t ∧ Failed s t (errCodeBits code) 0#32 ∧ (s.blk.eng.foul = [] → t.mem = s.mem) ∧
      (Memory.wf s.mem = true → ∀ a, s.blk.eng.foul.any (inRange a) = false → memRead t.mem a = memRead s.mem a) := by
  refine ⟨_, exec_of_failedCheck h, failed_of_calm _ hz _ _, fun hf => ?_, fun hm a hf => ?_⟩
  · rw [complete_mem_of_calm hw hf, outcomeMem_of_failedCheck h]
  · have hf' : ∀ r ∈ s.blk.eng.foul, inRange a r = false := fun r hr =>
      Bool.eq_false_iff.2 (List.any_eq_false.1 hf r hr)
    rw [memRead_complete_outside_foul hm hf', windowMem_of_calm hw, outcomeMem_of_failedCheck h]

/-! ## What an outcome depends on (R67, R102) -/

/-- Two states whose latched commands have the same operands, source bytes, parameters and next free value. -/
structure SameOperands (i : Instr) (s u : State) : Prop where
  cfg : s.cfg = u.cfg
  draw : s.draw = u.draw
  src : s.blk.eng.src = u.blk.eng.src
  dst : s.blk.eng.dst = u.blk.eng.dst
  len : s.blk.eng.len = u.blk.eng.len
  bytes : ∀ k, k < sourceSize i s.blk.eng.len.toNat → srcByte s k = srcByte u k

theorem SameOperands.sourceWindow {i : Instr} {s u : State} (h : SameOperands i s u) :
    sourceWindow i s.blk.eng = sourceWindow i u.blk.eng := by
  unfold Machine.sourceWindow; rw [h.src, h.len]

theorem SameOperands.writeWindow {i : Instr} {s u : State} (h : SameOperands i s u) :
    writeWindow i s.blk.eng = writeWindow i u.blk.eng := by
  unfold Machine.writeWindow; rw [h.dst, h.len]

theorem SameOperands.checkWindows {i : Instr} {s u : State} (h : SameOperands i s u) :
    checkWindows i s.cfg s.blk.eng = checkWindows i u.cfg u.blk.eng := by
  unfold Machine.checkWindows rangeFails overlapFails
  rw [h.cfg, h.sourceWindow, h.writeWindow]

theorem SameOperands.windowsRefused {i : Instr} {s u : State} (h : SameOperands i s u) :
    windowsRefused i s = windowsRefused i u := by
  unfold Machine.windowsRefused touchesDevice
  rw [h.checkWindows, h.cfg, h.sourceWindow, h.writeWindow]

theorem SameOperands.sourceBytes {i : Instr} {s u : State} (h : SameOperands i s u) :
    sourceBytes i s = sourceBytes i u := by
  unfold Machine.sourceBytes
  rw [← h.len]
  exact memReadBytes_congr _ h.bytes

theorem SameOperands.outcomeRange {i : Instr} {s u : State} (h : SameOperands i s u) (o : CmdOutcome) :
    outcomeRange i s.blk.eng o = outcomeRange i u.blk.eng o := by
  unfold Machine.outcomeRange
  rw [h.dst, h.writeWindow]

theorem SameOperands.withBusErrors {i : Instr} {s u : State} (h : SameOperands i s u) (o : CmdOutcome) :
    withBusErrors i s o = withBusErrors i u o := by
  unfold Machine.withBusErrors busHit
  rw [h.cfg, h.draw, h.sourceWindow, h.outcomeRange]

theorem SameOperands.commandOutcome {i : Instr} {s u : State} (h : SameOperands i s u) :
    commandOutcome i (familyRule s.cfg i) s = commandOutcome i (familyRule u.cfg i) u := by
  unfold Machine.commandOutcome
  rw [h.checkWindows, h.withBusErrors, h.cfg, h.len, h.sourceBytes]

/-- RESULT, ERRCODE and ERR_INFO of a completion follow from the outcome, whatever the registers before. -/
theorem outcomeBlock_results (o : CmdOutcome) (b c : Block) :
    (outcomeBlock b o).result = (outcomeBlock c o).result ∧ (outcomeBlock b o).errCode = (outcomeBlock c o).errCode ∧
      (outcomeBlock b o).errInfo = (outcomeBlock c o).errInfo := by
  cases o <;> exact ⟨rfl, rfl, rfl⟩

/-- ERR = 0 after a completion is a success (R104). -/
theorem finish_of_err {o : CmdOutcome} {b : Block} (h : (outcomeBlock b o).err = false) :
    ∃ r bs, o = .finish r bs := by
  cases o with
  | finish r bs => exact ⟨r, bs, rfl⟩
  | error code info => exact absurd ((recordError_err code info b).symm.trans h) (by decide)

theorem b64DecodeOutcome_finish {src bs : List Byte} {r : Nat} (h : b64DecodeOutcome src = .finish r bs) :
    finishWith (decodeValues ((dataPart src).filterMap rev)) = .finish r bs := by
  unfold b64DecodeOutcome at h
  split at h
  · cases h
  · exact h

theorem finishWith_length {out bs : List Byte} {r : Nat} (h : finishWith out = .finish r bs) : bs.length = r + 1 := by
  obtain ⟨rfl, rfl⟩ := CmdOutcome.finish.inj h
  exact List.length_append

/-- A success of a command with a destination writes RESULT bytes and the terminator (R105). -/
theorem familyRule_finish_length {c : Config} {i : Instr} {n r : Nat} {src bs : List Byte} (hi : 0 < maxWrite i 0)
    (h : familyRule c i n src = .finish r bs) : bs.length = r + 1 := by
  cases i with
  | b64Dec => exact finishWith_length (b64DecodeOutcome_finish h)
  | b64Enc | pctEncStd | pctEncMin | pctDec => exact finishWith_length h
  | b64EncLen | b64DecLen | pctStrlenStd | pctStrlenMin => cases hi

theorem commandOutcome_finish_length {i : Instr} {s : State} {r : Nat} {bs : List Byte} (hi : 0 < maxWrite i 0)
    (h : commandOutcome i (familyRule s.cfg i) s = .finish r bs) : bs.length = r + 1 := by
  rw [commandOutcome_of_pass (commandOutcome_finish h).1] at h
  obtain hb | hb := withBusErrors_cases i s (familyRule s.cfg i s.blk.eng.len.toNat (sourceBytes i s))
  · exact familyRule_finish_length hi (hb.symm.trans h)
  · cases hb.symm.trans h

/-- An undisturbed success leaves in memory, from eng.DST on, the bytes of its outcome. -/
theorem dstByte_complete_finish (w : Nat × Nat) {s : State} {r k : Nat} {bs : List Byte} (hm : Memory.wf s.mem = true)
    (hs : undisturbed s.blk = true) (hk : k < bs.length) : dstByte s (complete w (.finish r bs) s) k = bs[k] :=
  dstByte_of_writeBytes hm (mem_of_calm w hs _) (List.getElem?_eq_getElem hk)

/-! ## The host's accesses to data memory (R68) -/

/-- A host read of an ordinary data byte. -/
theorem step_memRead {s : State} {a : Nat} {rest : List Event} (ha : a < 2 ^ s.cfg.addrW)
    (hd : s.cfg.device.any (inRange a) = false) (h : s.sched = .memRead a :: rest) :
    step s = .next
      (if (allBlocks s).any (inBusyWindow a) then
        { s with sched := rest, memData := Config.freeByte s.draw a, draw := s.draw + 1 }
      else { s with sched := rest, memData := memRead s.mem a }) := by
  simp only [step, nextTurn, h, runEvent, hostMemRead, guardData, spaceSize, if_neg (Nat.not_le.2 ha), hd,
    Bool.false_eq_true, if_false]
  rfl

/-- A read keeps the host's duty where no running command's write window holds the address. -/
theorem dutyKept_memRead (s : State) (a : Nat) : dutyKept s (.memRead a) = !(allBlocks s).any (inBusyWindow a) :=
  List.not_any_eq_all_not.symm

/-- What a host write leaves of a running command: the marks of R68. -/
theorem hostWrote_of_busy {a : Nat} {b : Block} (h : b.busy = true) :
    hostWrote a b =
      { b with
        eng :=
          { b.eng with
            hazard := b.eng.hazard || inRange a (blockSource b) || inRange a (blockWindow b)
            windowHazard := b.eng.windowHazard || inRange a (blockWindow b) } } := if_pos h

/-- The state without the first mark of R68 and R70: the results of the acting block's command are specified. -/
def withoutHazard (s : State) : State := { s with blk := { s.blk with eng := { s.blk.eng with hazard := false } } }

/-- Whether its results are specified or not, a command leaves the same data memory. -/
theorem exec_withoutHazard_mem {i : Instr} {s t : State} (h : exec i s = .next t) :
    ∃ t₀, exec i (withoutHazard s) = .next t₀ ∧ t.mem = t₀.mem := by
  obtain ⟨hr, rfl⟩ := exec_next h
  exact ⟨_, exec_of_ordinary (s := withoutHazard s) hr, rfl⟩

/-! ## A register write and the running command (R66) -/

theorem RegStored.eng_busy {c : Config} {v : Word} {b b' : Block} {offset : Nat} (h : RegStored c v b offset b') :
    b'.eng = b.eng ∧ b'.busy = b.busy := by
  cases h <;> exact ⟨rfl, rfl⟩

/-- While a command runs, a register write starts none: it is ignored or stores in the registers of the acting block. -/
theorem writeReg_of_busy (offset width : Nat) (v : Word) {s : State} (hb : s.blk.busy = true) :
    ∃ b, writeReg offset width v s = { s with blk := b } ∧ b.eng = s.blk.eng ∧ b.busy = true := by
  obtain h | ⟨_, _, _, hidle, _⟩ | ⟨_, b, hst, h⟩ := writeReg_cases offset width v s
  · exact ⟨s.blk, h, rfl, hb⟩
  · rw [hb] at hidle; cases hidle
  · obtain ⟨heng, hbusy⟩ := hst.eng_busy
    exact ⟨b, h, heng, hbusy.trans hb⟩

/-! ## Running commands side by side (R70) -/

theorem rangesMeet_comm (r t : Nat × Nat) : rangesMeet r t = rangesMeet t r := by
  rw [Bool.eq_iff_iff, rangesMeet_iff, rangesMeet_iff]; omega

theorem commonRange_of_apart {r t : Nat × Nat} (h : rangesMeet r t = false) : commonRange r t = [] :=
  if_neg (Bool.eq_false_iff.1 h)

theorem readsClash_iff {c : Config} {o b : Block} :
    readsClash c o b = true ↔ passesChecks c b.eng = true ∧ rangesMeet (blockWindow o) (blockSource b) = true :=
  Bool.and_eq_true_iff

/-- Neither command's write window meets the other's windows. -/
structure WindowsApart (b o : Block) : Prop where
  windows : rangesMeet (blockWindow b) (blockWindow o) = false
  source : rangesMeet (blockWindow b) (blockSource o) = false
  source' : rangesMeet (blockWindow o) (blockSource b) = false

theorem WindowsApart.symm {b o : Block} (h : WindowsApart b o) : WindowsApart o b :=
  ⟨rangesMeet_comm .. ▸ h.windows, h.source', h.source⟩

/-- A command whose windows are apart from another's is not marked by it. -/
theorem clashWith_of_apart (c : Config) {o b : Block} (h : WindowsApart b o) : clashWith c o b = b := by
  have hr : readsClash c o b = false := by rw [readsClash, h.source', Bool.and_false]
  unfold clashWith
  rw [hr, commonRange_of_apart h.windows, commonRange_of_apart h.source, Bool.or_false, Bool.or_false,
    List.append_nil, List.append_nil]

theorem clashAll_of_apart (c : Config) {b : Block} {ps : List Block}
    (h : ∀ p ∈ ps, p.eng.state = .run → WindowsApart b p) : clashAll c ps b = b := by
  induction ps with
  | nil => rfl
  | cons p ps ih =>
    obtain ⟨hp, hps⟩ := List.forall_mem_cons.1 h
    by_cases hr : p.eng.state = .run
    · rw [clashAll_cons_run hr, clashWith_of_apart c (hp hr), ih hps]
    · rw [clashAll_cons_idle hr, ih hps]

/-- The acting block right after a GO write of w, before the marks of R70: OP stored in CMD, the word latched. -/
def startedBlock (w : Word) (s : State) : Block :=
  latchCommand s.cfg.addrW s.mem w { s.blk with cmdOp := w.extractLsb' 0 4 }

theorem acceptCommand_blk (w : Word) (s : State) :
    (acceptCommand w s).blk = clashAll s.cfg s.peers (startedBlock w s) := rfl

theorem acceptCommand_peers (w : Word) (s : State) :
    (acceptCommand w s).peers =
      s.peers.map fun p => if p.eng.state = .run then clashWith s.cfg (startedBlock w s) p else p := rfl

/-- A start marks a running peer as `clashWith` says. -/
theorem acceptCommand_peer {w : Word} {s : State} {k : Nat} {p : Block} (hp : s.peers[k]? = some p)
    (hr : p.eng.state = .run) :
    (acceptCommand w s).peers[k]? = some (clashWith s.cfg (startedBlock w s) p) := by
  rw [acceptCommand_peers, List.getElem?_map, hp, Option.map_some, if_pos hr]

/-- A command that fails its checks reads from no running block, one that passes them from those whose windows it meets. -/
theorem exists_readsClash_iff {c : Config} {ps : List Block} {b : Block} :
    (∃ p ∈ ps, p.eng.state = .run ∧ readsClash c p b = true) ↔
      passesChecks c b.eng = true ∧ ∃ p ∈ ps, p.eng.state = .run ∧ rangesMeet (blockWindow p) (blockSource b) = true := by
  simp only [readsClash_iff]
  exact ⟨fun ⟨p, hp, hr, hc, hm⟩ => ⟨hc, p, hp, hr, hm⟩, fun ⟨hc, p, hp, hr, hm⟩ => ⟨p, hp, hr, hc, hm⟩⟩

/-! ## The undisturbed command (R68, R236) -/

/-- The marks of R68 and R70 stand in the engine. -/
theorem undisturbed_of_eng {b b' : Block} (he : b'.eng = b.eng) (h : undisturbed b = true) : undisturbed b' = true := by
  rwa [undisturbed, he]

@[simp] theorem undisturbed_latchCommand (n : Nat) (m : Memory) (v : Word) (b : Block) :
    undisturbed (latchCommand n m v b) = true := rfl

@[simp] theorem undisturbed_closeCommand (r i : Word) (c : BitVec 4) (b : Block) :
    undisturbed (closeCommand r i c b) = true := rfl

@[simp] theorem undisturbed_reset (regBase : Nat) : undisturbed (Block.reset regBase) = true := rfl

theorem undisturbed_complete (w : Nat × Nat) (o : CmdOutcome) (s : State) :
    undisturbed (complete w o s).blk = true := by
  obtain ⟨r, i, c, h⟩ := complete_blk_eq_close w o s
  rw [h, undisturbed_closeCommand]

/-- With one block, no register write disturbs the command. -/
theorem writeReg_alone_undisturbed (offset width : Nat) (v : Word) {s : State} (halone : s.peers = [])
    (hs : undisturbed s.blk = true) :
    (writeReg offset width v s).peers = [] ∧ undisturbed (writeReg offset width v s).blk = true := by
  obtain h | ⟨_, _, _, _, h⟩ | ⟨_, b, hst, h⟩ := writeReg_cases offset width v s <;> rw [h]
  · exact ⟨halone, hs⟩
  · rw [acceptCommand_eq, halone]
    exact ⟨rfl, undisturbed_latchCommand ..⟩
  · exact ⟨halone, undisturbed_of_eng hst.eng_busy.1 hs⟩

/-- With one block, no action that keeps the host's duty disturbs the command. -/
theorem Acts.alone_undisturbed {s t : State} {e : Option Event} (h : Acts s e t) (halone : s.peers = [])
    (hs : undisturbed s.blk = true) (hduty : ∀ ev, e = some ev → dutyKept s ev = true) :
    t.peers = [] ∧ undisturbed t.blk = true := by
  cases h with
  | waits => exact ⟨halone, hs⟩
  | engine _ hturn =>
    obtain ⟨_, rfl⟩ | ⟨_, w, o, rfl, _⟩ := engineTurn_cases hturn
    · exact ⟨halone, hs⟩
    · exact ⟨halone, undisturbed_complete w o s⟩
  | regWrite width v _ => exact writeReg_alone_undisturbed _ width v halone hs
  | regRead => exact ⟨halone, hs⟩
  | memWrite v _ =>
    have hkeep := hostWrote_of_dutyKept (hduty _ rfl) s.blk (List.mem_cons_self ..)
    exact ⟨by rw [halone]; rfl, by rw [hkeep]; exact hs⟩
  | memRead => exact ⟨halone, hs⟩
  | reset => exact ⟨by rw [resetBlocks_peers, halone]; rfl, undisturbed_reset _⟩

end Sys2Proof.Machine

namespace Sys2Proof.Proofs

open Sys2Proof.Machine

/-- Settles O15: check 2 fails, and a failed check makes no data access. -/
theorem rangeCheckFails : Obligations.RangeCheckFails := by
  intro i s hz hw S M hpast
  have hcheck : checkWindows i s.cfg s.blk.eng = some .range :=
    checkWindows_of_pastTop (hpast.imp pastTop_iff.2 pastTop_iff.2)
  exact exec_failed_of_failedCheck hcheck hz hw

/-- Settles O22: the checks pass, and the byte in a device region makes its window touch a device. -/
theorem deviceWindowRefused : Obligations.DeviceWindowRefused := by
  intro i s k e S M hsrc hdst hapart hdev
  have htouch : touchesDevice i s.cfg s.blk.eng = true :=
    Bool.or_eq_true_iff.2 (hdev.imp (fun ⟨hk, h⟩ => meetsAny_of_mem hk h) fun ⟨hk, h⟩ => meetsAny_of_mem hk h)
  exact exec_of_touchesDevice (checkWindows_of_fits hsrc hdst hapart) htouch

/-- Settles O23: a completion closes the command in the acting block, and writes in the command's window alone. -/
theorem commandFrame : Obligations.CommandFrame := by
  intro i s t hm h
  have hmem := fun a => memRead_exec_outside (a := a) hm h
  obtain ⟨_, rfl⟩ := exec_next h
  obtain ⟨r, info, code, hb⟩ :=
    complete_blk_eq_close (writeWindow i s.blk.eng) (commandOutcome i (familyRule s.cfg i) s) s
  rw [hb]
  exact ⟨rfl, rfl, rfl, rfl, rfl, rfl, rfl, rfl, rfl, rfl, rfl, rfl, rfl, rfl, rfl, rfl, rfl, hmem⟩

/-- Settles O25: the two commands have one outcome, and the outcome decides the results and the bytes of a success. -/
theorem outcomeDependsOnOperandsOnly : Obligations.OutcomeDependsOnOperandsOnly := by
  intro i s u t hms hmu hs hu hcfg hdraw hsrc hdst hlen hbytes hexec
  have hsame : SameOperands i s u := ⟨hcfg, hdraw, hsrc, hdst, hlen, hbytes⟩
  obtain ⟨hr, rfl⟩ := exec_next hexec
  refine ⟨_, exec_of_ordinary (hsame.windowsRefused ▸ hr), ?_⟩
  rw [← hsame.commandOutcome, complete_blk_of_calm (undisturbed_iff.1 hs).1,
    complete_blk_of_calm (undisturbed_iff.1 hu).1]
  obtain ⟨hres, hcode, hinfo⟩ :=
    outcomeBlock_results (commandOutcome i (familyRule s.cfg i) s) u.blk s.blk
  refine ⟨hres, hcode, hinfo, fun herr hi k hk => ?_⟩
  obtain ⟨r, bs, ho⟩ := finish_of_err herr
  have hlt : k < bs.length := by
    rw [ho] at hk
    have hk' : k ≤ r := hk.trans (BitVec.toNat_ofNat r 32 ▸ Nat.mod_le ..)
    rw [commandOutcome_finish_length hi ho]
    omega
  rw [ho, dstByte_complete_finish _ hmu hu hlt, dstByte_complete_finish _ hms hs hlt]

/-- Settles O35: such an access reads 0 (`readReg_reserved`) and its write is ignored (`writeReg_ignored`). -/
theorem narrowAccessIsReserved : Obligations.NarrowAccessIsReserved := by
  intro s offset width v rest ho hnarrow
  refine ⟨fun h => ?_, fun h => ?_⟩
  · rw [step_regRead ho h, readReg_reserved (hnarrow.imp_right .inl)]
  · rw [step_regWrite ho h, writeReg_ignored v _ (hnarrow.imp_right .inl)]

/-- Settles O42, by `writeReg_of_busy`. -/
theorem registerWritesLeaveRunningCommand : Obligations.RegisterWritesLeaveRunningCommand := by
  intro s offset width v rest ho hbusy hsched
  obtain ⟨b, hwrite, heng, hb⟩ := writeReg_of_busy offset width v (s := { s with sched := rest }) hbusy
  exact ⟨_, (step_regWrite ho hsched).trans (congrArg _ hwrite), heng, rfl, hb, rfl⟩

/-- Settles O52: the host's duty is kept exactly where no write window of a running command holds the address. -/
theorem hostDataRead : Obligations.HostDataRead := by
  intro s a rest ha hdev hsched
  rw [step_memRead ha hdev hsched, dutyKept_memRead]
  cases (allBlocks s).any (inBusyWindow a)
  · exact ⟨_, rfl, rfl, rfl, rfl, rfl, fun _ => rfl, fun h => absurd h (by decide)⟩
  · exact ⟨_, rfl, rfl, rfl, rfl, rfl, fun h => absurd h (by decide), fun _ => rfl⟩

/-- Settles O53: a host write sets the marks of R68, and a completion gives the marked results and bytes free values. -/
theorem brokenDutyFreesResults : Obligations.BrokenDutyFreesResults := by
  refine ⟨fun s a v rest ha hdev hbusy hin hsched => ⟨_, step_memWrite ha hdev hsched, ?_⟩,
    fun i s t hm hexec => ⟨fun hz => ?_, fun hw k hk hlt => ?_, fun _ => exec_withoutHazard_mem hexec, fun hf a ha => ?_⟩⟩
  · rw [hostWrote_of_busy hbusy]
    refine ⟨?_, Bool.or_eq_true_iff, rfl⟩
    simp only [Bool.or_eq_true, or_assoc, hin, or_true]
  · obtain ⟨_, rfl⟩ := exec_next hexec
    rw [complete_blk_of_hazard hz]
    exact ⟨rfl, rfl, rfl, decide_eq_true_iff⟩
  · obtain ⟨_, rfl⟩ := exec_next hexec
    exact memRead_complete_windowHazard hm hw hlt
      (inRange_iff.2 ⟨Nat.le_add_right .., Nat.add_lt_add_left hk _⟩)
  · exact memRead_exec_outside hm hexec ha (by rw [hf]; exact fun r hr => by cases hr)

/-- Settles O54: commands whose windows are apart do not mark each other (`clashWith_of_apart`). -/
theorem disjointInstancesDoNotDisturb : Obligations.DisjointInstancesDoNotDisturb := by
  intro s w b hdisj
  have hapart : ∀ p ∈ s.peers, p.eng.state = .run → WindowsApart (startedBlock w s) p := fun p hp hr =>
    let ⟨hwindows, hsource, hsource'⟩ := hdisj p hp hr
    ⟨hwindows, hsource, hsource'⟩
  constructor
  · rw [acceptCommand_peers]
    refine (List.map_congr_left fun p hp => ?_).trans (List.map_id' _)
    split
    next hr => exact clashWith_of_apart s.cfg (hapart p hp hr).symm
    next => rfl
  · rw [acceptCommand_blk, clashAll_of_apart s.cfg hapart]
    exact undisturbed_latchCommand ..

/-- Settles O55: the marks that each running block gives another at a start, and the free bytes at completion. -/
theorem meetingInstancesAreUnspecified : Obligations.MeetingInstancesAreUnspecified := by
  refine ⟨fun s w => ⟨?_, ?_, fun a => ?_, fun k p hp hr => ?_⟩, fun i s t a hm hexec ha hf => ?_⟩
  · rw [acceptCommand_blk, clashAll_hazard, exists_readsClash_iff]
    exact or_iff_right Bool.false_ne_true
  · rw [acceptCommand_blk, clashAll_windowHazard, exists_readsClash_iff]
    exact or_iff_right Bool.false_ne_true
  · rw [acceptCommand_blk, clashAll_foul_any]
    exact or_iff_right Bool.false_ne_true
  · refine ⟨_, acceptCommand_peer hp hr, rfl, ?_, ?_, fun a => ?_⟩
    · rw [clashWith_eng_hazard, Bool.or_eq_true, readsClash_iff]; rfl
    · rw [clashWith_eng_windowHazard, Bool.or_eq_true, readsClash_iff]; rfl
    · exact clashWith_foul_any
  · obtain ⟨_, rfl⟩ := exec_next hexec
    exact memRead_complete_foul hm ha hf

/-- Settles O59: every step is an action of the one block, and none that keeps the duty disturbs its command. -/
theorem dutyKeepsCommandUndisturbed : Obligations.DutyKeepsCommandUndisturbed := by
  intro s t halone hs hduty hstep
  refine (step_acts_of_alone halone hstep).alone_undisturbed halone hs fun ev hev => ?_
  obtain ⟨rest, hsched⟩ := List.head?_eq_some_iff.1 hev
  exact hduty ev rest hsched

end Sys2Proof.Proofs
end

section
/-! PROOFS. The encoding: a command word and its fields, a word and its byte lanes, determine each other; exactly which words
the decoder maps to each command and to each rejection; and a CMD write that starts no command. -/

namespace Sys2Proof

/-! ## The fields of a command word (R75) -/

/-- The fields of the word laid out from fields are those fields. -/
@[simp] theorem CmdWord.ofWord_toWord (c : CmdWord) : CmdWord.ofWord c.toWord = c := by
  obtain ⟨go, rsv, op⟩ := c
  have hgo : BitVec.getLsbD (w := 1 + 27 + 4) (BitVec.ofBool go ++ rsv ++ op) 31 = go := by
    rw [BitVec.getLsbD_append, BitVec.getLsbD_append]
    simp
  have hrsv : BitVec.extractLsb' (n := 1 + 27 + 4) 4 27 (BitVec.ofBool go ++ rsv ++ op) = rsv := by
    rw [BitVec.extractLsb'_append_eq_of_le (Nat.le_refl 4), BitVec.extractLsb'_append_eq_right]
  have hop : BitVec.extractLsb' (n := 1 + 27 + 4) 0 4 (BitVec.ofBool go ++ rsv ++ op) = op :=
    BitVec.extractLsb'_append_eq_right
  exact (CmdWord.mk.injEq ..).mpr ⟨hgo, hrsv, hop⟩

/-- Laying out the fields of a word gives the word back: the format has no other bits. -/
@[simp] theorem CmdWord.toWord_ofWord (w : Word) : (CmdWord.ofWord w).toWord = w := by
  have hgo : BitVec.ofBool (w.getLsbD 31) = w.extractLsb' 31 1 := by
    ext k hk
    obtain rfl : k = 0 := by omega
    simp
  calc (CmdWord.ofWord w).toWord
      = w.extractLsb' 31 1 ++ w.extractLsb' 4 27 ++ w.extractLsb' 0 4 := by rw [← hgo]; rfl
    _ = w.extractLsb' 4 28 ++ w.extractLsb' 0 4 := by rw [BitVec.extractLsb'_append_extractLsb'_eq_extractLsb' (by rfl)]
    _ = w.extractLsb' 0 32 := BitVec.extractLsb'_append_extractLsb'_eq_extractLsb' (by rfl)
    _ = w := BitVec.extractLsb'_eq_self

theorem CmdWord.ofWord_eq_iff {w : Word} {c : CmdWord} : CmdWord.ofWord w = c ↔ w = c.toWord :=
  ⟨fun h => by rw [← h, toWord_ofWord], fun h => by rw [h, ofWord_toWord]⟩

/-! ## The byte lanes of a word (R55) -/

/-- The word on the lanes of a word is that word. -/
theorem wordOfLanes_lanesOfWord (w : Word) :
    wordOfLanes (w.extractLsb' 0 8) (w.extractLsb' 8 8) (w.extractLsb' 16 8) (w.extractLsb' 24 8) = w :=
  calc (w.extractLsb' 24 8 ++ w.extractLsb' 16 8 ++ w.extractLsb' 8 8 ++ w.extractLsb' 0 8 : Word)
    _ = w.extractLsb' 0 32 := by
      rw [BitVec.extractLsb'_append_extractLsb'_eq_extractLsb' (by rfl),
        BitVec.extractLsb'_append_extractLsb'_eq_extractLsb' (by rfl),
        BitVec.extractLsb'_append_extractLsb'_eq_extractLsb' (by rfl)]
    _ = w := BitVec.extractLsb'_eq_self

/-- The bytes of a word decode as the word does. -/
@[simp] theorem decode_lanesOfWord (w : Word) : decode (lanesOfWord w) = decodeCmdw w :=
  congrArg decodeCmdw (wordOfLanes_lanesOfWord w)

/-- Bytes that decode to a command are the lanes of one word that does (R75, R83). -/
theorem exists_word_of_decode_ok {bs : List Byte} {i : Instr} (h : decode bs = .ok i) :
    ∃ w, bs = lanesOfWord w ∧ decodeCmdw w = .ok i := by
  unfold decode at h
  split at h
  next b0 b1 b2 b3 => exact ⟨_, (lanesOfWord_wordOfLanes b0 b1 b2 b3).symm, h⟩
  next => cases h

/-! ## The opcode map (R78, R81) -/

theorem opcodeInstr_opcodeOf (i : Instr) : opcodeInstr (opcodeOf i) = some i := by
  cases i <;> rfl

/-- Each command has the one opcode of the map. -/
theorem opcodeInstr_eq_some_iff {op : BitVec 4} {i : Instr} : opcodeInstr op = some i ↔ op = opcodeOf i := by
  refine ⟨?_, fun h => h ▸ opcodeInstr_opcodeOf i⟩
  revert op
  cases i <;> decide

/-- The reserved opcodes are 0x0 and 0xA to 0xF (R81). -/
theorem opcodeInstr_eq_none_iff {op : BitVec 4} : opcodeInstr op = none ↔ op.toNat = 0 ∨ 10 ≤ op.toNat := by
  revert op
  decide

/-- OP of a word is its value modulo 16 (R75). -/
theorem extractLsb'_op_toNat (w : Word) : (w.extractLsb' 0 4).toNat = w.toNat % 16 := by
  rw [BitVec.extractLsb'_toNat, Nat.shiftRight_zero]

/-! ## What the decoder answers (R76, R77, R81, R82) -/

/-- What the decoder answers on a command word, one constructor for each answer: RSV is looked at only where GO = 1 (R76),
OP only where RSV = 0 as well (R77). -/
inductive Decoded : CmdWord → Except Reject Instr → Prop
  | goClear (rsv : BitVec 27) (op : BitVec 4) : Decoded ⟨false, rsv, op⟩ (.error .goClear)
  | reservedBits {rsv : BitVec 27} (hrsv : rsv ≠ 0#27) (op : BitVec 4) : Decoded ⟨true, rsv, op⟩ (.error .reservedBits)
  | reservedOpcode {op : BitVec 4} (hop : opcodeInstr op = none) : Decoded ⟨true, 0#27, op⟩ (.error .reservedOpcode)
  | command (i : Instr) : Decoded ⟨true, 0#27, opcodeOf i⟩ (.ok i)

theorem decoded_decodeFields (rsv : BitVec 27) (op : BitVec 4) : Decoded ⟨true, rsv, op⟩ (decodeFields rsv op) := by
  unfold decodeFields
  split
  next hrsv => exact .reservedBits hrsv op
  next hrsv =>
    obtain rfl : rsv = 0#27 := not_not.1 hrsv
    split
    next i hop =>
      obtain rfl := opcodeInstr_eq_some_iff.1 hop
      exact .command i
    next hop => exact .reservedOpcode hop

theorem decoded_decodeCmdw (w : Word) : Decoded (CmdWord.ofWord w) (decodeCmdw w) := by
  unfold decodeCmdw
  obtain ⟨go, rsv, op⟩ := CmdWord.ofWord w
  cases go with
  | false => exact .goClear rsv op
  | true => exact decoded_decodeFields rsv op

section

variable {c : CmdWord} {r : Except Reject Instr} (h : Decoded c r)
include h

theorem Decoded.eq_goClear_iff : r = .error .goClear ↔ c.go = false := by
  cases h <;> simp

theorem Decoded.eq_reservedBits_iff : r = .error .reservedBits ↔ c.go = true ∧ c.rsv ≠ 0#27 := by
  cases h <;> simp [*]

theorem Decoded.eq_reservedOpcode_iff :
    r = .error .reservedOpcode ↔ c.go = true ∧ c.rsv = 0#27 ∧ opcodeInstr c.op = none := by
  cases h <;> simp [*, opcodeInstr_opcodeOf]

theorem Decoded.eq_ok_iff (i : Instr) : r = .ok i ↔ c = ⟨true, 0#27, opcodeOf i⟩ := by
  cases h <;> simp [*, ← opcodeInstr_eq_some_iff, opcodeInstr_opcodeOf]

end

/-- A word decodes to a command exactly when it is that command's word (R82). -/
theorem decodeCmdw_eq_ok_iff {w : Word} {i : Instr} : decodeCmdw w = .ok i ↔ w = encode i :=
  ((decoded_decodeCmdw w).eq_ok_iff i).trans CmdWord.ofWord_eq_iff

theorem decodeCmdw_encode (i : Instr) : decodeCmdw (encode i) = .ok i := decodeCmdw_eq_ok_iff.2 rfl

end Sys2Proof

namespace Sys2Proof.Machine

/-! ## A CMD write that starts no command (R25, R76) -/

/-- With GO = 0 a CMD write stores OP, or is ignored while a command runs. -/
theorem writeCmd_of_goClear {v : Word} (h : v.getLsbD 31 = false) (s : State) :
    writeCmd v s = if s.blk.busy then s else { s with blk := { s.blk with cmdOp := v.extractLsb' 0 4 } } := by
  rw [writeCmd, h]
  rfl

theorem step_writeCmd {s : State} {v : Word} {rest : List Event}
    (h : s.sched = .regWrite (s.blk.regBase + 0x08) 4 v :: rest) :
    step s = .next (writeCmd v { s with sched := rest }) :=
  step_regWrite (by decide) h

end Sys2Proof.Machine

namespace Sys2Proof.Proofs

open Sys2Proof.Machine

/-- Settles O2: only the lanes of a word decode at all, a word only from its own fields. -/
theorem decodeIffEncode : Obligations.DecodeIffEncode := by
  refine ⟨fun bs i => ⟨fun h => ?_, ?_⟩, fun w i => decodeCmdw_eq_ok_iff⟩
  · obtain ⟨w, rfl, hw⟩ := exists_word_of_decode_ok h
    exact congrArg lanesOfWord (decodeCmdw_eq_ok_iff.1 hw)
  · rintro rfl
    exact (decode_lanesOfWord _).trans (decodeCmdw_encode i)

/-- Settles O3: which answer `Decoded` gives, and the reserved opcodes as numbers. -/
theorem rejectionNames : Obligations.RejectionNames := by
  intro w
  have hw := decoded_decodeCmdw w
  refine ⟨hw.eq_goClear_iff, hw.eq_reservedBits_iff, ?_⟩
  rw [hw.eq_reservedOpcode_iff, opcodeInstr_eq_none_iff, ← extractLsb'_op_toNat]
  rfl

/-- Settles O39, by `writeCmd_of_goClear`. -/
theorem goClearOnlyStoresOp : Obligations.GoClearOnlyStoresOp := by
  intro s v rest hgo hsched
  rw [step_writeCmd hsched, writeCmd_of_goClear hgo]
  exact ⟨fun hbusy => by rw [hbusy]; rfl, fun hbusy => by rw [hbusy]; rfl⟩

/-- Settles O1: the nine words are the commands' own; the others have GO = 1, RSV = 0 and an opcode the map reserves. -/
theorem opcodeMapWords : Obligations.OpcodeMapWords := by
  refine ⟨decodeCmdw_encode .b64Enc, decodeCmdw_encode .b64Dec, decodeCmdw_encode .b64EncLen,
    decodeCmdw_encode .b64DecLen, decodeCmdw_encode .pctEncStd, decodeCmdw_encode .pctEncMin,
    decodeCmdw_encode .pctStrlenStd, decodeCmdw_encode .pctStrlenMin, decodeCmdw_encode .pctDec, fun op hop => ?_⟩
  have hhigh : 0x8000000#28 = BitVec.ofBool true ++ 0#27 := by decide
  have hword : CmdWord.ofWord (0x8000000#28 ++ op) = ⟨true, 0#27, op⟩ :=
    CmdWord.ofWord_eq_iff.2 (congrArg (· ++ op) hhigh)
  have hnone : opcodeInstr op = none := opcodeInstr_eq_none_iff.2 (hop.imp (congrArg BitVec.toNat) id)
  rw [(decoded_decodeCmdw _).eq_reservedOpcode_iff, hword]
  exact ⟨rfl, rfl, hnone⟩

end Sys2Proof.Proofs
end

section
/-! PROOFS. The engine: from an accepted GO write to the turn that runs the latched word, a command that completes with
an error, bus errors against the transform's outcome, and what a success of a writing command leaves in memory. -/

namespace Sys2Proof.Machine

/-! ## From the latched word to the engine's turn (R95, R99) -/

/-- A word that decodes to a command passes check 1 on its own RSV and OP. -/
theorem decodeFields_of_decodeCmdw {w : Word} {i : Instr} (h : decodeCmdw w = .ok i) :
    decodeFields (w.extractLsb' 4 27) (w.extractLsb' 0 4) = .ok i := by
  unfold decodeCmdw at h
  dsimp only at h
  split at h
  · exact h
  · cases h

theorem latchedInstr_of_decodeCmdw {e : Engine} {i : Instr} (h : decodeCmdw e.cmdw = .ok i)
    (hop : e.op = e.cmdw.extractLsb' 0 4) : latchedInstr e = some i := by
  rw [latchedInstr, hop, decodeFields_of_decodeCmdw h]

/-- With RSV not 0, or with a reserved opcode, the latched word is no command (R77, R81). -/
theorem latchedInstr_of_illegal {e : Engine}
    (h : e.cmdw.extractLsb' 4 27 ≠ 0#27 ∨ e.op.toNat = 0 ∨ 10 ≤ e.op.toNat) : latchedInstr e = none := by
  unfold latchedInstr decodeFields
  by_cases hrsv : e.cmdw.extractLsb' 4 27 = 0#27
  · have hop : opcodeInstr e.op = none := opcodeInstr_eq_none_iff.2 (h.resolve_left fun hne => hne hrsv)
    rw [if_neg (not_not.2 hrsv), hop]
  · rw [if_pos hrsv]

theorem isRunning_of_run {b : Block} (h : b.eng.state = .run) : isRunning b = true := decide_eq_true h

theorem engineTurn_of_legal {s : State} {i : Instr} (hrun : s.blk.eng.state = .run)
    (hi : latchedInstr s.blk.eng = some i) : engineTurn s = exec i s := by
  rw [engineTurn, if_pos (isRunning_of_run hrun), hi]

theorem engineTurn_of_illegal {s : State} (hrun : s.blk.eng.state = .run) (hi : latchedInstr s.blk.eng = none) :
    engineTurn s = .next (completeBadCmd s) := by
  rw [engineTurn, if_pos (isRunning_of_run hrun), hi]

/-- The turn of a running engine is a completion, or the refusal of its windows. -/
theorem engineTurn_of_run {s : State} (hrun : s.blk.eng.state = .run) :
    (∃ w o, engineTurn s = .next (complete w o s)) ∨
      (∃ i, windowsRefused i s = true) ∧ engineTurn s = .refused .notOrdinaryMemory := by
  cases hi : latchedInstr s.blk.eng with
  | none => exact .inl ⟨_, _, engineTurn_of_illegal hrun hi⟩
  | some i =>
    rw [engineTurn_of_legal hrun hi, exec_eq_runCommand]
    obtain ⟨hr, hexec⟩ | ⟨_, hexec⟩ := runCommand_cases i (familyRule s.cfg i) s
    · exact .inr ⟨⟨i, hr⟩, hexec⟩
    · exact .inl ⟨_, _, hexec⟩

/-- Where all of the data space is ordinary memory, no window is refused (R59). -/
theorem windowsRefused_of_noDevice {s : State} (h : s.cfg.device = []) (i : Instr) : windowsRefused i s = false := by
  rw [windowsRefused, touchesDevice, h]
  exact Bool.and_false _

/-- With nothing scheduled, the acting block's running engine moves. -/
theorem step_of_idleSchedule {s : State} (hrun : s.blk.eng.state = .run) (h : s.sched = []) :
    step s = engineTurn s := by
  simp only [step, nextTurn, h, engineTurnOf, focusOn_of_pos (isRunning_of_run hrun)]

/-- The scheduled turn of the acting block's engine. -/
theorem step_of_complete {s : State} {rest : List Event} (h : s.sched = .complete s.blk.regBase :: rest) :
    step s = engineTurn { s with sched := rest } := by
  have hfocus : focusOn (fun b => b.regBase == s.blk.regBase) { s with sched := rest } = some { s with sched := rest } :=
    focusOn_of_pos (beq_self_eq_true _)
  simp only [step, nextTurn, h, runEvent, engineTurnOf, hfocus]

/-! ## An accepted GO write (R96, R97) -/

/-- An accepted GO write leaves in the acting block the started command, with marks of R70 on its engine. -/
theorem acceptCommand_blk_eq (w : Word) (s : State) :
    ∃ hz wh fl, (acceptCommand w s).blk =
      { startedBlock w s with
        eng := { (startedBlock w s).eng with hazard := hz, windowHazard := wh, foul := fl } } :=
  clashAll_eq s.cfg s.peers (startedBlock w s)

theorem writeCmd_of_go {v : Word} {s : State} (hgo : v.getLsbD 31 = true) (hidle : s.blk.busy = false) :
    writeCmd v s = acceptCommand v s := by
  rw [writeCmd, hgo, hidle]
  rfl

/-- With one block, a start is marked by no other command. -/
theorem acceptCommand_alone (w : Word) {s : State} (halone : s.peers = []) :
    (acceptCommand w s).peers = [] ∧ undisturbed (acceptCommand w s).blk = true := by
  rw [acceptCommand_peers, acceptCommand_blk, halone]
  exact ⟨rfl, undisturbed_latchCommand ..⟩

/-- A placed word is the accepted GO write of it with the engine's turn scheduled (log 3). -/
theorem withFetchWord_eq (s : State) (w : Word) : s.withFetchWord 32 w.toNat = placeCommand w s := by
  rw [State.withFetchWord, Nat.mod_eq_of_lt w.isLt, BitVec.ofNat_toNat, BitVec.setWidth_eq]

/-! ## Write windows (R98) -/

theorem blockWindow_of_illegal {b : Block} (h : latchedInstr b.eng = none) : blockWindow b = (b.eng.dst.toNat, 0) := by
  rw [blockWindow, h]

theorem blockWindow_of_legal {b : Block} {i : Instr} (h : latchedInstr b.eng = some i) :
    blockWindow b = (b.eng.dst.toNat, maxWrite i b.eng.len.toNat) := by
  rw [blockWindow, h]
  rfl

theorem sourceSize_of_reads {i : Instr} (henc : i ≠ .b64EncLen) (hdec : i ≠ .b64DecLen) (n : Nat) :
    sourceSize i n = n := by
  cases i with
  | b64EncLen => exact absurd rfl henc
  | b64DecLen => exact absurd rfl hdec
  | _ => rfl

/-! ## Commands that complete with an error (R101, R104, R106) -/

/-- Windows inside the data space that meet fail check 3. -/
theorem checkWindows_of_meet {i : Instr} {c : Config} {e : Engine}
    (hsrc : Fits c e.src.toNat (sourceSize i e.len.toNat))
    (hdst : Fits c e.dst.toNat (maxWrite i e.len.toNat)) (h : overlapFails i e = true) :
    checkWindows i c e = some .overlap := by
  have hrange : rangeFails i c e = false :=
    Bool.or_eq_false_iff.2 ⟨pastTop_eq_false_iff.2 hsrc, pastTop_eq_false_iff.2 hdst⟩
  rw [checkWindows, hrange, if_neg Bool.false_ne_true, if_pos h]

/-- An undisturbed command whose outcome is an error records it, and changes no byte outside its write window. -/
theorem exec_failed_of_outcome {i : Instr} {s : State} {code : ErrCode} {info : Word} (hm : Memory.wf s.mem = true)
    (hs : undisturbed s.blk = true) (hr : windowsRefused i s = false)
    (ho : commandOutcome i (familyRule s.cfg i) s = .error code info) :
    ∃ t, exec i s = .next t ∧ Failed s t (errCodeBits code) info ∧ OnlyWrote s t (maxWrite i s.blk.eng.len.toNat) := by
  obtain ⟨hz, _, hfoul⟩ := undisturbed_iff.1 hs
  have hexec := exec_of_ordinary hr
  refine ⟨_, hexec, ?_, fun a ha => memRead_exec_outside hm hexec ha (by simp [hfoul])⟩
  rw [ho]
  exact failed_of_calm _ hz code info

/-! ## Bus errors (R103) -/

theorem busHit_of_source {i : Instr} {s : State} {k : Nat} (hk : k < sourceSize i s.blk.eng.len.toNat)
    (h : busErrAt s.cfg (s.blk.eng.src.toNat + k) = true) (o : CmdOutcome) : busHit i s.cfg s.blk.eng o = true :=
  Bool.or_eq_true_iff.2 (.inl (meetsAny_of_mem hk h))

/-- A bus error on one of the bytes that a success would write. -/
theorem busHit_of_written {i : Instr} {s : State} {r k : Nat} {bs : List Byte} (hk : k < bs.length)
    (h : busErrAt s.cfg (s.blk.eng.dst.toNat + k) = true) : busHit i s.cfg s.blk.eng (.finish r bs) = true :=
  Bool.or_eq_true_iff.2 (.inr (meetsAny_of_mem hk h))

theorem withBusErrors_of_hit {i : Instr} {s : State} {o : CmdOutcome} (h : busHit i s.cfg s.blk.eng o = true)
    (ho : ∀ info, o ≠ .error .invalidInput info) : withBusErrors i s o = .error .bus (Config.freeErrInfo s.draw) := by
  rw [withBusErrors, if_pos h]
  unfold busReplace
  split
  next info => exact absurd rfl (ho info)
  next => rfl

/-- The outcome of a command that passes its checks is the family rule's, with bus errors. -/
theorem commandOutcome_eq_withBusErrors {i : Instr} {s : State} (h : checkWindows i s.cfg s.blk.eng = none) :
    commandOutcome i (familyRule s.cfg i) s = withBusErrors i s (rawOutcome i s) := commandOutcome_of_pass h

/-- Only a finish of the family rule can finish a command. -/
theorem commandOutcome_finish_raw {i : Instr} {s : State} {r : Nat} {bs : List Byte}
    (h : commandOutcome i (familyRule s.cfg i) s = .finish r bs) : rawOutcome i s = .finish r bs := by
  rw [commandOutcome_eq_withBusErrors (commandOutcome_finish h).1] at h
  obtain hraw | hbus := withBusErrors_cases i s (rawOutcome i s)
  · exact hraw.symm.trans h
  · cases hbus.symm.trans h

/-- The state with BusErr false everywhere (R7). -/
def withoutBusErr (s : State) : State := { s with cfg := { s.cfg with busErr := [] } }

/-- The parameter BusErr plays no part in the family rule. -/
theorem rawOutcome_withoutBusErr (i : Instr) (s : State) : rawOutcome i (withoutBusErr s) = rawOutcome i s := by
  cases i <;> rfl

/-! ## The validation of B64_DEC (R139, R140), by source elements -/

theorem memReadBytes_eq_map (m : Memory) (a n : Nat) :
    memReadBytes m a n = (List.range n).map fun k => memRead m (a + k) := by
  apply List.ext_getElem?
  intro k
  rw [getElem?_memReadBytes, List.getElem?_map]
  by_cases hk : k < n <;> simp [hk]

theorem sourceBytes_eq_map (i : Instr) (s : State) :
    sourceBytes i s = (List.range (sourceSize i s.blk.eng.len.toNat)).map (srcByte s) := memReadBytes_eq_map ..

theorem padCount_map_range (f : Nat → Byte) (n : Nat) : padCount ((List.range n).map f) = padOf f n := by
  have hlast : ∀ d, 0 < d → 0 < n → (((List.range n).map f)[n - d]? = some padByte ↔ f (n - d) = 0x2E#8) := by
    intro d hd hn
    simp [List.getElem?_range (show n - d < n by omega), padByte]
  unfold padCount padOf
  simp only [List.length_map, List.length_range]
  by_cases hn : 0 < n
  · simp only [hlast 1 (by decide) hn, hlast 2 (by decide) hn]
  · simp [hn]

theorem dataPart_map_range (f : Nat → Byte) (n : Nat) :
    dataPart ((List.range n).map f) = (List.range (n - padOf f n)).map f := by
  rw [dataPart, padCount_map_range, List.length_map, List.length_range, ← List.map_take, List.take_range,
    Nat.min_eq_left (Nat.sub_le ..)]

theorem firstInvalid_eq_findIdx? (data : List Byte) :
    firstInvalid data = data.findIdx? fun c => decide (rev c = none) := by
  induction data with
  | nil => rfl
  | cons c cs ih => simp only [firstInvalid, List.findIdx?_cons, ih, decide_eq_true_eq]

theorem firstInvalid_map_range_eq_none {f : Nat → Byte} {n : Nat} :
    firstInvalid ((List.range n).map f) = none ↔ ∀ k, k < n → rev (f k) ≠ none := by
  simp [firstInvalid_eq_findIdx?, List.findIdx?_eq_none_iff]

theorem firstInvalid_map_range_eq_some {f : Nat → Byte} {n j : Nat} :
    firstInvalid ((List.range n).map f) = some j ↔
      j < n ∧ rev (f j) = none ∧ ∀ i, i < j → rev (f i) ≠ none := by
  simp [firstInvalid_eq_findIdx?, List.findIdx?_eq_some_iff_getElem, and_left_comm]

/-- What R140 reports of the bytes f 0 to f (n - 1): the least offset of an invalid one, or that of a lone leftover. -/
def ReportedAt (f : Nat → Byte) (n j : Nat) : Prop :=
  (j < n ∧ rev (f j) = none ∧ ∀ i, i < j → rev (f i) ≠ none) ∨
    ((∀ i, i < n → rev (f i) ≠ none) ∧ n % 4 = 1 ∧ j = n - 1)

theorem invalidAt_of_reportedAt {f : Nat → Byte} {n j : Nat} (h : ReportedAt f n j) :
    invalidAt ((List.range n).map f) = some j := by
  unfold invalidAt
  obtain hfirst | ⟨hvalid, hlone, rfl⟩ := h
  · rw [firstInvalid_map_range_eq_some.2 hfirst]
  · rw [firstInvalid_map_range_eq_none.2 hvalid, List.length_map, List.length_range, if_pos hlone]

theorem invalidAt_of_valid {f : Nat → Byte} {n : Nat} (hvalid : ∀ k, k < n → rev (f k) ≠ none) (hlone : n % 4 ≠ 1) :
    invalidAt ((List.range n).map f) = none := by
  unfold invalidAt
  rw [firstInvalid_map_range_eq_none.2 hvalid, List.length_map, List.length_range, if_neg hlone]

/-- The data part of the source of a B64_DEC, by source elements. -/
theorem dataPart_sourceBytes (s : State) :
    dataPart (sourceBytes .b64Dec s) =
      (List.range (s.blk.eng.len.toNat - padOf (srcByte s) s.blk.eng.len.toNat)).map (srcByte s) := by
  rw [sourceBytes_eq_map]
  exact dataPart_map_range (srcByte s) _

theorem rawOutcome_b64Dec (s : State) : rawOutcome .b64Dec s = b64DecodeOutcome (sourceBytes .b64Dec s) := rfl

theorem rawOutcome_of_reportedAt {s : State} {j : Nat}
    (h : ReportedAt (srcByte s) (s.blk.eng.len.toNat - padOf (srcByte s) s.blk.eng.len.toNat) j) :
    rawOutcome .b64Dec s = .error .invalidInput (BitVec.ofNat 32 j) := by
  rw [rawOutcome_b64Dec, b64DecodeOutcome, dataPart_sourceBytes, invalidAt_of_reportedAt h]

theorem b64DecodeOutcome_of_valid {src : List Byte} (h : invalidAt (dataPart src) = none) :
    b64DecodeOutcome src = finishWith (decodeValues ((dataPart src).filterMap rev)) := by
  rw [b64DecodeOutcome, h]

theorem finishLength_ne_invalidInput (v : Nat) (info : Word) : finishLength v ≠ .error .invalidInput info := by
  unfold finishLength
  split <;> exact fun h => by cases h

/-- INVALID_INPUT is an outcome of B64_DEC alone (R206), and there only of a data part that R140 rejects. -/
theorem rawOutcome_ne_invalidInput {i : Instr} {s : State}
    (h : i = .b64Dec → invalidAt (dataPart (sourceBytes .b64Dec s)) = none) (info : Word) :
    rawOutcome i s ≠ .error .invalidInput info := by
  cases i with
  | b64Dec =>
    rw [rawOutcome_b64Dec, b64DecodeOutcome_of_valid (h rfl)]
    exact fun h' => by cases h'
  | b64EncLen | pctStrlenStd | pctStrlenMin => exact finishLength_ne_invalidInput _ info
  | b64Enc | b64DecLen | pctEncStd | pctEncMin | pctDec => exact fun h' => by cases h'

/-! ## What a success writes (R105) -/

/-- A success of a writing command is its output and the terminator. -/
theorem rawOutcome_finish_terminated {i : Instr} {s : State} {r : Nat} {bs : List Byte} (hi : 0 < maxWrite i 0)
    (h : rawOutcome i s = .finish r bs) : ∃ out, finishWith out = .finish r bs := by
  cases i with
  | b64Dec => exact ⟨_, b64DecodeOutcome_finish h⟩
  | b64Enc | pctEncStd | pctEncMin | pctDec => exact ⟨_, h⟩
  | b64EncLen | b64DecLen | pctStrlenStd | pctStrlenMin => cases hi

theorem finishWith_terminator {out bs : List Byte} {r : Nat} (h : finishWith out = .finish r bs) :
    bs[r]? = some 0x00#8 := by
  obtain ⟨rfl, rfl⟩ := CmdOutcome.finish.inj h
  exact List.getElem?_concat_length

/-- A success of a writing command writes every offset up to RESULT. -/
theorem lt_length_of_le_result {i : Instr} {s : State} {r k : Nat} {bs : List Byte} (hi : 0 < maxWrite i 0)
    (h : commandOutcome i (familyRule s.cfg i) s = .finish r bs) (hk : k ≤ (BitVec.ofNat 32 r).toNat) :
    k < bs.length := by
  have hmod : (BitVec.ofNat 32 r).toNat ≤ r := BitVec.toNat_ofNat r 32 ▸ Nat.mod_le ..
  rw [commandOutcome_finish_length hi h]
  omega

/-- The output of a command that passed its checks is shorter than the data space, so RESULT holds its length. -/
theorem commandOutcome_finish_lt {i : Instr} {s : State} {r : Nat} {bs : List Byte} (haddr : s.cfg.addrW ≤ 32)
    (h : commandOutcome i (familyRule s.cfg i) s = .finish r bs) (hlen : bs.length = r + 1) : r < 2 ^ 32 := by
  obtain ⟨hpass, hle⟩ := commandOutcome_finish h
  have hfit : maxWrite i s.blk.eng.len.toNat = 0 ∨
      s.blk.eng.dst.toNat + maxWrite i s.blk.eng.len.toNat ≤ spaceSize s.cfg := (windows_fit hpass).2
  have hspace : spaceSize s.cfg ≤ 2 ^ 32 := Nat.pow_le_pow_right (by decide) haddr
  omega

end Sys2Proof.Machine

namespace Sys2Proof.Proofs

open Sys2Proof.Machine

/-- Settles O16: the windows pass check 2 and fail check 3, and a failed check makes no data access. -/
theorem overlapCheckFails : Obligations.OverlapCheckFails := by
  intro i s hz hw e S M hsrc hdst hS hM hlo hhi
  have hmeet : overlapFails i e = true := rangesMeet_iff.2 ⟨hS, hM, hlo, hhi⟩
  exact exec_failed_of_failedCheck (checkWindows_of_meet hsrc hdst hmeet) hz hw

/-- Settles O17: the source byte is a bus hit whatever the outcome, and the outcome is not INVALID_INPUT. -/
theorem busErrorReplacesOutcome : Obligations.BusErrorReplacesOutcome := by
  intro i s k hm n L hadm hk hbus hvalid
  have hne := rawOutcome_ne_invalidInput (i := i) (s := s) fun hi => by
    obtain ⟨hrev, hlone⟩ := hvalid hi
    rw [dataPart_sourceBytes]
    exact invalidAt_of_valid hrev hlone
  have ho := withBusErrors_of_hit (busHit_of_source hk hbus _) hne
  obtain ⟨hpass, hr⟩ := checks_of_admitted hadm
  obtain ⟨t, ht⟩ := exec_failed_of_outcome hm hadm.2.1 hr ((commandOutcome_eq_withBusErrors hpass).trans ho)
  exact ⟨t, _, ht⟩

/-- Settles O18: without bus errors the outcome is the family rule's, and a byte it would write is a bus hit. -/
theorem busErrorOnDestinationReplacesOutcome : Obligations.BusErrorOnDestinationReplacesOutcome := by
  intro i s t₀ k hm _ hs hi hexec herr hk hbus
  change exec i (withoutBusErr s) = .next t₀ at hexec
  obtain ⟨hr, rfl⟩ := exec_next hexec
  rw [complete_blk_of_calm (s := withoutBusErr s) (undisturbed_iff.1 hs).1] at herr hk
  obtain ⟨r, bs, hfin⟩ := finish_of_err herr
  rw [hfin] at hk
  have hlt : k < bs.length := lt_length_of_le_result hi hfin hk
  have hpass : checkWindows i s.cfg s.blk.eng = none := (commandOutcome_finish hfin).1
  have hraw : rawOutcome i s = .finish r bs := rawOutcome_withoutBusErr i s ▸ commandOutcome_finish_raw hfin
  have ho : commandOutcome i (familyRule s.cfg i) s = .error .bus (Config.freeErrInfo s.draw) := by
    rw [commandOutcome_eq_withBusErrors hpass, hraw]
    exact withBusErrors_of_hit (busHit_of_written hlt hbus) fun _ h => by cases h
  obtain ⟨t, ht⟩ := exec_failed_of_outcome hm hs hr ho
  exact ⟨t, _, ht⟩

/-- Settles O19: R140 rejects the source, so the outcome is INVALID_INPUT or the BUS that replaces it. -/
theorem busAgainstInvalidIsADraw : Obligations.BusAgainstInvalidIsADraw := by
  intro s k j hm n L hadm _ hrep
  obtain ⟨hpass, hr⟩ := checks_of_admitted (i := .b64Dec) (s := s) hadm
  have ho := commandOutcome_eq_withBusErrors hpass
  rw [rawOutcome_of_reportedAt hrep] at ho
  obtain h | h := withBusErrors_cases .b64Dec s (.error .invalidInput (BitVec.ofNat 32 j))
  · obtain ⟨t, hexec, hfail, hwrote⟩ := exec_failed_of_outcome hm hadm.2.1 hr (ho.trans h)
    exact ⟨t, hexec, hwrote, .inl hfail⟩
  · obtain ⟨t, hexec, hfail, hwrote⟩ := exec_failed_of_outcome hm hadm.2.1 hr (ho.trans h)
    exact ⟨t, hexec, hwrote, .inr ⟨_, hfail⟩⟩

/-- Settles O20: check 1 fails on the latched word, and BADCMD makes no data access. -/
theorem illegalWordCompletesWithBadCmd : Obligations.IllegalWordCompletesWithBadCmd := by
  intro s hrun hs hillegal hturn
  obtain ⟨rest, hstep⟩ := step_engine hrun hturn
  rw [engineTurn_of_illegal (s := { s with sched := rest }) hrun (latchedInstr_of_illegal hillegal)] at hstep
  exact ⟨_, hstep, failed_of_calm (s := { s with sched := rest }) _ (undisturbed_iff.1 hs).1 .badCmd 0#32,
    mem_of_calm (s := { s with sched := rest }) _ hs _⟩

/-- Settles O24: a success stores its output and the terminator from eng.DST on, and RESULT is the output's length. -/
theorem successWritesOutputAndTerminator : Obligations.SuccessWritesOutputAndTerminator := by
  intro i s t hm haddr hs hi hexec herr
  obtain ⟨_, rfl⟩ := exec_next hexec
  rw [complete_blk_of_calm (undisturbed_iff.1 hs).1] at herr ⊢
  obtain ⟨r, bs, ho⟩ := finish_of_err herr
  have hlen := commandOutcome_finish_length hi ho
  obtain ⟨out, hout⟩ := rawOutcome_finish_terminated hi (commandOutcome_finish_raw ho)
  have hmem := mem_of_calm (writeWindow i s.blk.eng) hs (.finish r bs)
  have hresult : (BitVec.ofNat 32 r).toNat = r := Nat.mod_eq_of_lt (commandOutcome_finish_lt haddr ho hlen)
  have hle := (commandOutcome_finish ho).2
  rw [ho, outcomeBlock, recordFinish_result, hresult, ← hlen]
  exact ⟨hle, onlyWrote_of_writeBytes hm hmem, dstByte_of_writeBytes hm hmem (finishWith_terminator hout)⟩

/-- Settles O41: the step is the accepted GO write, whose block is the started one but for the marks of R70. -/
theorem goLatchesTheCommand : Obligations.GoLatchesTheCommand := by
  intro s v rest _ hgo hidle hsched
  have hstep := step_writeCmd hsched
  rw [writeCmd_of_go (s := { s with sched := rest }) hgo hidle] at hstep
  refine ⟨_, hstep, rfl, rfl, rfl, ?_⟩
  have halone := acceptCommand_alone v (s := { s with sched := rest })
  obtain ⟨hz, wh, fl, hblk⟩ := acceptCommand_blk_eq v { s with sched := rest }
  rw [hblk] at halone ⊢
  exact ⟨rfl, rfl, rfl, addrBits_toNat .., addrBits_toNat .., rfl, rfl, rfl, rfl, rfl, rfl, rfl, rfl, rfl, rfl, rfl,
    rfl, rfl, rfl, rfl, halone⟩

/-- Settles O50: the turn of a running engine is a completion unless its windows are refused. -/
theorem runningCommandCompletes : Obligations.RunningCommandCompletes := by
  intro s hrun hturn
  obtain ⟨rest, hstep⟩ := step_engine hrun hturn
  rw [hstep]
  obtain ⟨w, o, h⟩ | ⟨⟨i, hr⟩, h⟩ := engineTurn_of_run (s := { s with sched := rest }) hrun
  · obtain ⟨r, info, code, hclose⟩ := complete_blk_eq_close w o { s with sched := rest }
    refine ⟨fun _ => ⟨_, h⟩, .inr ⟨_, h, ?_⟩⟩
    rw [hclose]
    exact ⟨rfl, rfl, rfl, decide_eq_true_iff⟩
  · refine ⟨fun hdev => ?_, .inl h⟩
    rw [windowsRefused_of_noDevice (s := { s with sched := rest }) hdev] at hr
    cases hr

/-- Settles O4: the engine's turn, scheduled or not, runs the command that the latched word decodes to. -/
theorem stepRunsDecodedCommand : Obligations.StepRunsDecodedCommand := by
  intro s i hrun hdec hop
  have hi := latchedInstr_of_decodeCmdw hdec hop
  refine ⟨fun h => ?_, fun rest h => ?_⟩
  · rw [step_of_idleSchedule hrun h, engineTurn_of_legal hrun hi]
  · rw [step_of_complete h, engineTurn_of_legal (s := { s with sched := rest }) hrun hi]

/-- Settles O5: the placed word's turn comes first, and its engine has latched the word. -/
theorem placedWordRunsNext : Obligations.PlacedWordRunsNext := by
  intro s w i hdec
  obtain ⟨hz, wh, fl, hblk⟩ := acceptCommand_blk_eq w s
  have hrun : (acceptCommand w s).blk.eng.state = .run := by rw [hblk]; rfl
  have hi : latchedInstr (acceptCommand w s).blk.eng = some i := by
    rw [hblk]
    exact latchedInstr_of_decodeCmdw hdec rfl
  rw [withFetchWord_eq, step_of_complete (placeCommand_sched w s)]
  exact engineTurn_of_legal hrun hi

/-- Settles O14, by the table of `maxWrite` and the windows of a legal and an illegal word. -/
theorem windowSizes : Obligations.WindowSizes := fun n =>
  ⟨rfl, rfl, rfl, rfl, rfl, rfl, rfl, rfl, rfl, rfl, rfl, fun _ henc hdec => sourceSize_of_reads henc hdec n,
    fun _ h => by rw [blockWindow_of_illegal h], fun _ _ h => blockWindow_of_legal h⟩

end Sys2Proof.Proofs
end

section
/-! PROOFS. The base64 encoder: the alphabet by its closed form, the outcome of a command that touches no data memory, and
B64_ENC's output regrouped by source elements. -/

namespace Sys2Proof.Machine

/-! ## The alphabet (R115, R116) -/

/-- The closed form of R115 on numbers. -/
def alphabetCode (k : Nat) : Nat :=
  if k ≤ 25 then 0x41 + k
  else if k ≤ 51 then 0x61 + (k - 26)
  else if k ≤ 61 then 0x30 + (k - 52)
  else if k = 62 then 0x2D
  else 0x5F

theorem alphabet_toNat (v : BitVec 6) : (alphabet v).toNat = alphabetCode v.toNat := by
  unfold alphabet alphabetCode
  split_ifs <;> rw [BitVec.toNat_ofNat] <;> omega

theorem alphabetCode_injective {j k : Nat} (hj : j < 64) (hk : k < 64) (h : alphabetCode j = alphabetCode k) : j = k := by
  unfold alphabetCode at h
  split_ifs at h <;> omega

/-- The codes of the alphabet are those of the letters, the digits, `-` and `_`. -/
theorem exists_alphabetCode_iff {c : Nat} :
    (∃ k < 64, alphabetCode k = c) ↔
      0x41 ≤ c ∧ c ≤ 0x5A ∨ 0x61 ≤ c ∧ c ≤ 0x7A ∨ 0x30 ≤ c ∧ c ≤ 0x39 ∨ c = 0x2D ∨ c = 0x5F := by
  constructor
  · rintro ⟨k, hk, rfl⟩
    unfold alphabetCode
    split_ifs <;> omega
  · rintro (h | h | h | rfl | rfl)
    · exact ⟨c - 0x41, by omega, by unfold alphabetCode; split_ifs <;> omega⟩
    · exact ⟨c - 0x61 + 26, by omega, by unfold alphabetCode; split_ifs <;> omega⟩
    · exact ⟨c - 0x30 + 52, by omega, by unfold alphabetCode; split_ifs <;> omega⟩
    · exact ⟨62, by decide, rfl⟩
    · exact ⟨63, by decide, rfl⟩

theorem alphabet_eq_iff {v : BitVec 6} {c : Byte} : alphabet v = c ↔ alphabetCode v.toNat = c.toNat := by
  rw [← BitVec.toNat_inj, alphabet_toNat]

/-- The image of the alphabet, by its codes. -/
theorem exists_alphabet_eq_iff {c : Byte} : (∃ v, alphabet v = c) ↔ ∃ k < 64, alphabetCode k = c.toNat := by
  simp only [alphabet_eq_iff]
  refine ⟨fun ⟨v, hv⟩ => ⟨v.toNat, v.isLt, hv⟩, fun ⟨k, hk, h⟩ => ⟨BitVec.ofNat 6 k, ?_⟩⟩
  rwa [BitVec.toNat_ofNat, Nat.mod_eq_of_lt hk]

/-! ## A command that touches no data memory -/

/-- A command whose windows are empty passes its checks, and no device region concerns it. -/
theorem checks_of_emptyWindows {i : Instr} {s : State} (hsrc : sourceSize i s.blk.eng.len.toNat = 0)
    (hdst : maxWrite i s.blk.eng.len.toNat = 0) :
    checkWindows i s.cfg s.blk.eng = none ∧ windowsRefused i s = false := by
  have hmeets (a : Nat) : meetsAny s.cfg.device (a, 0) = false :=
    meetsAny_eq_false fun k hk => absurd hk (Nat.not_lt_zero k)
  refine ⟨checkWindows_of_fits (.inl hsrc) (.inl hdst) (.inl hsrc), ?_⟩
  rw [windowsRefused, touchesDevice, sourceWindow, writeWindow, hsrc, hdst, hmeets, hmeets]
  exact Bool.and_false _

/-- The destination addresses of R103 lie in the write window. -/
theorem outcomeRange_rawOutcome_le (i : Instr) (s : State) :
    (outcomeRange i s.blk.eng (rawOutcome i s)).2 ≤ maxWrite i s.blk.eng.len.toNat := by
  unfold outcomeRange
  split
  next r bs ho => exact familyRule_written_le (sourceBytes_length i s) ho
  next => exact Nat.le_refl _
  next => exact Nat.zero_le _

/-- A command whose windows are empty completes with the outcome of its family rule: there is no bus error to meet. -/
theorem exec_of_emptyWindows {i : Instr} {s : State} (hsrc : sourceSize i s.blk.eng.len.toNat = 0)
    (hdst : maxWrite i s.blk.eng.len.toNat = 0) :
    exec i s = .next (complete (writeWindow i s.blk.eng) (rawOutcome i s) s) := by
  obtain ⟨hcheck, hdevice⟩ := checks_of_emptyWindows hsrc hdst
  have hrange := outcomeRange_rawOutcome_le i s
  have hquiet : BusQuiet s (sourceSize i s.blk.eng.len.toNat) (outcomeRange i s.blk.eng (rawOutcome i s)).2 :=
    ⟨fun k hk => by omega, fun k hk => by omega⟩
  rw [exec_of_ordinary hdevice, commandOutcome_eq_withBusErrors hcheck, withBusErrors_of_quiet hquiet]

/-- An undisturbed command that gives a length: RESULT, or RANGE where the length does not fit, and no data access. -/
theorem complete_finishLength (w : Nat × Nat) {s : State} (hs : undisturbed s.blk = true) (v : Nat) :
    (complete w (finishLength v) s).mem = s.mem ∧
      (v < 2 ^ 32 → Finished s (complete w (finishLength v) s) v) ∧
      (2 ^ 32 ≤ v → Failed s (complete w (finishLength v) s) 3#4 0#32) := by
  have hcalm := (undisturbed_iff.1 hs).1
  rw [mem_of_calm w hs]
  by_cases hv : v < 2 ^ 32
  · rw [finishLength_of_le (by omega)]
    exact ⟨rfl, fun _ => finished_of_calm w hcalm hv [], fun h => absurd h (by omega)⟩
  · rw [finishLength_of_gt (by omega)]
    exact ⟨rfl, fun h => absurd h hv, fun _ => failed_of_calm w hcalm .range 0#32⟩

/-! ## A command that writes its output and the terminator (R105) -/

/-- An admitted command whose family rule gives an output, without bus errors: RESULT is the output's length, the output
and the terminator stand from eng.DST on, and nothing else is written. -/
theorem exec_finishWith_of_admitted {i : Instr} {s : State} {out : List Byte} (hm : Memory.wf s.mem = true)
    (hadm : Admitted s (sourceSize i s.blk.eng.len.toNat) (maxWrite i s.blk.eng.len.toNat))
    (ho : rawOutcome i s = finishWith out)
    (hq : BusQuiet s (sourceSize i s.blk.eng.len.toNat) (out.length + 1)) :
    ∃ t, exec i s = .next t ∧ Finished s t out.length ∧ OnlyWrote s t (out.length + 1) ∧
      dstByte s t out.length = 0x00#8 ∧ ∀ k v, out[k]? = some v → dstByte s t k = v := by
  have hlen : (out ++ [0x00#8]).length = out.length + 1 := List.length_append
  rw [← hlen] at hq ⊢
  have hfin : commandOutcome i (familyRule s.cfg i) s = .finish out.length (out ++ [0x00#8]) := by
    rw [commandOutcome_eq_withBusErrors (checks_of_admitted hadm).1, ho]
    exact withBusErrors_of_quiet hq
  obtain ⟨t, hexec, hfinished, hmem⟩ := exec_finish_of_admitted hadm ho hq (commandOutcome_finish_lt hadm.1 hfin hlen)
  refine ⟨t, hexec, hfinished, onlyWrote_of_writeBytes hm hmem,
    dstByte_of_writeBytes hm hmem List.getElem?_concat_length, fun k v hv => dstByte_of_writeBytes hm hmem ?_⟩
  rwa [List.getElem?_append_left (List.getElem?_eq_some_iff.1 hv).1]

/-- The source bytes from an element on begin with it. -/
theorem drop_sourceBytes {i : Instr} {s : State} {k : Nat} (hk : k < sourceSize i s.blk.eng.len.toNat) :
    (sourceBytes i s).drop k = srcByte s k :: (sourceBytes i s).drop (k + 1) := by
  obtain ⟨hlt, hget⟩ := List.getElem?_eq_some_iff.1 (getElem?_sourceBytes hk)
  rw [List.drop_eq_getElem_cons hlt, hget]

/-! ## The output of B64_ENC by groups (R118 to R121) -/

/-- From the k-th group on, the output is that of the source from its k-th group on. -/
theorem drop_b64Encode (k : Nat) : ∀ {l : List Byte}, 3 * k ≤ l.length →
    (b64Encode l).drop (4 * k) = b64Encode (l.drop (3 * k)) := by
  induction k with
  | zero => exact fun _ => rfl
  | succ k ih =>
    intro l hl
    match l, hl with
    | b0 :: b1 :: b2 :: rest, hl =>
      simp only [List.length_cons] at hl
      -- Both sides compute to their values on `rest`: four characters and three bytes less.
      exact ih (l := rest) (by omega)

/-- The output of B64_ENC on its whole source. -/
def encOutput (s : State) : List Byte := b64Encode (sourceBytes .b64Enc s)

theorem encOutput_length (s : State) : (encOutput s).length = 4 * ((s.blk.eng.len.toNat + 2) / 3) := by
  rw [encOutput, b64Encode_length, sourceBytes_length]
  rfl

theorem getElem?_encOutput {s : State} {k : Nat} (hk : 3 * k ≤ s.blk.eng.len.toNat) (j : Nat) :
    (encOutput s)[4 * k + j]? = (b64Encode ((sourceBytes .b64Enc s).drop (3 * k)))[j]? := by
  rw [← drop_b64Encode k ((sourceBytes_length .b64Enc s).symm ▸ hk), List.getElem?_drop, encOutput]

theorem drop_encSource {s : State} {k : Nat} (hk : k < s.blk.eng.len.toNat) :
    (sourceBytes .b64Enc s).drop k = srcByte s k :: (sourceBytes .b64Enc s).drop (k + 1) := drop_sourceBytes hk

theorem drop_encSource_end {s : State} {k : Nat} (hk : s.blk.eng.len.toNat ≤ k) : (sourceBytes .b64Enc s).drop k = [] :=
  List.drop_eq_nil_of_le ((sourceBytes_length .b64Enc s).trans_le hk)

/-- A whole group of the source gives the four characters of its ENC_GROUP (R118). -/
theorem encOutput_group {s : State} {k : Nat} (hk : k < s.blk.eng.len.toNat / 3) {j : Nat} (hj : j < 4) :
    (encOutput s)[4 * k + j]? = (encGroup (srcByte s (3 * k)) (srcByte s (3 * k + 1)) (srcByte s (3 * k + 2)))[j]? := by
  rw [getElem?_encOutput (by omega), drop_encSource (by omega), drop_encSource (by omega), drop_encSource (by omega),
    b64Encode, List.getElem?_append_left hj]

/-- One leftover byte gives its ENC_TAIL1 (R119). -/
theorem encOutput_tail1 {s : State} (hn : s.blk.eng.len.toNat % 3 = 1) (j : Nat) :
    (encOutput s)[4 * (s.blk.eng.len.toNat / 3) + j]? = (encTail1 (srcByte s (3 * (s.blk.eng.len.toNat / 3))))[j]? := by
  rw [getElem?_encOutput (by omega), drop_encSource (by omega), drop_encSource_end (by omega), b64Encode]

/-- Two leftover bytes give their ENC_TAIL2 (R120). -/
theorem encOutput_tail2 {s : State} (hn : s.blk.eng.len.toNat % 3 = 2) (j : Nat) :
    (encOutput s)[4 * (s.blk.eng.len.toNat / 3) + j]? =
      (encTail2 (srcByte s (3 * (s.blk.eng.len.toNat / 3))) (srcByte s (3 * (s.blk.eng.len.toNat / 3) + 1)))[j]? := by
  rw [getElem?_encOutput (by omega), drop_encSource (by omega), drop_encSource (by omega),
    drop_encSource_end (by omega), b64Encode]

/-- Where the output is stored and holds four given characters from offset a on, so does memory. -/
theorem dstByte_fourChars {s t : State} {out : List Byte} (hbytes : ∀ k v, out[k]? = some v → dstByte s t k = v)
    {a : Nat} {c0 c1 c2 c3 : Byte} (h : ∀ j < 4, out[a + j]? = [c0, c1, c2, c3][j]?) :
    dstByte s t a = c0 ∧ dstByte s t (a + 1) = c1 ∧ dstByte s t (a + 2) = c2 ∧ dstByte s t (a + 3) = c3 :=
  ⟨hbytes _ _ (h 0 (by decide)), hbytes _ _ (h 1 (by decide)), hbytes _ _ (h 2 (by decide)), hbytes _ _ (h 3 (by decide))⟩

end Sys2Proof.Machine

namespace Sys2Proof.Proofs

open Sys2Proof.Machine

/-- Settles O6: an admitted B64_ENC writes `encOutput`, whose groups and tails are those of R118 to R120. -/
theorem b64EncRegroupsSource : Obligations.B64EncRegroupsSource := by
  intro s hm n out grp hadm hquiet
  have ho : rawOutcome .b64Enc s = finishWith (encOutput s) := rfl
  have hlen : (encOutput s).length = out := encOutput_length s
  obtain ⟨t, hexec, hfin, honly, hterm, hbytes⟩ :=
    exec_finishWith_of_admitted (i := .b64Enc) hm hadm ho (hlen ▸ hquiet)
  rw [hlen] at hfin honly hterm
  exact ⟨t, hexec, hfin, honly, hterm, fun k hk => dstByte_fourChars hbytes fun j hj => encOutput_group hk hj,
    fun hn => dstByte_fourChars hbytes fun j _ => encOutput_tail1 hn j,
    fun hn => dstByte_fourChars hbytes fun j _ => encOutput_tail2 hn j⟩

/-- Settles O7: both windows are empty, and the length passes 2^32 - 1 exactly from 3_221_225_470 on. -/
theorem b64EncLenValue : Obligations.B64EncLenValue := by
  refine ⟨by decide, fun s hs => ?_⟩
  have ho : rawOutcome .b64EncLen s = finishLength (4 * ((s.blk.eng.len.toNat + 2) / 3) + 1) := rfl
  have hexec := exec_of_emptyWindows (i := .b64EncLen) (s := s) rfl rfl
  rw [ho] at hexec
  obtain ⟨hmem, hfin, hfail⟩ :=
    complete_finishLength (writeWindow .b64EncLen s.blk.eng) hs (4 * ((s.blk.eng.len.toNat + 2) / 3) + 1)
  exact ⟨_, hexec, hmem, fun hn => hfin (by omega), fun hn => hfail (by omega)⟩

/-- Settles O29, by the closed form of R115 on the codes. -/
theorem alphabetIsInjective : Obligations.AlphabetIsInjective := by
  have himage (c : Byte) := (exists_alphabet_eq_iff (c := c)).trans exists_alphabetCode_iff
  refine ⟨fun v => ?_, fun v w h => ?_, fun c => ?_, fun v => ⟨fun h => ?_, fun h => ?_⟩⟩
  · rw [alphabet_toNat, alphabetCode]
    split_ifs <;> omega
  · exact BitVec.eq_of_toNat_eq
      (alphabetCode_injective v.isLt w.isLt (by rw [← alphabet_toNat, ← alphabet_toNat, h]))
  · rw [himage]
    simp [BitVec.le_def, ← BitVec.toNat_inj]
  · exact absurd ((himage _).1 ⟨v, h⟩) (by decide)
  · exact absurd ((himage _).1 ⟨v, h⟩) (by decide)

end Sys2Proof.Proofs
end

section
/-! PROOFS. The base64 decoder: REV as the inverse of the alphabet, B64_DEC's output regrouped by source elements, its report
of an invalid source, and the round trip through the encoder. -/

namespace Sys2Proof.Machine

/-! ## REV and the alphabet (R135, R136) -/

/-- The table of R135 on numbers. -/
def revCode (c : Nat) : Option Nat :=
  if 0x41 ≤ c ∧ c ≤ 0x5A then some (c - 0x41)
  else if 0x61 ≤ c ∧ c ≤ 0x7A then some (c - 0x61 + 26)
  else if 0x30 ≤ c ∧ c ≤ 0x39 then some (c - 0x30 + 52)
  else if c = 0x2D then some 62
  else if c = 0x5F then some 63
  else none

theorem rev_map_toNat (c : Byte) : (rev c).map BitVec.toNat = revCode c.toNat := by
  unfold rev revCode
  dsimp only
  split_ifs <;> simp <;> omega

theorem revCode_eq_some_iff {c k : Nat} (hk : k < 64) : revCode c = some k ↔ alphabetCode k = c := by
  unfold revCode alphabetCode
  split_ifs <;> simp <;> omega

/-- REV is the exact inverse of the alphabet. -/
theorem rev_eq_some_iff {c : Byte} {v : BitVec 6} : rev c = some v ↔ alphabet v = c := by
  rw [alphabet_eq_iff, ← revCode_eq_some_iff v.isLt, ← rev_map_toNat]
  exact (Option.map_injective BitVec.toNat_injective).eq_iff.symm

@[simp] theorem rev_alphabet (v : BitVec 6) : rev (alphabet v) = some v := rev_eq_some_iff.2 rfl

theorem rev_padByte : rev padByte = none := rfl

theorem alphabet_ne_padByte (v : BitVec 6) : alphabet v ≠ padByte := fun h => by
  cases rev_padByte.symm.trans (rev_eq_some_iff.2 h)

/-! ## The output of B64_DEC by groups (R137 to R141) -/

/-- From the k-th group on, the decoded bytes are those of the values from the k-th group on. -/
theorem drop_decodeValues (k : Nat) : ∀ {l : List (BitVec 6)}, 4 * k ≤ l.length →
    (decodeValues l).drop (3 * k) = decodeValues (l.drop (4 * k)) := by
  induction k with
  | zero => exact fun _ => rfl
  | succ k ih =>
    intro l hl
    match l, hl with
    | v0 :: v1 :: v2 :: v3 :: rest, hl =>
      simp only [List.length_cons] at hl
      exact ih (l := rest) (by omega)

/-- The length L of the data part of a B64_DEC's source (R139). -/
def dataLen (s : State) : Nat := s.blk.eng.len.toNat - padOf (srcByte s) s.blk.eng.len.toNat

/-- The value of source element k, 0 for a byte that has none. -/
def srcValue (s : State) (k : Nat) : BitVec 6 := (rev (srcByte s k)).getD 0#6

/-- The values of the data part. -/
def srcValues (s : State) : List (BitVec 6) := (List.range (dataLen s)).map (srcValue s)

/-- Where every byte is valid, the values are those of the bytes in order. -/
theorem filterMap_rev_eq_map {data : List Byte} (h : ∀ c ∈ data, rev c ≠ none) :
    data.filterMap rev = data.map fun c => (rev c).getD 0#6 := by
  induction data with
  | nil => rfl
  | cons c cs ih =>
    obtain ⟨hc, hcs⟩ := List.forall_mem_cons.1 h
    obtain ⟨v, hv⟩ := Option.ne_none_iff_exists'.1 hc
    rw [List.filterMap_cons_some hv, List.map_cons, hv, ih hcs, Option.getD_some]

/-- A valid data part without a lone leftover decodes to the bytes of its values. -/
theorem rawOutcome_b64Dec_of_valid {s : State} (hvalid : ∀ k, k < dataLen s → rev (srcByte s k) ≠ none)
    (hlone : dataLen s % 4 ≠ 1) : rawOutcome .b64Dec s = finishWith (decodeValues (srcValues s)) := by
  have hdata : dataPart (sourceBytes .b64Dec s) = (List.range (dataLen s)).map (srcByte s) := dataPart_sourceBytes s
  have hvalues : (dataPart (sourceBytes .b64Dec s)).filterMap rev = srcValues s := by
    rw [hdata, filterMap_rev_eq_map (by simpa using hvalid), List.map_map]
    rfl
  rw [rawOutcome_b64Dec, b64DecodeOutcome_of_valid (hdata ▸ invalidAt_of_valid hvalid hlone), hvalues]

@[simp] theorem srcValues_length (s : State) : (srcValues s).length = dataLen s := by simp [srcValues]

theorem drop_srcValues {s : State} {k : Nat} (hk : k < dataLen s) :
    (srcValues s).drop k = srcValue s k :: (srcValues s).drop (k + 1) := by
  rw [List.drop_eq_getElem_cons ((srcValues_length s).symm ▸ hk)]
  simp [srcValues]

theorem drop_srcValues_end {s : State} {k : Nat} (hk : dataLen s ≤ k) : (srcValues s).drop k = [] :=
  List.drop_eq_nil_of_le ((srcValues_length s).trans_le hk)

theorem getElem?_decodeValues {l : List (BitVec 6)} {k : Nat} (hk : 4 * k ≤ l.length) (j : Nat) :
    (decodeValues l)[3 * k + j]? = (decodeValues (l.drop (4 * k)))[j]? := by
  rw [← drop_decodeValues k hk, List.getElem?_drop]

/-- A whole group of the data part gives the three bytes of its DEC_GROUP (R137). -/
theorem decodeValues_group {s : State} {m : Nat} (hm : m < dataLen s / 4) {j : Nat} (hj : j < 3) :
    (decodeValues (srcValues s))[3 * m + j]? =
      (decGroup (srcValue s (4 * m)) (srcValue s (4 * m + 1)) (srcValue s (4 * m + 2)) (srcValue s (4 * m + 3)))[j]? := by
  rw [getElem?_decodeValues (by rw [srcValues_length]; omega), drop_srcValues (by omega), drop_srcValues (by omega),
    drop_srcValues (by omega), drop_srcValues (by omega), decodeValues, List.getElem?_append_left hj]

/-- Two leftover characters give their DEC_TAIL2 (R138). -/
theorem decodeValues_tail2 {s : State} (hL : dataLen s % 4 = 2) (j : Nat) :
    (decodeValues (srcValues s))[3 * (dataLen s / 4) + j]? =
      (decTail2 (srcValue s (4 * (dataLen s / 4))) (srcValue s (4 * (dataLen s / 4) + 1)))[j]? := by
  rw [getElem?_decodeValues (by rw [srcValues_length]; omega), drop_srcValues (by omega), drop_srcValues (by omega),
    drop_srcValues_end (by omega), decodeValues]

/-- Three leftover characters give their DEC_TAIL3 (R138). -/
theorem decodeValues_tail3 {s : State} (hL : dataLen s % 4 = 3) (j : Nat) :
    (decodeValues (srcValues s))[3 * (dataLen s / 4) + j]? =
      (decTail3 (srcValue s (4 * (dataLen s / 4))) (srcValue s (4 * (dataLen s / 4) + 1))
        (srcValue s (4 * (dataLen s / 4) + 2)))[j]? := by
  rw [getElem?_decodeValues (by rw [srcValues_length]; omega), drop_srcValues (by omega), drop_srcValues (by omega),
    drop_srcValues (by omega), drop_srcValues_end (by omega), decodeValues]

/-- The last two values of a DEC_TAIL2 group are twelve zero bits. -/
theorem groupOfValues_tail2 (v0 v1 : BitVec 6) : groupOfValues v0 v1 0#6 0#6 = v0 ++ v1 ++ 0#12 :=
  BitVec.append_assoc

/-! ## The round trip (R146) -/

/-- The four 6-bit values of a group, the first from bits [23:18] (R118). -/
def groupValues (w : BitVec 24) : List (BitVec 6) :=
  [w.extractLsb' 18 6, w.extractLsb' 12 6, w.extractLsb' 6 6, w.extractLsb' 0 6]

/-- The values whose characters B64_ENC writes before the padding. -/
def encodeValues : List Byte → List (BitVec 6)
  | [] => []
  | [b0] => (groupValues (groupOfBytes b0 0x00#8 0x00#8)).take 2
  | [b0, b1] => (groupValues (groupOfBytes b0 b1 0x00#8)).take 3
  | b0 :: b1 :: b2 :: rest => groupValues (groupOfBytes b0 b1 b2) ++ encodeValues rest

/-- The regroup of R137 undoes that of R118. -/
theorem groupOfValues_extract (w : BitVec 24) :
    groupOfValues (w.extractLsb' 18 6) (w.extractLsb' 12 6) (w.extractLsb' 6 6) (w.extractLsb' 0 6) = w := by
  have h1 : w.extractLsb' 18 6 ++ w.extractLsb' 12 6 = w.extractLsb' 12 12 :=
    BitVec.extractLsb'_append_extractLsb'_eq_extractLsb' rfl
  have h2 : w.extractLsb' 12 12 ++ w.extractLsb' 6 6 = w.extractLsb' 6 18 :=
    BitVec.extractLsb'_append_extractLsb'_eq_extractLsb' rfl
  have h3 : w.extractLsb' 6 18 ++ w.extractLsb' 0 6 = w.extractLsb' 0 24 :=
    BitVec.extractLsb'_append_extractLsb'_eq_extractLsb' rfl
  rw [groupOfValues, h1, h2, h3, BitVec.extractLsb'_eq_self]

/-- The three bytes of a group are those it was made of. -/
theorem groupByte_groupOfBytes (b0 b1 b2 : Byte) :
    groupByte (groupOfBytes b0 b1 b2) 0 = b0 ∧ groupByte (groupOfBytes b0 b1 b2) 1 = b1 ∧
      groupByte (groupOfBytes b0 b1 b2) 2 = b2 :=
  ⟨BitVec.extractLsb'_append_eq_of_le (by decide : 8 ≤ 16) |>.trans BitVec.extractLsb'_append_eq_left,
    BitVec.extractLsb'_append_eq_of_le (by decide : 8 ≤ 8) |>.trans BitVec.extractLsb'_append_eq_right,
    BitVec.extractLsb'_append_eq_right⟩

/-- The first two values of a one-byte tail hold its whole group. -/
theorem groupOfValues_encTail1 (b0 : Byte) :
    groupOfValues ((groupOfBytes b0 0x00#8 0x00#8).extractLsb' 18 6) ((groupOfBytes b0 0x00#8 0x00#8).extractLsb' 12 6)
      0#6 0#6 = groupOfBytes b0 0x00#8 0x00#8 := by
  have hassoc : groupOfBytes b0 0x00#8 0x00#8 = b0 ++ 0#16 := BitVec.append_assoc
  have h2 : (groupOfBytes b0 0x00#8 0x00#8).extractLsb' 6 6 = 0#6 := by
    rw [hassoc]
    exact BitVec.extractLsb'_append_eq_of_add_le (by decide : 12 ≤ 16)
  have h3 : (groupOfBytes b0 0x00#8 0x00#8).extractLsb' 0 6 = 0#6 :=
    BitVec.extractLsb'_append_eq_of_add_le (by decide : 6 ≤ 8)
  have h := groupOfValues_extract (groupOfBytes b0 0x00#8 0x00#8)
  rwa [h2, h3] at h

/-- The first three values of a two-byte tail hold its whole group. -/
theorem groupOfValues_encTail2 (b0 b1 : Byte) :
    groupOfValues ((groupOfBytes b0 b1 0x00#8).extractLsb' 18 6) ((groupOfBytes b0 b1 0x00#8).extractLsb' 12 6)
      ((groupOfBytes b0 b1 0x00#8).extractLsb' 6 6) 0#6 = groupOfBytes b0 b1 0x00#8 := by
  have h3 : (groupOfBytes b0 b1 0x00#8).extractLsb' 0 6 = 0#6 :=
    BitVec.extractLsb'_append_eq_of_add_le (by decide : 6 ≤ 8)
  have h := groupOfValues_extract (groupOfBytes b0 b1 0x00#8)
  rwa [h3] at h

/-- Decoding undoes the regroup of the encoder. -/
theorem decodeValues_encodeValues (l : List Byte) : decodeValues (encodeValues l) = l := by
  induction l using b64Encode.induct with
  | case1 => rfl
  | case2 b0 =>
    simp [encodeValues, groupValues, decodeValues, decTail2, groupOfValues_encTail1, groupByte_groupOfBytes]
  | case3 b0 b1 =>
    simp [encodeValues, groupValues, decodeValues, decTail3, groupOfValues_encTail2, groupByte_groupOfBytes]
  | case4 b0 b1 b2 rest ih =>
    simp [encodeValues, groupValues, decodeValues, decGroup, groupOfValues_extract, groupByte_groupOfBytes, ih]

/-- An encoded source leaves no lone character. -/
theorem encodeValues_length_mod (l : List Byte) : (encodeValues l).length % 4 ≠ 1 := by
  induction l using b64Encode.induct with
  | case1 | case2 | case3 => simp [encodeValues, groupValues]
  | case4 b0 b1 b2 rest ih =>
    rw [encodeValues, List.length_append, show (groupValues _).length = 4 from rfl]
    omega

/-- A group that does not end in padding plays no part in the padding of what follows it. -/
theorem padCount_append {g x : List Byte} (hg : g.length = 4) (hlast : g[3]? ≠ some padByte) :
    padCount (g ++ x) = padCount x := by
  have hget : ∀ d, d ≤ x.length → (g ++ x)[4 + x.length - d]? = x[x.length - d]? := fun d hd => by
    rw [List.getElem?_append_right (by omega), hg]
    congr 1
    omega
  simp only [padCount, List.length_append, hg, Nat.add_mod_left]
  by_cases hnil : x = []
  · rw [hnil, List.append_nil, if_neg fun h => hlast h.2.2, if_neg fun h => absurd h.1 (by decide)]
  have hpos : 0 < x.length := List.length_pos_iff.2 hnil
  by_cases hmod : x.length % 4 = 0
  · simp only [hget 1 hpos, hget 2 (by omega), hpos, Nat.add_pos_right]
  · rw [if_neg fun h => hmod h.2.1, if_neg fun h => hmod h.2.1]

theorem dataPart_append {g x : List Byte} (hg : g.length = 4) (hlast : g[3]? ≠ some padByte) :
    dataPart (g ++ x) = g ++ dataPart x := by
  have htwo := padCount_le x
  have hpos := padCount_pos (src := x)
  have hle : padCount x ≤ x.length := by omega
  rw [dataPart, padCount_append hg hlast, List.length_append, Nat.add_sub_assoc hle, List.take_length_add_append,
    dataPart]

/-- The data part of an encoded source is the characters of its values. -/
theorem dataPart_b64Encode (l : List Byte) : dataPart (b64Encode l) = (encodeValues l).map alphabet := by
  induction l using b64Encode.induct with
  | case1 => rfl
  | case2 b0 =>
    simp [dataPart, padCount, b64Encode, encTail1, encodeValues, groupValues, groupChar]
  | case3 b0 b1 =>
    simp [dataPart, padCount, b64Encode, encTail2, encodeValues, groupValues, groupChar, alphabet_ne_padByte]
  | case4 b0 b1 b2 rest ih =>
    rw [b64Encode, dataPart_append rfl (by simp [encGroup, groupChar, alphabet_ne_padByte]), ih, encodeValues,
      List.map_append]
    rfl

theorem firstInvalid_map_alphabet (vs : List (BitVec 6)) : firstInvalid (vs.map alphabet) = none := by
  simp [firstInvalid_eq_findIdx?, List.findIdx?_eq_none_iff]

/-- B64_DEC of what B64_ENC gives is the source. -/
theorem b64DecodeOutcome_b64Encode (l : List Byte) : b64DecodeOutcome (b64Encode l) = finishWith l := by
  have hvalid : invalidAt (dataPart (b64Encode l)) = none := by
    rw [dataPart_b64Encode, invalidAt, firstInvalid_map_alphabet, List.length_map, if_neg (encodeValues_length_mod l)]
  have hvalues : (dataPart (b64Encode l)).filterMap rev = encodeValues l := by
    rw [dataPart_b64Encode, List.filterMap_map, show rev ∘ alphabet = some from funext rev_alphabet, List.filterMap_some]
  rw [b64DecodeOutcome_of_valid hvalid, hvalues, decodeValues_encodeValues]

/-- Source elements that are those of a list are the list. -/
theorem sourceBytes_eq_of_srcByte {i : Instr} {s : State} {bs : List Byte}
    (hlen : sourceSize i s.blk.eng.len.toNat = bs.length) (h : ∀ k v, bs[k]? = some v → srcByte s k = v) :
    sourceBytes i s = bs := by
  refine List.ext_getElem ((sourceBytes_length i s).trans hlen) fun k hk hk' => ?_
  have hget := getElem?_sourceBytes (sourceBytes_length i s ▸ hk)
  rw [List.getElem?_eq_getElem hk, h k _ (List.getElem?_eq_getElem hk')] at hget
  exact Option.some.inj hget

end Sys2Proof.Machine

namespace Sys2Proof.Proofs

open Sys2Proof.Machine

/-- Settles O9: the data part is valid, so B64_DEC writes the bytes of its values, group by group (R137, R138). -/
theorem b64DecRegroupsSource : Obligations.B64DecRegroupsSource := by
  intro s hm n L out val hadm hquiet hvalid hlone
  have ho := rawOutcome_b64Dec_of_valid hvalid hlone
  have hlen : (decodeValues (srcValues s)).length = out := by rw [decodeValues_length, srcValues_length]; rfl
  obtain ⟨t, hexec, hfin, honly, hterm, hbytes⟩ :=
    exec_finishWith_of_admitted (i := .b64Dec) hm hadm ho (hlen ▸ hquiet)
  rw [hlen] at hfin honly hterm
  refine ⟨t, hexec, hfin, honly, hterm, fun k hk => ?_, fun hL => ?_, fun hL => ?_⟩
  · have hgroup (j : Nat) (hj : j < 3) := decodeValues_group hk hj
    exact ⟨hbytes _ _ (hgroup 0 (by decide)), hbytes _ _ (hgroup 1 (by decide)), hbytes _ _ (hgroup 2 (by decide))⟩
  · rw [← groupOfValues_tail2]
    exact hbytes _ _ (decodeValues_tail2 hL 0)
  · exact ⟨hbytes _ _ (decodeValues_tail3 hL 0), hbytes _ _ (decodeValues_tail3 hL 1)⟩

/-- Settles O10: R140 rejects the source, and no bus error replaces the outcome. -/
theorem b64DecReportsInvalidInput : Obligations.B64DecReportsInvalidInput := by
  intro s k hm n L hadm hquiet hrep
  obtain ⟨hpass, hordinary⟩ := checks_of_admitted (i := .b64Dec) (s := s) hadm
  have ho := commandOutcome_eq_withBusErrors hpass
  rw [rawOutcome_of_reportedAt hrep, withBusErrors_of_quiet hquiet] at ho
  exact exec_failed_of_outcome hm hadm.2.1 hordinary ho

/-- Settles O26: the decoder's source is the encoder's output, whose characters decode to the encoder's source. -/
theorem b64RoundTrip : Obligations.B64RoundTrip := by
  intro s t u hm n out hadm hquiet hexec hmu hstart hsrc hlenu hadmu hquietu
  have henc : (encOutput s).length = out := encOutput_length s
  obtain ⟨t', hexec', hfin, _, _, hbytes⟩ :=
    exec_finishWith_of_admitted (i := .b64Enc) (out := encOutput s) hm hadm rfl (henc ▸ hquiet)
  cases hexec.symm.trans hexec'
  have hout : u.blk.eng.len.toNat = out := by
    rw [hlenu, BitVec.toNat_ofNat, Nat.mod_eq_of_lt (henc ▸ hfin.1)]
  have hsource : sourceBytes .b64Dec u = encOutput s :=
    sourceBytes_eq_of_srcByte (hout.trans henc.symm) fun k v hk => by
      rw [srcByte, hstart, hsrc]
      exact hbytes k v hk
  have ho : rawOutcome .b64Dec u = finishWith (sourceBytes .b64Enc s) := by
    rw [rawOutcome_b64Dec, hsource]
    exact b64DecodeOutcome_b64Encode _
  have hn : (sourceBytes .b64Enc s).length = n := sourceBytes_length .b64Enc s
  rw [← hout] at hadmu hquietu
  obtain ⟨v, hexecu, hfinu, _, _, hbytesu⟩ :=
    exec_finishWith_of_admitted (i := .b64Dec) hmu hadmu ho (hn ▸ hquietu)
  exact ⟨v, hexecu, hn ▸ hfinu, fun k hk => hbytesu k _ (getElem?_sourceBytes hk)⟩

/-- Settles O8: both windows are empty, and the length always fits RESULT. -/
theorem b64DecLenValue : Obligations.B64DecLenValue := by
  refine ⟨by decide, fun s hs => ?_⟩
  have hfits : 3 * s.blk.eng.len.toNat / 4 + 2 < 2 ^ 32 := by
    have := s.blk.eng.len.isLt
    omega
  have ho : rawOutcome .b64DecLen s = finishLength (3 * s.blk.eng.len.toNat / 4 + 2) :=
    (finishLength_of_le (Nat.le_pred_of_lt hfits)).symm
  have hexec := exec_of_emptyWindows (i := .b64DecLen) (s := s) rfl rfl
  rw [ho] at hexec
  obtain ⟨hmem, hfin, _⟩ := complete_finishLength (writeWindow .b64DecLen s.blk.eng) hs (3 * s.blk.eng.len.toNat / 4 + 2)
  exact ⟨_, hexec, hmem, hfin hfits⟩

/-- Settles O30: the table of R135 on the codes, and `rev_eq_some_iff`. -/
theorem revInvertsAlphabet : Obligations.RevInvertsAlphabet :=
  ⟨rev_map_toNat, rev_alphabet, fun _ _ => rev_eq_some_iff.1, rev_padByte⟩

end Sys2Proof.Proofs
end

section
/-! PROOFS. The percent encoder: the hex tables by their codes, its output by source elements, the scans that count it, and
that the two agree. -/

namespace Sys2Proof.Machine

/-! ## The hex tables (R164, R165) -/

/-- HEXU by its codes. -/
theorem hexDigit_toNat (v : BitVec 4) : (hexDigit v).toNat = hexuCode v.toNat := by
  unfold hexDigit hexuCode
  split_ifs <;> rw [BitVec.toNat_ofNat] <;> omega

theorem hexHi_toNat (b : Byte) : (hexHi b).toNat = hexuCode (b.toNat / 16) := by
  rw [hexHi, hexDigit_toNat, BitVec.extractLsb'_toNat, Nat.shiftRight_eq_div_pow, Nat.mod_eq_of_lt (by omega)]

theorem hexLo_toNat (b : Byte) : (hexLo b).toNat = hexuCode (b.toNat % 16) := by
  rw [hexLo, hexDigit_toNat, BitVec.extractLsb'_toNat, Nat.shiftRight_zero]

theorem hexuCode_pos (v : Nat) : 0 < hexuCode v := by
  unfold hexuCode
  split <;> omega

/-- No hex digit is the terminator's byte. -/
theorem hexDigit_ne_zero (v : BitVec 4) : hexDigit v ≠ 0x00#8 := fun h =>
  absurd (hexDigit_toNat v ▸ congrArg BitVec.toNat h) (hexuCode_pos v.toNat).ne'

/-! ## The output of the encoder by source elements (R166, R167) -/

theorem pctEncodeByte_of_safe {T : BitVec 256} {b : Byte} (h : T.getLsbD b.toNat = true) : pctEncodeByte T b = [b] :=
  if_pos h

theorem pctEncodeByte_of_unsafe {T : BitVec 256} {b : Byte} (h : T.getLsbD b.toNat = false) :
    pctEncodeByte T b = [0x25#8, hexHi b, hexLo b] := if_neg (Bool.eq_false_iff.1 h)

theorem pctEncode_append (T : BitVec 256) (l l' : List Byte) :
    pctEncode T (l ++ l') = pctEncode T l ++ pctEncode T l' := by
  induction l with
  | nil => rfl
  | cons b l ih => rw [List.cons_append, pctEncode, ih, pctEncode, List.append_assoc]

theorem pctStrlen_append (T : BitVec 256) (l l' : List Byte) :
    pctStrlen T (l ++ l') = pctStrlen T l + pctStrlen T l' := by
  rw [← pctEncode_length, pctEncode_append, List.length_append, pctEncode_length, pctEncode_length]

/-- The cursor after k source bytes is the length of their encoding. -/
theorem pctStrlen_map_range (T : BitVec 256) (f : Nat → Byte) (k : Nat) :
    pctStrlen T ((List.range k).map f) = pctCursor T f k := by
  induction k with
  | zero => rfl
  | succ k ih =>
    rw [List.range_succ, List.map_append, pctStrlen_append, ih]
    rfl

/-- Source byte k is encoded at the cursor after the k bytes before it. -/
theorem getElem?_pctEncode_map_range (T : BitVec 256) (f : Nat → Byte) {k n : Nat} (hk : k < n) {j : Nat}
    (hj : j < (pctEncodeByte T (f k)).length) :
    (pctEncode T ((List.range n).map f))[pctCursor T f k + j]? = (pctEncodeByte T (f k))[j]? := by
  have hsplit : (List.range n).map f = (List.range k).map f ++ f k :: ((List.range n).map f).drop (k + 1) := by
    have hlt : k < ((List.range n).map f).length := by simpa using hk
    conv_lhs => rw [← List.take_append_drop k ((List.range n).map f), List.drop_eq_getElem_cons hlt]
    rw [← List.map_take, List.take_range, Nat.min_eq_left hk.le, List.getElem_map, List.getElem_range]
  rw [hsplit, pctEncode_append, List.getElem?_append_right, pctEncode_length, pctStrlen_map_range,
    Nat.add_sub_cancel_left, pctEncode, List.getElem?_append_left hj]
  rw [pctEncode_length, pctStrlen_map_range]
  exact Nat.le_add_right ..

/-- Where 0x00 is not safe, no output byte is 0x00. -/
theorem ne_zero_of_mem_pctEncode {T : BitVec 256} (hT : T.getLsbD 0 = false) {l : List Byte} {c : Byte}
    (hc : c ∈ pctEncode T l) : c ≠ 0x00#8 := by
  induction l with
  | nil => cases hc
  | cons b l ih =>
    obtain hc | hc := List.mem_append.1 hc
    · cases hb : T.getLsbD b.toNat with
      | true =>
        rw [pctEncodeByte_of_safe hb, List.mem_singleton] at hc
        rintro rfl
        rw [← hc] at hb
        exact Bool.false_ne_true (hT.symm.trans hb)
      | false =>
        rw [pctEncodeByte_of_unsafe hb] at hc
        simp only [List.mem_cons, List.not_mem_nil, or_false] at hc
        obtain rfl | rfl | rfl := hc
        · decide
        · exact hexDigit_ne_zero _
        · exact hexDigit_ne_zero _
    · exact ih hc

/-! ## The two variants of the encoder and of the scan (R161, R166 to R169) -/

/-- The encoder i of the variant whose safe set is T. -/
def EncodesUnder (c : Config) (i : Instr) (T : BitVec 256) : Prop :=
  i = .pctEncStd ∧ T = c.safeStd ∨ i = .pctEncMin ∧ T = c.safeMin

/-- The scan l of the variant whose safe set is T. -/
def CountsUnder (c : Config) (l : Instr) (T : BitVec 256) : Prop :=
  l = .pctStrlenStd ∧ T = c.safeStd ∨ l = .pctStrlenMin ∧ T = c.safeMin

/-- Under admissible parameters an encoder and the scan of its variant share a table in which 0x00 is not safe (R6). -/
theorem exists_table_of_variant {c : Config} (hc : c.wf = true) {i l : Instr}
    (h : i = .pctEncStd ∧ l = .pctStrlenStd ∨ i = .pctEncMin ∧ l = .pctStrlenMin) :
    ∃ T, T.getLsbD 0 = false ∧ EncodesUnder c i T ∧ CountsUnder c l T := by
  simp only [Config.wf, Config.neverSafe, Bool.and_eq_true, List.all_eq_true, Bool.not_eq_true'] at hc
  obtain ⟨_, hnever⟩ := hc
  obtain ⟨hstd, hmin⟩ := hnever 0x00 (by decide)
  obtain ⟨rfl, rfl⟩ | ⟨rfl, rfl⟩ := h
  · exact ⟨c.safeStd, hstd, .inl ⟨rfl, rfl⟩, .inl ⟨rfl, rfl⟩⟩
  · exact ⟨c.safeMin, hmin, .inr ⟨rfl, rfl⟩, .inr ⟨rfl, rfl⟩⟩

/-- ADDR_W of R5. -/
theorem addrW_le_of_wf {c : Config} (h : c.wf = true) : c.addrW ≤ 32 := by
  simp only [Config.wf, Config.addrWOk, Bool.and_eq_true, decide_eq_true_eq] at h
  obtain ⟨⟨⟨⟨_, haddr⟩, _⟩, _⟩, _⟩ := h
  exact haddr

/-- The source bytes of the latched command, all LEN of them. -/
def pctSource (s : State) : List Byte := (List.range s.blk.eng.len.toNat).map (srcByte s)

/-- Both scans read LEN bytes, write none and give the count of their table. -/
theorem pctStrlen_rule {l : Instr} {s : State} {T : BitVec 256} (h : CountsUnder s.cfg l T) :
    sourceSize l s.blk.eng.len.toNat = s.blk.eng.len.toNat ∧ maxWrite l s.blk.eng.len.toNat = 0 ∧
      rawOutcome l s = finishLength (pctStrlen T (pctSource s)) := by
  obtain ⟨rfl, rfl⟩ | ⟨rfl, rfl⟩ := h
  · exact ⟨rfl, rfl, congrArg (fun src => finishLength (pctStrlen _ src)) (sourceBytes_eq_map .pctStrlenStd s)⟩
  · exact ⟨rfl, rfl, congrArg (fun src => finishLength (pctStrlen _ src)) (sourceBytes_eq_map .pctStrlenMin s)⟩

/-- Both encoders read LEN bytes, have a window of 3 * LEN + 1 and write the encoding under their table. -/
theorem pctEncode_rule {i : Instr} {s : State} {T : BitVec 256} (h : EncodesUnder s.cfg i T) :
    sourceSize i s.blk.eng.len.toNat = s.blk.eng.len.toNat ∧
      maxWrite i s.blk.eng.len.toNat = 3 * s.blk.eng.len.toNat + 1 ∧
      rawOutcome i s = finishWith (pctEncode T (pctSource s)) := by
  obtain ⟨rfl, rfl⟩ | ⟨rfl, rfl⟩ := h
  · exact ⟨rfl, rfl, congrArg (fun src => finishWith (pctEncode _ src)) (sourceBytes_eq_map .pctEncStd s)⟩
  · exact ⟨rfl, rfl, congrArg (fun src => finishWith (pctEncode _ src)) (sourceBytes_eq_map .pctEncMin s)⟩

/-! ## A command that only reads (R100, R103, R168) -/

/-- For a command with no write window whose source lies in the data space and meets no bus error, the outcome of its
family rule stands. -/
theorem commandOutcome_of_onlyReads {l : Instr} {s : State} (hdst : maxWrite l s.blk.eng.len.toNat = 0)
    (hfit : Fits s.cfg s.blk.eng.src.toNat (sourceSize l s.blk.eng.len.toNat))
    (hbus : NoBusErr s.cfg s.blk.eng.src.toNat (sourceSize l s.blk.eng.len.toNat)) :
    commandOutcome l (familyRule s.cfg l) s = rawOutcome l s := by
  have hpass := checkWindows_of_fits hfit (.inl hdst) (.inr (.inl hdst))
  have hrange := outcomeRange_rawOutcome_le l s
  have hquiet : BusQuiet s (sourceSize l s.blk.eng.len.toNat) (outcomeRange l s.blk.eng (rawOutcome l s)).2 :=
    ⟨hbus, fun k hk => by omega⟩
  exact (commandOutcome_eq_withBusErrors hpass).trans (withBusErrors_of_quiet hquiet)

/-- Such a command on ordinary memory is not refused. -/
theorem windowsRefused_of_onlyReads {l : Instr} {s : State} (hdst : maxWrite l s.blk.eng.len.toNat = 0)
    (hord : OrdinaryMem s.cfg s.blk.eng.src.toNat (sourceSize l s.blk.eng.len.toNat)) : windowsRefused l s = false := by
  have hwrite : meetsAny s.cfg.device (writeWindow l s.blk.eng) = false :=
    meetsAny_eq_false fun k hk => absurd hk (hdst ▸ Nat.not_lt_zero k)
  have hread : meetsAny s.cfg.device (sourceWindow l s.blk.eng) = false := meetsAny_eq_false hord
  rw [windowsRefused, touchesDevice, hread, hwrite]
  exact Bool.and_false _

/-- A success met no bus error on its source (R103). -/
theorem noBusErr_of_finish {i : Instr} {s : State} {r : Nat} {bs : List Byte}
    (h : commandOutcome i (familyRule s.cfg i) s = .finish r bs) :
    NoBusErr s.cfg s.blk.eng.src.toNat (sourceSize i s.blk.eng.len.toNat) := by
  intro k hk
  by_contra hbus
  have hhit := busHit_of_source hk (eq_true_of_ne_false hbus) (rawOutcome i s)
  have hraw := commandOutcome_finish_raw h
  rw [commandOutcome_eq_withBusErrors (commandOutcome_finish h).1, withBusErrors_of_hit hhit (by simp [hraw])] at h
  cases h

/-- Where the encoder succeeds, it wrote the encoding and the terminator, and the scan of its variant gives its RESULT. -/
theorem pctStrlen_of_pctEncode_finish {i l : Instr} {s : State} {T : BitVec 256}
    (hi : EncodesUnder s.cfg i T) (hl : CountsUnder s.cfg l T) {r : Nat} {bs : List Byte}
    (h : commandOutcome i (familyRule s.cfg i) s = .finish r bs) :
    finishWith (pctEncode T (pctSource s)) = .finish r bs ∧
      commandOutcome l (familyRule s.cfg l) s = finishLength r := by
  obtain ⟨hsrc, _, henc⟩ := pctEncode_rule hi
  obtain ⟨hsrc', hdst', hscan⟩ := pctStrlen_rule hl
  have hfinish := henc.symm.trans (commandOutcome_finish_raw h)
  have hlen : (pctEncode T (pctSource s)).length = r := (CmdOutcome.finish.inj hfinish).1
  have hfit : Fits s.cfg s.blk.eng.src.toNat (sourceSize i s.blk.eng.len.toNat) :=
    (windows_fit (commandOutcome_finish h).1).1
  have hbus := noBusErr_of_finish h
  rw [hsrc.trans hsrc'.symm] at hfit hbus
  refine ⟨hfinish, ?_⟩
  rw [commandOutcome_of_onlyReads hdst' hfit hbus, hscan, ← pctEncode_length, hlen]

end Sys2Proof.Machine

namespace Sys2Proof.Proofs

open Sys2Proof.Machine

/-- Settles O11: the encoder writes `pctEncode` of its source, whose elements stand at the cursors of R166. -/
theorem pctEncEscapesUnsafeBytes : Obligations.PctEncEscapesUnsafeBytes := by
  intro s i T hm hi n pos hadm hquiet
  obtain ⟨hsrc, hdst, ho⟩ := pctEncode_rule hi
  have hadm' : Admitted s (sourceSize i n) (maxWrite i n) := by rwa [hsrc, hdst]
  have hlen : (pctEncode T (pctSource s)).length = pos n := (pctEncode_length ..).trans (pctStrlen_map_range ..)
  have hquiet' : BusQuiet s (sourceSize i n) ((pctEncode T (pctSource s)).length + 1) := by rwa [hsrc, hlen]
  obtain ⟨t, hexec, hfin, honly, hterm, hbytes⟩ := exec_finishWith_of_admitted hm hadm' ho hquiet'
  rw [hlen] at hfin honly hterm
  have helem {k j : Nat} {v : Byte} (hk : k < n) (hv : (pctEncodeByte T (srcByte s k))[j]? = some v) :
      dstByte s t (pos k + j) = v :=
    hbytes _ _ ((getElem?_pctEncode_map_range T (srcByte s) hk (List.getElem?_eq_some_iff.1 hv).1).trans hv)
  refine ⟨t, hexec, hfin, honly, hterm, fun k hk => ⟨fun hsafe => ?_, fun hunsafe => ⟨?_, ?_, ?_⟩⟩⟩
  · exact helem (j := 0) hk (by rw [pctEncodeByte_of_safe hsafe]; rfl)
  · exact helem (j := 0) hk (by rw [pctEncodeByte_of_unsafe hunsafe]; rfl)
  · rw [← hexHi_toNat]
    exact congrArg _ (helem hk (by rw [pctEncodeByte_of_unsafe hunsafe]; rfl))
  · rw [← hexLo_toNat]
    exact congrArg _ (helem hk (by rw [pctEncodeByte_of_unsafe hunsafe]; rfl))

/-- Settles O12: the scan reads its source and writes nothing, and gives the cursor after LEN bytes, if that fits. -/
theorem pctStrlenCounts : Obligations.PctStrlenCounts := by
  intro s l T hl n count hs hfit hord hbus
  obtain ⟨(hsrc : sourceSize l n = n), hdst, ho⟩ := pctStrlen_rule hl
  rw [← hsrc] at hfit hord hbus
  have hexec := exec_of_ordinary (windowsRefused_of_onlyReads hdst hord)
  rw [commandOutcome_of_onlyReads hdst hfit hbus, ho, pctSource, pctStrlen_map_range] at hexec
  obtain ⟨hmem, hfin, hfail⟩ := complete_finishLength (writeWindow l s.blk.eng) hs count
  exact ⟨_, hexec, hmem, fun hc => hfin (Nat.lt_of_le_pred (by decide) hc), fun hc => hfail (Nat.le_of_pred_lt hc)⟩

/-- Settles O28: the encoder's success leaves the scan nothing to fail for, and both give the length of the encoding. -/
theorem pctLengthIsExact : Obligations.PctLengthIsExact := by
  intro i l s t v hm hwf hil hs hi herr hl
  obtain ⟨T, hT, hisEnc, hisScan⟩ := exists_table_of_variant hwf hil
  obtain ⟨_, rfl⟩ := exec_next hi
  obtain ⟨_, rfl⟩ := exec_next hl
  rw [complete_blk_of_calm (undisturbed_iff.1 hs).1] at herr ⊢
  rw [complete_blk_of_calm (undisturbed_iff.1 hs).1]
  obtain ⟨r, bs, ho⟩ := finish_of_err herr
  obtain ⟨hfinish, hscan⟩ := pctStrlen_of_pctEncode_finish hisEnc hisScan ho
  have hr : r < 2 ^ 32 := commandOutcome_finish_lt (addrW_le_of_wf hwf) ho (finishWith_length hfinish)
  rw [ho, hscan, finishLength_of_le (Nat.le_pred_of_lt hr)]
  obtain ⟨rfl, rfl⟩ := CmdOutcome.finish.inj hfinish
  refine ⟨rfl, rfl, fun k hk => ?_⟩
  have hk' : k < (pctEncode T (pctSource s)).length :=
    hk.trans_le (BitVec.toNat_ofNat _ 32 ▸ Nat.mod_le ..)
  rw [dstByte_complete_finish _ hm hs (List.length_append ▸ Nat.lt_succ_of_lt hk'), List.getElem_append_left hk']
  exact ne_zero_of_mem_pctEncode hT (List.getElem_mem hk')

/-- Settles O31, by the codes of HEXU. -/
theorem hexTablesAreUppercase : Obligations.HexTablesAreUppercase := by
  refine ⟨fun v => ⟨fun hv => ?_, fun hv => ?_⟩, fun b => ⟨hexHi_toNat b, hexLo_toNat b⟩⟩
  · rw [hexDigit_toNat, hexuCode, if_pos hv]
  · rw [hexDigit_toNat, hexuCode, if_neg (by omega)]

end Sys2Proof.Proofs
end

section
/-! PROOFS. The percent decoder: HEXPAIR by the values of its digits, the loop of R187 against the decoder's recursion on
its source, and the round trip through either percent encoder. -/

namespace Sys2Proof.Machine

/-! ## HEXPAIR (R185, R186) -/

/-- HEXDEC is the digit's value, or the sentinel 0x100. -/
theorem hexDec_toNat (c : Byte) : (hexDec c).toNat = (hexValue c).getD 0x100 := by
  unfold hexDec hexValue
  dsimp only
  split_ifs <;> simp <;> omega

theorem hexValue_lt {c : Byte} {v : Nat} (h : hexValue c = some v) : v < 16 := by
  unfold hexValue at h
  split_ifs at h <;> cases h <;> omega

/-- The combine of R186 loses no bit of its two entries. -/
theorem hexCombine_toNat (h l : Byte) :
    (hexCombine h l).toNat = (hexDec h).toNat <<< 4 ||| (hexDec l).toNat := by
  have hwidth (x : BitVec 9) : (x.setWidth 13).toNat = x.toNat := BitVec.toNat_setWidth_of_le (by decide)
  have hfit : (hexDec h).toNat <<< 4 < 2 ^ 13 := by
    rw [Nat.shiftLeft_eq]
    omega
  rw [hexCombine, BitVec.toNat_or, BitVec.toNat_shiftLeft, hwidth, hwidth, Nat.mod_eq_of_lt hfit]

/-- Two digits stay below the range check, and give their byte. -/
theorem hexPair_of_digits {h l : Byte} {x y : Nat} (hx : hexValue h = some x) (hy : hexValue l = some y) :
    hexPair h l = some (BitVec.ofNat 8 (16 * x + y)) := by
  have hx16 := hexValue_lt hx
  have hy16 := hexValue_lt hy
  have hv : (hexCombine h l).toNat = 16 * x + y := by
    rw [hexCombine_toNat, hexDec_toNat, hexDec_toNat, hx, hy, Option.getD_some, Option.getD_some,
      ← Nat.shiftLeft_add_eq_or_of_lt hy16, Nat.shiftLeft_eq, Nat.mul_comm]
  rw [hexPair, ← BitVec.ofNat_toNat, hv, if_pos (by omega)]

/-- The sentinel, in the high or in the low position, passes the range check. -/
theorem hexPair_of_notDigit {h l : Byte} (hn : hexValue h = none ∨ hexValue l = none) : hexPair h l = none := by
  refine if_neg (Nat.not_lt.2 ?_)
  rw [hexCombine_toNat, hexDec_toNat, hexDec_toNat]
  obtain hn | hn := hn <;> rw [hn, Option.getD_none]
  · exact Nat.le_trans (by decide) Nat.left_le_or
  · exact Nat.right_le_or

/-! ## The decoder, one equation for each kind of source byte (R187, R188) -/

@[simp] theorem pctDecode_nil : pctDecode [] = [] := rfl

theorem pctDecode_plus (x : List Byte) : pctDecode (0x2B#8 :: x) = 0x20#8 :: pctDecode x := by
  match x with
  | [] | [_] | _ :: _ :: _ => rfl

theorem pctDecode_literal {b : Byte} (hplus : b ≠ 0x2B#8) (hpct : b ≠ 0x25#8) (x : List Byte) :
    pctDecode (b :: x) = b :: pctDecode x := by
  match x with
  | [] | [_] | _ :: _ :: _ => simp [pctDecode, hplus, hpct]

theorem pctDecode_escape {h l r : Byte} (hr : hexPair h l = some r) (x : List Byte) :
    pctDecode (0x25#8 :: h :: l :: x) = r :: pctDecode x := by
  simp [pctDecode, hr]

theorem pctDecode_rejected {h l : Byte} (hr : hexPair h l = none) (x : List Byte) :
    pctDecode (0x25#8 :: h :: l :: x) = 0x25#8 :: pctDecode (h :: l :: x) := by
  simp [pctDecode, hr]

/-- A `%` with fewer than two bytes after it is literal (R188). -/
theorem pctDecode_tail {x : List Byte} (hx : x.length < 2) : pctDecode (0x25#8 :: x) = 0x25#8 :: pctDecode x := by
  match x, hx with
  | [], _ | [_], _ => rfl

/-! ## The loop of R187 -/

/-- The source bytes of a PCT_DEC from element i on. -/
def pctDecRest (s : State) (i : Nat) : List Byte := (sourceBytes .pctDec s).drop i

theorem pctDecRest_cons {s : State} {i : Nat} (hi : i < s.blk.eng.len.toNat) :
    pctDecRest s i = srcByte s i :: pctDecRest s (i + 1) := drop_sourceBytes hi

theorem pctDecRest_length (s : State) (i : Nat) : (pctDecRest s i).length = s.blk.eng.len.toNat - i := by
  rw [pctDecRest, List.length_drop, sourceBytes_length]
  rfl

/-- At an offset inside the source the decoder emits what the iteration emits, and goes on where it goes on; the iteration
does not pass the end. -/
theorem pctDecode_rest {s : State} {i : Nat} (hi : i < s.blk.eng.len.toNat) :
    (pctDecIter (srcByte s) s.blk.eng.len.toNat i).2 ≤ s.blk.eng.len.toNat ∧
      pctDecode (pctDecRest s i) =
        (pctDecIter (srcByte s) s.blk.eng.len.toNat i).1 ::
          pctDecode (pctDecRest s (pctDecIter (srcByte s) s.blk.eng.len.toNat i).2) := by
  rw [pctDecRest_cons hi]
  unfold pctDecIter
  split
  next hplus => exact ⟨hi, hplus ▸ pctDecode_plus _⟩
  next hplus =>
  split
  next hesc =>
    obtain ⟨hpct, hi2⟩ := hesc
    have hnext : pctDecRest s (i + 1) = srcByte s (i + 1) :: srcByte s (i + 2) :: pctDecRest s (i + 3) := by
      rw [pctDecRest_cons (Nat.lt_of_succ_lt hi2), pctDecRest_cons hi2]
    split
    next r hr => exact ⟨hi2, by rw [hpct, hnext, pctDecode_escape hr]⟩
    next hr => exact ⟨hi, by rw [hpct, hnext, pctDecode_rejected hr]⟩
  next hesc =>
    refine ⟨hi, ?_⟩
    by_cases hpct : srcByte s i = 0x25#8
    · have hend : ¬ i + 2 < s.blk.eng.len.toNat := fun h => hesc ⟨hpct, h⟩
      rw [hpct, pctDecode_tail (by rw [pctDecRest_length]; omega)]
    · exact pctDecode_literal hplus hpct _

/-- The decoder stops exactly at the end of the source. -/
theorem pctDecode_rest_eq_nil_iff {s : State} {i : Nat} :
    pctDecode (pctDecRest s i) = [] ↔ s.blk.eng.len.toNat ≤ i := by
  constructor
  · intro hnil
    by_contra hi
    rw [(pctDecode_rest (Nat.not_le.1 hi)).2] at hnil
    cases hnil
  · intro hi
    rw [List.eq_nil_of_length_eq_zero ((pctDecRest_length s i).trans (Nat.sub_eq_zero_of_le hi)), pctDecode_nil]

/-- The output of PCT_DEC on its whole source. -/
def pctDecOutput (s : State) : List Byte := pctDecode (sourceBytes .pctDec s)

theorem pctDecOutput_length_le (s : State) : (pctDecOutput s).length ≤ s.blk.eng.len.toNat :=
  (pctDecode_length_le _).trans_eq (sourceBytes_length .pctDec s)

/-- The source offset after j iterations on the source of s. -/
def pctDecOffset (s : State) (j : Nat) : Nat := pctDecCursor (srcByte s) s.blk.eng.len.toNat j

/-- The output from byte j on is the decoding of the source from the offset of iteration j on. -/
structure OutputFrom (s : State) (j : Nat) : Prop where
  offset_le : pctDecOffset s j ≤ s.blk.eng.len.toNat
  drop_eq : (pctDecOutput s).drop j = pctDecode (pctDecRest s (pctDecOffset s j))

/-- The loop has ended exactly where the output has. -/
theorem OutputFrom.end_iff {s : State} {j : Nat} (h : OutputFrom s j) :
    s.blk.eng.len.toNat ≤ pctDecOffset s j ↔ (pctDecOutput s).length ≤ j := by
  rw [← pctDecode_rest_eq_nil_iff, ← h.drop_eq, List.drop_eq_nil_iff]

/-- Iteration j emits output byte j. -/
theorem OutputFrom.drop_cons {s : State} {j : Nat} (h : OutputFrom s j) (hj : j < (pctDecOutput s).length) :
    pctDecOffset s (j + 1) ≤ s.blk.eng.len.toNat ∧
      (pctDecOutput s).drop j = (pctDecIter (srcByte s) s.blk.eng.len.toNat (pctDecOffset s j)).1 ::
        pctDecode (pctDecRest s (pctDecOffset s (j + 1))) := by
  have hin := Nat.not_le.1 (mt h.end_iff.1 (Nat.not_le.2 hj))
  rw [h.drop_eq]
  exact pctDecode_rest hin

theorem outputFrom_of_le {s : State} {j : Nat} (hj : j ≤ (pctDecOutput s).length) : OutputFrom s j := by
  induction j with
  | zero => exact ⟨Nat.zero_le _, rfl⟩
  | succ j ih =>
    obtain ⟨hle, hdrop⟩ := (ih (Nat.le_of_succ_le hj)).drop_cons hj
    refine ⟨hle, ?_⟩
    rw [← List.tail_drop, hdrop, List.tail_cons]

theorem getElem?_pctDecOutput {s : State} {j : Nat} (hj : j < (pctDecOutput s).length) :
    (pctDecOutput s)[j]? = some (pctDecIter (srcByte s) s.blk.eng.len.toNat (pctDecOffset s j)).1 := by
  rw [← List.head?_drop, ((outputFrom_of_le hj.le).drop_cons hj).2, List.head?_cons]

/-! ## The round trip (R191) -/

theorem hexValue_of_hexuCode {c : Byte} {v : Nat} (hv : v < 16) (h : c.toNat = hexuCode v) : hexValue c = some v := by
  unfold hexuCode at h
  split at h
  · rw [hexValue, if_pos (by omega), h, Nat.add_sub_cancel_left]
  · rw [hexValue, if_neg (by omega), if_pos (by omega), h]
    congr 1
    omega

/-- HEXPAIR undoes HEX_HI and HEX_LO. -/
theorem hexPair_hexHi_hexLo (b : Byte) : hexPair (hexHi b) (hexLo b) = some b := by
  have hhi : hexValue (hexHi b) = some (b.toNat / 16) := hexValue_of_hexuCode (by omega) (hexHi_toNat b)
  have hlo : hexValue (hexLo b) = some (b.toNat % 16) := hexValue_of_hexuCode (by omega) (hexLo_toNat b)
  rw [hexPair_of_digits hhi hlo, Nat.div_add_mod, BitVec.ofNat_toNat, BitVec.setWidth_eq]

/-- The decoder gives back what one source byte became, where neither `%` nor `+` is safe. -/
theorem pctDecode_pctEncodeByte {T : BitVec 256} (hpct : T.getLsbD 0x25 = false) (hplus : T.getLsbD 0x2B = false)
    (b : Byte) (x : List Byte) : pctDecode (pctEncodeByte T b ++ x) = b :: pctDecode x := by
  cases hb : T.getLsbD b.toNat with
  | true =>
    have hne {c : Byte} (hc : T.getLsbD c.toNat = false) : b ≠ c := by
      rintro rfl
      exact Bool.false_ne_true (hc.symm.trans hb)
    rw [pctEncodeByte_of_safe hb]
    exact pctDecode_literal (hne hplus) (hne hpct) x
  | false =>
    rw [pctEncodeByte_of_unsafe hb]
    exact pctDecode_escape (hexPair_hexHi_hexLo b) x

/-- PCT_DEC of what a percent encoder gives is the source. -/
theorem pctDecode_pctEncode {T : BitVec 256} (hpct : T.getLsbD 0x25 = false) (hplus : T.getLsbD 0x2B = false)
    (l : List Byte) : pctDecode (pctEncode T l) = l := by
  induction l with
  | nil => rfl
  | cons b l ih => rw [pctEncode, pctDecode_pctEncodeByte hpct hplus, ih]

/-- Under admissible parameters an encoder's table has none of the four bytes that are never safe (R6). -/
theorem neverSafe_of_encodesUnder {c : Config} (hc : c.wf = true) {i : Instr} {T : BitVec 256}
    (hi : EncodesUnder c i T) : ∀ b ∈ [0x20, 0x25, 0x2B, 0x00], T.getLsbD b = false := by
  simp only [Config.wf, Config.neverSafe, Bool.and_eq_true, List.all_eq_true, Bool.not_eq_true'] at hc
  obtain ⟨_, hnever⟩ := hc
  intro b hb
  obtain ⟨_, rfl⟩ | ⟨_, rfl⟩ := hi
  · exact (hnever b hb).1
  · exact (hnever b hb).2

theorem exists_encodesUnder {i : Instr} (hi : i = .pctEncStd ∨ i = .pctEncMin) (c : Config) :
    ∃ T, EncodesUnder c i T := by
  obtain rfl | rfl := hi
  · exact ⟨c.safeStd, .inl ⟨rfl, rfl⟩⟩
  · exact ⟨c.safeMin, .inr ⟨rfl, rfl⟩⟩

theorem getElem?_pctSource {s : State} {k : Nat} (hk : k < s.blk.eng.len.toNat) :
    (pctSource s)[k]? = some (srcByte s k) := by
  rw [pctSource, List.getElem?_map, List.getElem?_range hk, Option.map_some]

/-- A percent encoder that succeeds has the length of the encoding in RESULT and the encoding from eng.DST on. -/
theorem pctEncode_of_success {i : Instr} {s t : State} {T : BitVec 256} (hm : Memory.wf s.mem = true)
    (haddr : s.cfg.addrW ≤ 32) (hs : undisturbed s.blk = true) (hi : EncodesUnder s.cfg i T)
    (hexec : exec i s = .next t) (herr : t.blk.err = false) :
    t.blk.result.toNat = (pctEncode T (pctSource s)).length ∧
      ∀ k v, (pctEncode T (pctSource s))[k]? = some v → dstByte s t k = v := by
  obtain ⟨_, rfl⟩ := exec_next hexec
  rw [complete_blk_of_calm (undisturbed_iff.1 hs).1] at herr ⊢
  obtain ⟨r, bs, ho⟩ := finish_of_err herr
  have hfinish : finishWith (pctEncode T (pctSource s)) = .finish r bs :=
    (pctEncode_rule hi).2.2.symm.trans (commandOutcome_finish_raw ho)
  have hr := commandOutcome_finish_lt haddr ho (finishWith_length hfinish)
  obtain ⟨rfl, rfl⟩ := CmdOutcome.finish.inj hfinish
  rw [ho]
  refine ⟨Nat.mod_eq_of_lt hr, fun k v hv => dstByte_of_writeBytes hm (mem_of_calm _ hs _) ?_⟩
  rwa [List.getElem?_append_left (List.getElem?_eq_some_iff.1 hv).1]

end Sys2Proof.Machine

namespace Sys2Proof.Proofs

open Sys2Proof.Machine

/-- Settles O13: PCT_DEC writes `pctDecOutput`, and the loop has ended exactly where that output has. -/
theorem pctDecRunsItsLoop : Obligations.PctDecRunsItsLoop := by
  intro s hm n cur hadm
  have hend := outputFrom_of_le (s := s) (Nat.le_refl _)
  refine ⟨(pctDecOutput s).length, pctDecOutput_length_le s,
    Nat.le_antisymm hend.offset_le (hend.end_iff.2 (Nat.le_refl _)), fun j hj => ?_, fun hquiet => ?_⟩
  · exact Nat.not_le.1 (mt (outputFrom_of_le hj.le).end_iff.1 (Nat.not_le.2 hj))
  · obtain ⟨t, hexec, hfin, honly, hterm, hbytes⟩ :=
      exec_finishWith_of_admitted (i := .pctDec) (out := pctDecOutput s) hm hadm rfl hquiet
    exact ⟨t, hexec, hfin, honly, hterm, fun j hj => hbytes j _ (getElem?_pctDecOutput hj)⟩

/-- Settles O27: the decoder's source is the encoder's output, and `pctDecode_pctEncode`. -/
theorem pctRoundTrip : Obligations.PctRoundTrip := by
  intro i s t u hm hwf hi n out hadm hexec herr hmu hstart hsrc hlenu hadmu hquietu
  obtain ⟨T, hT⟩ := exists_encodesUnder hi s.cfg
  have hnever := neverSafe_of_encodesUnder hwf hT
  obtain ⟨hlen, hbytes⟩ := pctEncode_of_success hm (addrW_le_of_wf hwf) hadm.2.1 hT hexec herr
  have hout : u.blk.eng.len.toNat = out := by
    rw [hlenu, BitVec.toNat_ofNat, Nat.mod_eq_of_lt t.blk.result.isLt]
  have hsource : sourceBytes .pctDec u = pctEncode T (pctSource s) :=
    sourceBytes_eq_of_srcByte (hout.trans hlen) fun k v hk => by
      rw [srcByte, hstart, hsrc]
      exact hbytes k v hk
  have hdec : pctDecOutput u = pctSource s := by
    rw [pctDecOutput, hsource, pctDecode_pctEncode (hnever _ (by decide)) (hnever _ (by decide))]
  have hn : (pctSource s).length = n := by rw [pctSource, List.length_map, List.length_range]
  rw [← hout] at hadmu hquietu
  obtain ⟨v, hexecu, hfinu, _, _, hbytesu⟩ :=
    exec_finishWith_of_admitted (i := .pctDec) hmu hadmu (congrArg finishWith hdec) (hn ▸ hquietu)
  exact ⟨v, hexecu, hn ▸ hfinu, fun k hk => hbytesu k _ (getElem?_pctSource hk)⟩

/-- Settles O32, by the two cases of the range check. -/
theorem hexPairAcceptsTwoDigits : Obligations.HexPairAcceptsTwoDigits := by
  intro h l
  split
  next x y hx hy => exact hexPair_of_digits hx hy
  next hnot =>
    cases hh : hexValue h with
    | none => exact hexPair_of_notDigit (.inl hh)
    | some x => exact hexPair_of_notDigit (.inr (Option.eq_none_iff_forall_ne_some.2 fun y hy => hnot x y hh hy))

end Sys2Proof.Proofs
end

section
/-! PROOFS. Errors and accesses that reach no further: which command raises which error (R205, R206), what changes OVR
(R30, R211), and that an access or an engine's turn at the REG_BASE of a peer is the step with that peer in front (R223). -/

namespace Sys2Proof.Machine

/-! ## Which command raises which error (R205, R206) -/

/-- A command that gives a length, on a source so long that the length can pass 32 bits (R123, R168). -/
inductive LengthCanPass : Instr → Nat → Prop
  | b64EncLen {n : Nat} (hn : 3221225470 ≤ n) : LengthCanPass .b64EncLen n
  | pctStrlenStd {n : Nat} (hn : 1431655765 < n) : LengthCanPass .pctStrlenStd n
  | pctStrlenMin {n : Nat} (hn : 1431655765 < n) : LengthCanPass .pctStrlenMin n

/-- An address of the command's own source or write window answers with an error (R103). -/
def BusErrOnWindow (i : Instr) (s : State) : Prop :=
  ∃ k, k < sourceSize i s.blk.eng.len.toNat ∧ busErrAt s.cfg (s.blk.eng.src.toNat + k) = true ∨
    k < maxWrite i s.blk.eng.len.toNat ∧ busErrAt s.cfg (s.blk.eng.dst.toNat + k) = true

/-- The outcomes of a command, each error with its cause. -/
inductive Caused (i : Instr) (s : State) : CmdOutcome → Prop
  | finish (r : Nat) (bs : List Byte) : Caused i s (.finish r bs)
  | invalidInput (hi : i = .b64Dec) (info : Word) : Caused i s (.error .invalidInput info)
  | pastTop (h : rangeFails i s.cfg s.blk.eng = true) : Caused i s (.error .range 0#32)
  | longLength (h : LengthCanPass i s.blk.eng.len.toNat) : Caused i s (.error .range 0#32)
  | overlap (h : overlapFails i s.blk.eng = true) : Caused i s (.error .overlap 0#32)
  | bus (h : BusErrOnWindow i s) (info : Word) : Caused i s (.error .bus info)

theorem caused_finishLength {i : Instr} {s : State} {v : Nat}
    (h : 2 ^ 32 - 1 < v → LengthCanPass i s.blk.eng.len.toNat) : Caused i s (finishLength v) := by
  unfold finishLength
  split
  next hv => exact .longLength (h hv)
  next => exact .finish v []

/-- A family rule rejects its input in B64_DEC alone, and a length only where it can pass 32 bits. -/
theorem caused_rawOutcome (i : Instr) (s : State) : Caused i s (rawOutcome i s) := by
  have hlen := sourceBytes_length i s
  cases i with
  | b64Dec =>
    rw [rawOutcome_b64Dec, b64DecodeOutcome]
    split
    · exact .invalidInput rfl _
    · exact .finish _ _
  | b64EncLen =>
    refine caused_finishLength fun hv => .b64EncLen ?_
    rw [b64EncodeLen_eq] at hv
    omega
  | pctStrlenStd =>
    refine caused_finishLength fun hv => .pctStrlenStd ?_
    have hle := pctStrlen_le s.cfg.safeStd (sourceBytes .pctStrlenStd s)
    rw [hlen, sourceSize_of_reads (by decide) (by decide)] at hle
    omega
  | pctStrlenMin =>
    refine caused_finishLength fun hv => .pctStrlenMin ?_
    have hle := pctStrlen_le s.cfg.safeMin (sourceBytes .pctStrlenMin s)
    rw [hlen, sourceSize_of_reads (by decide) (by decide)] at hle
    omega
  | b64Enc | b64DecLen | pctEncStd | pctEncMin | pctDec => exact .finish _ _

theorem exists_busErrAt_of_meetsAny {c : Config} {r : Nat × Nat} (h : meetsAny c.busErr r = true) :
    ∃ k, k < r.2 ∧ busErrAt c (r.1 + k) = true := by
  obtain ⟨a, ha, hbus⟩ := meetsAny_iff.1 h
  obtain ⟨hlo, hhi⟩ := inRange_iff.1 ha
  exact ⟨a - r.1, by omega, by rwa [Nat.add_sub_cancel' hlo]⟩

/-- The addresses an outcome would write start at eng.DST (R103). -/
theorem outcomeRange_fst (i : Instr) (e : Engine) (o : CmdOutcome) : (outcomeRange i e o).1 = e.dst.toNat := by
  unfold outcomeRange
  split <;> rfl

/-- A bus error is on an address of the command's own windows: what its outcome would write lies in the write window. -/
theorem busErrOnWindow_of_busHit {i : Instr} {s : State} (h : busHit i s.cfg s.blk.eng (rawOutcome i s) = true) :
    BusErrOnWindow i s := by
  obtain hsrc | hdst := (Bool.or_eq_true ..).mp h
  · obtain ⟨k, hk, hbus⟩ := exists_busErrAt_of_meetsAny hsrc
    exact ⟨k, .inl ⟨hk, hbus⟩⟩
  · obtain ⟨k, hk, hbus⟩ := exists_busErrAt_of_meetsAny hdst
    rw [outcomeRange_fst] at hbus
    exact ⟨k, .inr ⟨hk.trans_le (outcomeRange_rawOutcome_le i s), hbus⟩⟩

theorem caused_withBusErrors (i : Instr) (s : State) : Caused i s (withBusErrors i s (rawOutcome i s)) := by
  by_cases hhit : busHit i s.cfg s.blk.eng (rawOutcome i s) = true
  · obtain h | h := withBusErrors_cases i s (rawOutcome i s) <;> rw [h]
    · exact caused_rawOutcome i s
    · exact .bus (busErrOnWindow_of_busHit hhit) _
  · rw [withBusErrors, if_neg hhit]
    exact caused_rawOutcome i s

/-- The outcome of a command: the error of check 2, that of check 3, or its rule's outcome with bus errors (R212). -/
theorem caused_commandOutcome (i : Instr) (s : State) : Caused i s (commandOutcome i (familyRule s.cfg i) s) := by
  by_cases hrange : rangeFails i s.cfg s.blk.eng = true
  · rw [commandOutcome_of_fail (if_pos hrange)]
    exact .pastTop hrange
  · by_cases hover : overlapFails i s.blk.eng = true
    · rw [commandOutcome_of_fail ((if_neg hrange).trans (if_pos hover))]
      exact .overlap hover
    · rw [commandOutcome_eq_withBusErrors ((if_neg hrange).trans (if_neg hover))]
      exact caused_withBusErrors i s

/-- An undisturbed command records an outcome that has its cause. -/
theorem exec_caused {i : Instr} {s t : State} (hs : undisturbed s.blk = true) (h : exec i s = .next t) :
    ∃ o, Caused i s o ∧ t.blk = outcomeBlock s.blk o := by
  obtain ⟨_, rfl⟩ := exec_next h
  exact ⟨_, caused_commandOutcome i s, complete_blk_of_calm (undisturbed_iff.1 hs).1⟩

/-! ## The registers after an outcome (R104) -/

/-- What R104 and R205 say of the registers of a completed command: ERR_INFO 0 but after INVALID_INPUT and BUS, ERR exactly
with a code, RESULT all ones after an error. -/
structure ErrRegisters (b : Block) : Prop where
  errInfo : b.errCode ≠ 1#4 → b.errCode ≠ 5#4 → b.errInfo = 0#32
  err_iff : b.err = true ↔ b.errCode ≠ 0#4
  result : b.err = true → b.result = 0xFFFFFFFF#32

theorem errRegisters_recordFinish (r : Nat) (b : Block) : ErrRegisters (recordFinish r b) where
  errInfo _ _ := rfl
  err_iff := by rw [recordFinish_err, recordFinish_errCode]; decide
  result h := by rw [recordFinish_err] at h; cases h

theorem errRegisters_recordError {code : ErrCode} {info : Word} (b : Block)
    (h : code = .invalidInput ∨ code = .bus ∨ info = 0#32) : ErrRegisters (recordError code info b) where
  errInfo hinvalid hbus := by
    obtain rfl | rfl | rfl := h
    · exact absurd rfl hinvalid
    · exact absurd rfl hbus
    · rfl
  err_iff := by rw [recordError_err, recordError_errCode]; cases code <;> decide
  result _ := rfl

theorem Caused.errRegisters {i : Instr} {s : State} {o : CmdOutcome} (h : Caused i s o) (b : Block) :
    ErrRegisters (outcomeBlock b o) := by
  cases h with
  | finish r bs => exact errRegisters_recordFinish r b
  | invalidInput => exact errRegisters_recordError b (.inl rfl)
  | pastTop | longLength | overlap => exact errRegisters_recordError b (.inr (.inr rfl))
  | bus => exact errRegisters_recordError b (.inr (.inl rfl))

/-! ## What changes OVR (R30, R211) -/

@[simp] theorem hostWrote_ovr (a : Nat) (b : Block) : (hostWrote a b).ovr = b.ovr := by
  obtain ⟨_, _, h⟩ := hostWrote_eq a b
  rw [h]

@[simp] theorem acceptCommand_ovr (v : Word) (s : State) : (acceptCommand v s).blk.ovr = s.blk.ovr := by
  obtain ⟨_, _, _, h⟩ := acceptCommand_blk_eq v s
  rw [h]
  rfl

@[simp] theorem complete_blk_ovr (w : Nat × Nat) (o : CmdOutcome) (s : State) :
    (complete w o s).blk.ovr = s.blk.ovr := by
  obtain ⟨_, _, _, h⟩ := complete_blk_eq_close w o s
  rw [h, closeCommand_ovr]

/-- A GO write to a running block only sets OVR. -/
theorem writeCmd_of_goBusy {v : Word} {s : State} (hgo : v.getLsbD 31 = true) (hbusy : s.blk.busy = true) :
    writeCmd v s = { s with blk := { s.blk with ovr := true } } := by
  rw [writeCmd, if_pos hgo, if_pos hbusy]

/-- The two stores that change OVR: the dropped GO write sets it, a STATUS write with bit 3 set clears it. -/
theorem RegStored.ovr_changed {c : Config} {v : Word} {b b' : Block} {offset : Nat} (h : RegStored c v b offset b')
    (hne : b'.ovr ≠ b.ovr) :
    b'.ovr = true ∧ (offset = 0x08 ∧ v.getLsbD 31 = true) ∧ b.busy = true ∨
      b'.ovr = false ∧ offset = 0x0C ∧ v.getLsbD 3 = true := by
  cases h with
  | overrun hgo hbusy => exact .inl ⟨rfl, ⟨rfl, hgo⟩, hbusy⟩
  | status =>
    have hclear : ∀ ovr bit : Bool, (ovr && !bit) ≠ ovr → (ovr && !bit) = false ∧ bit = true := by decide
    obtain ⟨hovr, hbit⟩ := hclear b.ovr (v.getLsbD 3) hne
    exact .inr ⟨hovr, rfl, hbit⟩
  | _ => exact absurd rfl hne

theorem writeReg_ovr_changed {offset width : Nat} {v : Word} {s : State}
    (hne : (writeReg offset width v s).blk.ovr ≠ s.blk.ovr) :
    width = 4 ∧
      ((writeReg offset width v s).blk.ovr = true ∧ (offset = 0x08 ∧ v.getLsbD 31 = true) ∧ s.blk.busy = true ∨
        (writeReg offset width v s).blk.ovr = false ∧ offset = 0x0C ∧ v.getLsbD 3 = true) := by
  obtain h | ⟨_, _, _, _, h⟩ | ⟨hw, b, hb, h⟩ := writeReg_cases offset width v s <;> rw [h] at hne ⊢
  · exact absurd rfl hne
  · exact absurd (acceptCommand_ovr v s) hne
  · exact ⟨hw, hb.ovr_changed hne⟩

/-- R30 and R211, of the acting block. -/
theorem Acts.ovr_changed {s t : State} {e : Option Event} (h : Acts s e t) (hne : t.blk.ovr ≠ s.blk.ovr) :
    t.blk.ovr = true ∧ (∃ v, e = some (.regWrite (s.blk.regBase + 0x08) 4 v) ∧ v.getLsbD 31 = true) ∧
        s.blk.busy = true ∨
      t.blk.ovr = false ∧
        (e = some .reset ∨ ∃ v, e = some (.regWrite (s.blk.regBase + 0x0C) 4 v) ∧ v.getLsbD 3 = true) := by
  cases h with
  | waits => exact absurd rfl hne
  | engine _ hturn =>
    obtain ⟨_, rfl⟩ | ⟨_, w, o, rfl, _⟩ := engineTurn_cases hturn
    · exact absurd rfl hne
    · exact absurd (complete_blk_ovr w o s) hne
  | regWrite width v ha =>
    have haddr := eq_regBase_add_of_windowHolds ha
    obtain ⟨rfl, ⟨hovr, ⟨ho, hgo⟩, hbusy⟩ | ⟨hovr, ho, hbit⟩⟩ := writeReg_ovr_changed hne
    · exact .inl ⟨hovr, ⟨v, by rw [haddr, ho], hgo⟩, hbusy⟩
    · exact .inr ⟨hovr, .inr ⟨v, by rw [haddr, ho], hbit⟩⟩
  | regRead => exact absurd rfl hne
  | memWrite => exact absurd (hostWrote_ovr ..) hne
  | memRead => exact absurd rfl hne
  | reset => exact .inr ⟨rfl, .inl rfl⟩

/-! ## Reaching a peer (R9, R223) -/

/-- The one block that satisfies q is brought to act. -/
theorem focusOn_peer {q : Block → Bool} {s : State} {k : Nat} {p : Block} (hp : s.peers[k]? = some p)
    (hq : q p = true) (hothers : ∀ b ∈ s.blk :: s.peers.eraseIdx k, q b = false) :
    focusOn q s = some (peerInFront s k p) := by
  obtain ⟨hblk, hpeers⟩ := List.forall_mem_cons.1 hothers
  rw [focusOn, if_neg (Bool.eq_false_iff.1 hblk), takeBlock_of_first hp hq hpeers]
  rfl

/-- The block satisfies what the event asks of the one it reaches; a data access and reset reach whichever block acts. -/
def eventReaches : Event → Block → Bool
  | .complete regBase => fun b => b.regBase == regBase
  | .regWrite addr _ _ => windowHolds addr
  | .regRead addr _ => windowHolds addr
  | .memWrite _ _ => fun _ => true
  | .memRead _ => fun _ => true
  | .reset => fun _ => true

/-- An event may as well find the block it reaches in front. -/
theorem runEvent_of_focusOn {e : Event} {s t : State} (h : focusOn (eventReaches e) s = some t) :
    runEvent e s = runEvent e t := by
  have hfront := focusOn_of_pos (focusOn_pos h)
  cases e with
  | complete regBase =>
    unfold eventReaches at h hfront
    simp only [runEvent, engineTurnOf, h, hfront]
  | regWrite addr width v =>
    unfold eventReaches at h hfront
    simp only [runEvent, hostRegWrite, h, hfront]
  | regRead addr width =>
    unfold eventReaches at h hfront
    simp only [runEvent, hostRegRead, h, hfront]
  | memWrite | memRead | reset => cases h; rfl

/-- The step of an event that reaches a peer and no other block is the step with that peer in front. -/
theorem step_of_reachesPeer {e : Event} {s : State} {k : Nat} {p : Block} {rest : List Event} (h : s.sched = e :: rest)
    (hp : s.peers[k]? = some p) (hreach : eventReaches e p = true)
    (hothers : ∀ b ∈ s.blk :: s.peers.eraseIdx k, eventReaches e b = false) : step s = step (peerInFront s k p) := by
  have hrun := runEvent_of_focusOn (focusOn_peer (s := { s with sched := rest }) hp hreach hothers)
  have hfront : (peerInFront s k p).sched = e :: rest := h
  simp only [step, nextTurn, h, hfront]
  exact hrun

/-! ## A register write and the other blocks (R70, R223) -/

@[simp] theorem unmarked_clashWith (c : Config) (o b : Block) : unmarked (clashWith c o b) = unmarked b := rfl

theorem acceptCommand_peers_unmarked (v : Word) (s : State) :
    (acceptCommand v s).peers.map unmarked = s.peers.map unmarked := by
  rw [acceptCommand_peers, List.map_map]
  refine List.map_congr_left fun p _ => ?_
  rw [Function.comp_apply]
  split
  · exact unmarked_clashWith ..
  · rfl

/-- A register write changes nothing of another block but the marks of R70. -/
theorem writeReg_peers_unmarked (offset width : Nat) (v : Word) (s : State) :
    (writeReg offset width v s).peers.map unmarked = s.peers.map unmarked := by
  obtain h | ⟨_, _, _, _, h⟩ | ⟨_, _, _, h⟩ := writeReg_cases offset width v s <;> rw [h]
  exact acceptCommand_peers_unmarked v s

theorem writeReg_regBase (offset width : Nat) (v : Word) (s : State) :
    (writeReg offset width v s).blk.regBase = s.blk.regBase :=
  (List.cons.inj (writeReg_cfg_regBases offset width v s).2).1

end Sys2Proof.Machine

namespace Sys2Proof.Proofs

open Sys2Proof.Machine

/-- Settles O21: the outcome that is recorded has its cause (`exec_caused`), one case for each error. -/
theorem errorCodesAndRaisers : Obligations.ErrorCodesAndRaisers := by
  intro i s t hs hexec e S M
  obtain ⟨o, hcaused, hblk⟩ := exec_caused hs hexec
  obtain ⟨hinfo, herr, hres⟩ := hcaused.errRegisters s.blk
  rw [hblk]
  refine ⟨?_, hinfo, herr, hres⟩
  cases hcaused with
  | finish => exact .inl rfl
  | invalidInput hi => exact .inr (.inl ⟨rfl, hi⟩)
  | pastTop hpast =>
    have hwindow := ((Bool.or_eq_true ..).mp hpast).imp pastTop_iff.1 pastTop_iff.1
    exact .inr (.inr (.inl ⟨rfl, hwindow.imp_right .inl⟩))
  | longLength hlong =>
    refine .inr (.inr (.inl ⟨rfl, .inr (.inr ?_)⟩))
    cases hlong with
    | b64EncLen hn => exact .inl ⟨rfl, hn⟩
    | pctStrlenStd hn => exact .inr ⟨.inl rfl, hn⟩
    | pctStrlenMin hn => exact .inr ⟨.inr rfl, hn⟩
  | overlap hover => exact .inr (.inr (.inr (.inl ⟨rfl, rangesMeet_iff.1 hover⟩)))
  | bus hbus => exact .inr (.inr (.inr (.inr ⟨rfl, hbus⟩)))

/-- Settles O40: a GO write to a running block is `writeCmd_of_goBusy`, and `Acts.ovr_changed` lists what changes OVR. -/
theorem goWhileBusyIsDropped : Obligations.GoWhileBusyIsDropped := by
  refine ⟨fun s v rest hgo hbusy hsched => ?_, fun s t halone hstep hne => ?_⟩
  · exact (step_writeCmd hsched).trans (congrArg _ (writeCmd_of_goBusy hgo hbusy))
  · obtain ⟨hovr, ⟨v, he, hgo⟩, hbusy⟩ | ⟨hovr, he | ⟨v, he, hbit⟩⟩ :=
      (step_acts_of_alone halone hstep).ovr_changed hne <;>
      obtain ⟨rest, hsched⟩ := List.head?_eq_some_iff.1 he
    · exact ⟨_, rest, hsched, .inl ⟨hovr, ⟨v, rfl, hgo⟩, hbusy⟩⟩
    · exact ⟨_, rest, hsched, .inr ⟨hovr, .inl rfl⟩⟩
    · exact ⟨_, rest, hsched, .inr ⟨hovr, .inr ⟨v, rfl, hbit⟩⟩⟩

/-- Settles O56: the step is that of the state with the peer in front, where the access reaches the acting block. -/
theorem accessReachesItsOwnInstance : Obligations.AccessReachesItsOwnInstance := by
  intro s k p offset width v rest hp ho hothers
  refine ⟨fun h => ?_, fun h => ?_, fun h hbases => ?_⟩
  · rw [step_of_reachesPeer h hp (windowHolds_self ho) hothers]
    exact step_regRead (s := peerInFront s k p) ho h
  · have hstep := step_of_reachesPeer h hp (windowHolds_self ho) hothers
    have hwrite := hstep.trans (step_regWrite (s := peerInFront s k p) ho h)
    exact ⟨hstep, _, hwrite, writeReg_regBase .., writeReg_peers_unmarked ..⟩
  · exact step_of_reachesPeer h hp (beq_self_eq_true _) fun b hb => beq_eq_false_iff_ne.2 (hbases b hb)

end Sys2Proof.Proofs
end

section
/-! PROOFS. Reset and idling: what a reset leaves in every block and in data memory (R230, R231), and that a machine with no
running engine and no pending access waits (R233). -/

namespace Sys2Proof.Machine

/-! ## What reset leaves (R43, R231) -/

theorem allBlocks_resetBlocks (s : State) :
    allBlocks (resetBlocks s) = (allBlocks s).map fun b => Block.reset b.regBase := rfl

theorem map_regBase_resetBlocks (s : State) :
    (allBlocks (resetBlocks s)).map Block.regBase = (allBlocks s).map Block.regBase := by
  rw [allBlocks_resetBlocks, List.map_map]
  rfl

theorem step_reset {s : State} {rest : List Event} (h : s.sched = .reset :: rest) :
    step s = .next (resetBlocks { s with sched := rest }) := by
  simp only [step, nextTurn, h, runEvent]

/-- The source window of a command that passes its checks is apart from its write window, so a reset leaves it alone (R231). -/
theorem inRange_blockWindow_of_source {c : Config} {b : Block} {a : Nat} (hpass : passesChecks c b.eng = true)
    (hsource : inRange a (blockSource b) = true) : inRange a (blockWindow b) = false :=
  Bool.eq_false_iff.2 fun hwindow =>
    Bool.eq_false_iff.1 (windows_of_passesChecks hpass) (rangesMeet_iff_common.2 ⟨a, hsource, hwindow⟩)

/-- An address that reset leaves alone in what the block runs: outside the write window or inside the source window, or
the command fails its checks; and outside every range that R70 leaves unspecified. -/
theorem inRange_abortedRanges {c : Config} {b : Block} {a : Nat}
    (h : b.busy = true →
      (inRange a (blockWindow b) = false ∨ inRange a (blockSource b) = true ∨ passesChecks c b.eng = false) ∧
        ∀ r ∈ b.eng.foul, inRange a r = false) :
    ∀ r ∈ abortedRanges c b, inRange a r = false := by
  intro r hr
  obtain ⟨hbusy, ⟨hpass, rfl⟩ | hfoul⟩ := mem_abortedRanges.1 hr
  · obtain hwindow | hsource | hfail := (h hbusy).1
    · exact hwindow
    · exact inRange_blockWindow_of_source hpass hsource
    · rw [hpass] at hfail; cases hfail
  · exact (h hbusy).2 r hfoul

/-! ## No block to act (R233) -/

theorem takeBlock_eq_none {p : Block → Bool} :
    ∀ {bs : List Block}, (∀ b ∈ bs, p b = false) → takeBlock p bs = none
  | [], _ => rfl
  | c :: cs, h => by
    obtain ⟨hc, hcs⟩ := List.forall_mem_cons.1 h
    rw [takeBlock, if_neg (Bool.eq_false_iff.1 hc), takeBlock_eq_none hcs, Option.map_none]

theorem focusOn_eq_none {p : Block → Bool} {s : State} (h : ∀ b ∈ allBlocks s, p b = false) : focusOn p s = none := by
  obtain ⟨hblk, hpeers⟩ := List.forall_mem_cons.1 h
  rw [focusOn, if_neg (Bool.eq_false_iff.1 hblk), takeBlock_eq_none hpeers, Option.map_none]

theorem isRunning_of_idle {b : Block} (h : b.eng.state = .idle) : isRunning b = false := by
  rw [isRunning, h]
  rfl

end Sys2Proof.Machine

namespace Sys2Proof.Proofs

open Sys2Proof.Machine

/-- Settles O48: every block is `Block.reset` of its own REG_BASE (`allBlocks_resetBlocks`), with the values of
`resetValues`, and data memory changes only in the ranges of `abortedRanges`. -/
theorem resetAbortsAndClears : Obligations.ResetAbortsAndClears := by
  intro s rest hmem hsched
  refine ⟨_, step_reset hsched, ?_, map_regBase_resetBlocks _, fun a ha => ?_⟩
  · rw [allBlocks_resetBlocks]
    -- No register of `Block.reset` depends on REG_BASE, so the values are those of R43 at REG_BASE 0.
    exact List.forall_mem_map.2 fun _ _ => resetValues
  · exact memRead_resetMem_outside hmem fun b hb => inRange_abortedRanges (ha b hb)

/-- Settles O49: with no block in RUN there is none to act (`focusOn_eq_none`). -/
theorem idleBlockWaits : Obligations.IdleBlockWaits := by
  refine ⟨List.forall_mem_singleton.2 (atResetValues_reset 0).idle, fun s hsched hidle => ?_⟩
  have hnone : focusOn isRunning s = none := focusOn_eq_none fun b hb => isRunning_of_idle (hidle b hb)
  simp only [step, nextTurn, hsched, engineTurnOf, hnone]

end Sys2Proof.Proofs
end
